-- ==== Sys2Proof/Word.lean ====
section
/-! DEFINITION. The word types of the block: bytes of a frame buffer, values of a cabinet variable (R6: widths 1, 8 and 16, all
unsigned), and the 120-bit compatibility bitset. -/

namespace Sys2Proof

/-- One byte of a frame buffer (R51). -/
abbrev Byte := BitVec 8

/-- The value of a cabinet variable, in the widest of its three types (R6, R21). -/
abbrev Half := BitVec 16

/-- A compatibility bitset `b[0..119]`, with `b[0]` the bit of pair (1,2) (R11). -/
abbrev Bitset := BitVec 120

end Sys2Proof
end

