-- ==== Sys2Proof/Config.lean ====
section
/-! DEFINITION. What an implementation of the block fixes: the constants of R5, the shape of variable identities (R20), frame
elements (R86) and frame definitions (R28), and the OPEN parameters of R5 as plain data. The parameters are an ARGUMENT of the
model: they stand in State (`State.params`), no operation writes them, and a statement holds for every value of them. -/

namespace Sys2Proof

/-- `NCH` (R5): loadswitch channels and compatibility channels. -/
def Config.nch : Nat := 16
/-- `NDET` (R5): detector channels. -/
def Config.ndet : Nat := 64
/-- `HDR_LEN` (R5): the frame header's length. -/
def Config.hdrLen : Nat := 3
/-- `CTL` (R5): the SDLC control byte of every header. -/
def Config.ctl : Byte := 0x83
/-- `HEX_LEN` (R5): the length of the compatibility hex string. -/
def Config.hexLen : Nat := 30

/-- The six variable domains (R20). -/
inductive Domain where
  | cu | mmu | ioi | ioo | biu | bc
  deriving DecidableEq, Repr

/-- The three value types (R20). -/
inductive VarType where
  | b1 | u8 | u16
  deriving DecidableEq, Repr

/-- A variable identity `(dom, ty, idx)` (R20). -/
structure VarId where
  dom : Domain
  ty : VarType
  idx : Nat
  deriving DecidableEq, Repr

/-- The three element kinds (R86). -/
inductive ElemKind where
  | bit | byte | word
  deriving DecidableEq, Repr

/-- A frame element `(kind, id, pos)` (R86): `pos` is an absolute bit position for `bit` and an absolute byte position otherwise. -/
structure Element where
  kind : ElemKind
  id : VarId
  pos : Nat
  deriving DecidableEq, Repr

/-- The direction tags (R84). -/
inductive Direction where
  | cmdGenByPrimary | rspRcvdByPrimary | cmdRcvdBySecondary | rspGenBySecondary
  deriving DecidableEq, Repr

/-- A frame definition (R28). -/
structure FrameDef where
  addr : Byte
  type : Byte
  len : Nat
  dir : Direction
  elems : List Element
  deriving DecidableEq, Repr

/-- One family of the catalogue: the identities `(dom, ty, lo) .. (dom, ty, hi)`. -/
structure VarFamily where
  dom : Domain
  ty : VarType
  lo : Nat
  hi : Nat
  deriving DecidableEq, Repr

/-- The OPEN parameters of R5 (`VarCatalog`, `FrameTable` with its `FrameLen`, `ExtraPairs`, `DEFAULT_COMPAT`) and the OPEN fields
of R24 (the domains of the families it names). -/
structure Params where
  /-- `VarCatalog` (R5, R23, R24). -/
  catalog : List VarFamily
  /-- The domain of `LsGreenWalk` (R24: OPEN). -/
  lsGreenDom : Domain
  /-- The domain of `LsYellowPedClear` (R24: OPEN). -/
  lsYellowDom : Domain
  /-- The domain of `LsRedDontWalk` (R24: OPEN). -/
  lsRedDom : Domain
  /-- The domain of `LoadSwitchFlash` (R24: OPEN). -/
  flashDom : Domain
  /-- The domain of `DetCall` (R24: OPEN). -/
  detCallDom : Domain
  /-- The cell of the channel status of channel 14 (R24, R137: domain and index OPEN). -/
  chanStatus14 : VarId
  /-- The cell of ring 2's RedRest (R24, R137: domain and index OPEN). -/
  redRest2 : VarId
  /-- The family "signal phase states" (R24: every field OPEN). -/
  phaseStates : VarFamily
  /-- The family "BIU presence flags" (R24: every field OPEN). -/
  biuPresence : VarFamily
  /-- The families of the date/time broadcast contents (R24: every field OPEN; the values of one broadcast may differ in type). -/
  dateTime : List VarFamily
  /-- `FrameTable` (R5, R29, R85, R139): one definition for each type the block knows. -/
  frames : List FrameDef
  /-- `ExtraPairs` (R5, R30): further (command type, response type) pairs. -/
  extraPairs : List (Byte × Byte)
  /-- `DEFAULT_COMPAT` (R5, R155). -/
  defaultCompat : Bitset
  deriving DecidableEq, Repr

/-- The call that DET_CALL_OR writes where it is given another number of sensor results than R181 asks for: a free value, one for each such
operation (DESIGN CHOICE, note 12: R181 states no result there). It has no body, so nothing can be proved of what it is. -/
opaque Config.freeCall : Nat → Bool

/-- The configuration values the block reads at initialisation (R33), and the two answers of the environment that R222 asks for. -/
structure Cfg where
  /-- `CFG.COMPAT` (R33): absent, or a string of any length, as ASCII codes. -/
  compat : Option (List Byte)
  /-- `CFG.LSWIRE[c]`, c = 1..16 (R33): used only outside the block. -/
  lsWire : List (List Nat)
  /-- `CFG.DETWIRE[d]`, d = 1..64 (R33): its length is the operand count of R181. -/
  detWire : List (List Nat)
  /-- Step 2 of R222: the wiring lists can be applied in full. -/
  wiringOk : Bool
  /-- Step 4 of R222: the transport device opens and is configured. -/
  transportOpens : Bool
  deriving DecidableEq, Repr

end Sys2Proof
end

