-- ==== Sys2Proof/Syntax.lean ====
section
/-! DEFINITION. The instructions of the block: one constructor for each row of spec/opcode_table.json. A frame that the transport
delivers on the line port is an instruction of the line agent (R161, R167), each element descriptor is an instruction of the frame
operation that runs it (R120-R125), and each host-port operation is an instruction of the host agent that issues it (R94). -/

namespace Sys2Proof

/-- The buffers an element decode reads: the received frame or the caller's buffer (R50, R120). -/
inductive DecBuf where
  | rx | b
  deriving DecidableEq, Repr

/-- The buffers an element encode writes: the shared response buffer or the caller's buffer (R50, R121). -/
inductive EncBuf where
  | tx | b
  deriving DecidableEq, Repr

/-- The instructions. A frame of the line port is its station address, its control byte and its payload (R80); its type byte is
the constructor's own. -/
inductive Instr where
  /-- CMD_T0_LOADSWITCH_DRIVERS: the frame type 0x00, "loadswitch driver command" (R85, R161). -/
  | cmdT0 (addr ctl : Byte) (payload : List Byte)
  /-- CMD_T1_MMU_INPUT_STATUS_REQ: the frame type 0x01, "MMU input status request" (R85, R161). -/
  | cmdT1 (addr ctl : Byte) (payload : List Byte)
  /-- CMD_T3_MMU_PROGRAMMING_REQ: the frame type 0x03, "MMU programming request" (R85, R161). -/
  | cmdT3 (addr ctl : Byte) (payload : List Byte)
  /-- CMD_T9_DATE_TIME_BROADCAST: the frame type 0x09, "date/time broadcast" (R85, R161). -/
  | cmdT9 (addr ctl : Byte) (payload : List Byte)
  /-- CMD_T10_BIU: the frame type 0x0A, "BIU output/input frame (command)" (R85, R161). -/
  | cmdT10 (addr ctl : Byte) (payload : List Byte)
  /-- CMD_T11_BIU: the frame type 0x0B, "BIU output/input frame (command)" (R85, R161). -/
  | cmdT11 (addr ctl : Byte) (payload : List Byte)
  /-- CMD_T12_BIU: the frame type 0x0C, "BIU output/input frame (command)" (R85, R161). -/
  | cmdT12 (addr ctl : Byte) (payload : List Byte)
  /-- CMD_T13_BIU: the frame type 0x0D, "BIU output/input frame (command)" (R85, R161). -/
  | cmdT13 (addr ctl : Byte) (payload : List Byte)
  /-- CMD_T20_DET_BIU: the frame type 0x14, "detector BIU call/diagnostic frame (command)" (R85, R161). -/
  | cmdT20 (addr ctl : Byte) (payload : List Byte)
  /-- CMD_T21_DET_BIU: the frame type 0x15, "detector BIU call/diagnostic frame (command)" (R85, R161). -/
  | cmdT21 (addr ctl : Byte) (payload : List Byte)
  /-- CMD_T22_DET_BIU: the frame type 0x16, "detector BIU call/diagnostic frame (command)" (R85, R161). -/
  | cmdT22 (addr ctl : Byte) (payload : List Byte)
  /-- CMD_T23_DET_BIU: the frame type 0x17, "detector BIU call/diagnostic frame (command)" (R85, R161). -/
  | cmdT23 (addr ctl : Byte) (payload : List Byte)
  /-- CMD_T24_DET_BIU: the frame type 0x18, "detector BIU call/diagnostic frame (command)" (R85, R161). -/
  | cmdT24 (addr ctl : Byte) (payload : List Byte)
  /-- CMD_T25_DET_BIU: the frame type 0x19, "detector BIU call/diagnostic frame (command)" (R85, R161). -/
  | cmdT25 (addr ctl : Byte) (payload : List Byte)
  /-- CMD_T26_DET_BIU: the frame type 0x1A, "detector BIU call/diagnostic frame (command)" (R85, R161). -/
  | cmdT26 (addr ctl : Byte) (payload : List Byte)
  /-- CMD_T27_DET_BIU: the frame type 0x1B, "detector BIU call/diagnostic frame (command)" (R85, R161). -/
  | cmdT27 (addr ctl : Byte) (payload : List Byte)
  /-- RSP_T129_MMU_INPUT_STATUS: the frame type 0x81, "MMU input status response" (R85), arriving at the line port (R96). -/
  | rspT129 (addr ctl : Byte) (payload : List Byte)
  /-- RSP_T131_MMU_COMPATIBILITY: the frame type 0x83, "MMU channel-compatibility response" (R85), arriving at the line port (R96). -/
  | rspT131 (addr ctl : Byte) (payload : List Byte)
  /-- RSP_T138_BIU: the frame type 0x8A, "BIU output/input frame (response)" (R85), arriving at the line port (R96). -/
  | rspT138 (addr ctl : Byte) (payload : List Byte)
  /-- RSP_T139_BIU: the frame type 0x8B, "BIU output/input frame (response)" (R85), arriving at the line port (R96). -/
  | rspT139 (addr ctl : Byte) (payload : List Byte)
  /-- RSP_T140_BIU: the frame type 0x8C, "BIU output/input frame (response)" (R85), arriving at the line port (R96). -/
  | rspT140 (addr ctl : Byte) (payload : List Byte)
  /-- RSP_T141_BIU: the frame type 0x8D, "BIU output/input frame (response)" (R85), arriving at the line port (R96). -/
  | rspT141 (addr ctl : Byte) (payload : List Byte)
  /-- RSP_T148_DET_BIU: the frame type 0x94, "detector BIU call/diagnostic frame (response)" (R85), arriving at the line port (R96). -/
  | rspT148 (addr ctl : Byte) (payload : List Byte)
  /-- RSP_T149_DET_BIU: the frame type 0x95, "detector BIU call/diagnostic frame (response)" (R85), arriving at the line port (R96). -/
  | rspT149 (addr ctl : Byte) (payload : List Byte)
  /-- RSP_T150_DET_BIU: the frame type 0x96, "detector BIU call/diagnostic frame (response)" (R85), arriving at the line port (R96). -/
  | rspT150 (addr ctl : Byte) (payload : List Byte)
  /-- RSP_T151_DET_BIU: the frame type 0x97, "detector BIU call/diagnostic frame (response)" (R85), arriving at the line port (R96). -/
  | rspT151 (addr ctl : Byte) (payload : List Byte)
  /-- RSP_T152_DET_BIU: the frame type 0x98, "detector BIU call/diagnostic frame (response)" (R85), arriving at the line port (R96). -/
  | rspT152 (addr ctl : Byte) (payload : List Byte)
  /-- RSP_T153_DET_BIU: the frame type 0x99, "detector BIU call/diagnostic frame (response)" (R85), arriving at the line port (R96). -/
  | rspT153 (addr ctl : Byte) (payload : List Byte)
  /-- RSP_T154_DET_BIU: the frame type 0x9A, "detector BIU call/diagnostic frame (response)" (R85), arriving at the line port (R96). -/
  | rspT154 (addr ctl : Byte) (payload : List Byte)
  /-- RSP_T155_DET_BIU: the frame type 0x9B, "detector BIU call/diagnostic frame (response)" (R85), arriving at the line port (R96). -/
  | rspT155 (addr ctl : Byte) (payload : List Byte)
  /-- UNMATCHED_TYPE: a frame whose type byte is none of the table's (R95, R162). A type that `ExtraPairs` pairs has no row of its own and
  is carried here too (R30). -/
  | unmatchedType (addr ctl type : Byte) (payload : List Byte)
  /-- RUNT_FRAME: a received byte string of fewer than 3 bytes (R163). -/
  | runtFrame (bytes : List Byte)
  /-- BIT_DECODE (R120). -/
  | bitDecode (src : DecBuf) (id : VarId) (pos : Nat)
  /-- BIT_ENCODE (R121). -/
  | bitEncode (dst : EncBuf) (id : VarId) (pos : Nat)
  /-- BYTE_DECODE (R122). -/
  | byteDecode (src : DecBuf) (id : VarId) (pos : Nat)
  /-- BYTE_ENCODE (R123). -/
  | byteEncode (dst : EncBuf) (id : VarId) (pos : Nat)
  /-- WORD_DECODE (R124). -/
  | wordDecode (src : DecBuf) (id : VarId) (pos : Nat)
  /-- WORD_ENCODE (R125). -/
  | wordEncode (dst : EncBuf) (id : VarId) (pos : Nat)
  /-- GET (R110). -/
  | get (id : VarId)
  /-- SET (R111). -/
  | set (id : VarId) (v : Half)
  /-- FRAME_DECODE of the definition of type `t` on the bytes of the caller's buffer (R130). -/
  | frameDecode (t : Byte) (bytes : List Byte)
  /-- FRAME_ENCODE of the definition of type `t` into the caller's buffer (R131). -/
  | frameEncode (t : Byte)
  /-- DISPATCH from the host port (R161, R170). -/
  | dispatch (bytes : List Byte)
  /-- COMPAT_SET_BITSET (R151). -/
  | compatSetBitset (bits : Bitset)
  /-- COMPAT_GET_BITSET (R152). -/
  | compatGetBitset
  /-- COMPAT_SET_HEX, the string as ASCII codes, first character first (R153). -/
  | compatSetHex (str : List Byte)
  /-- COMPAT_ZERO (R154). -/
  | compatZero
  /-- COMPAT_DEFAULT (R155). -/
  | compatDefault
  /-- LS_INDICATION of channel `c` (R180). -/
  | lsIndication (c : Byte)
  /-- DET_CALL_OR of detector `d` (R181). -/
  | detCallOr (d : Byte) (results : List Bool)
  /-- CSR_WRITE of the register numbered `reg` (R168). -/
  | csrWrite (reg : Byte) (v : Byte)
  /-- CSR_READ of the register numbered `reg` (R172). -/
  | csrRead (reg : Byte)
  deriving DecidableEq, Repr

end Sys2Proof
end

