-- ==== Sys2Proof/WellFormed.lean ====
section
/-! DEFINITION. When an instruction is well-formed as SYNTAX: its operands fit the layouts of R86 and R101. What the block itself refuses
(an identity outside VarCatalog, a value outside its type, a wrong direction: R192) is refused by the meanings, not here. -/

namespace Sys2Proof

/-- The host-port layout of an identity gives its index two bytes (R6, R101). -/
def VarId.wf (id : VarId) : Bool := decide (id.idx < 65536)

/-- A `bit` element lies in the payload, names a `b1` variable (R58, R86, R87 `WF_KIND_TYPE`). -/
def bitOperandWf (id : VarId) (pos : Nat) : Bool := id.wf && decide (id.ty = .b1) && decide (8 * Config.hdrLen ≤ pos)
/-- A `byte` element lies in the payload, names a `u8` variable (R58, R86, R87 `WF_KIND_TYPE`). -/
def byteOperandWf (id : VarId) (pos : Nat) : Bool := id.wf && decide (id.ty = .u8) && decide (Config.hdrLen ≤ pos)
/-- A `word` element lies in the payload, names a `u16` variable (R58, R86, R87 `WF_KIND_TYPE`). -/
def wordOperandWf (id : VarId) (pos : Nat) : Bool := id.wf && decide (id.ty = .u16) && decide (Config.hdrLen ≤ pos)

/-- The frame types of the opcode table (R85): 16 command types and 14 response types. -/
def tableTypes : List Byte :=
  [0, 1, 3, 9, 10, 11, 12, 13, 20, 21, 22, 23, 24, 25, 26, 27,
   129, 131, 138, 139, 140, 141, 148, 149, 150, 151, 152, 153, 154, 155]

/-- Well-formed instructions: every operand fits the layout that encodes it. -/
def Instr.wf : Instr → Bool
  | .cmdT0 _ _ _ => true
  | .cmdT1 _ _ _ => true
  | .cmdT3 _ _ _ => true
  | .cmdT9 _ _ _ => true
  | .cmdT10 _ _ _ => true
  | .cmdT11 _ _ _ => true
  | .cmdT12 _ _ _ => true
  | .cmdT13 _ _ _ => true
  | .cmdT20 _ _ _ => true
  | .cmdT21 _ _ _ => true
  | .cmdT22 _ _ _ => true
  | .cmdT23 _ _ _ => true
  | .cmdT24 _ _ _ => true
  | .cmdT25 _ _ _ => true
  | .cmdT26 _ _ _ => true
  | .cmdT27 _ _ _ => true
  | .rspT129 _ _ _ => true
  | .rspT131 _ _ _ => true
  | .rspT138 _ _ _ => true
  | .rspT139 _ _ _ => true
  | .rspT140 _ _ _ => true
  | .rspT141 _ _ _ => true
  | .rspT148 _ _ _ => true
  | .rspT149 _ _ _ => true
  | .rspT150 _ _ _ => true
  | .rspT151 _ _ _ => true
  | .rspT152 _ _ _ => true
  | .rspT153 _ _ _ => true
  | .rspT154 _ _ _ => true
  | .rspT155 _ _ _ => true
  | .unmatchedType _ _ t _ => !tableTypes.contains t
  | .runtFrame bytes => decide (bytes.length < Config.hdrLen)
  | .bitDecode _ id pos => bitOperandWf id pos
  | .bitEncode _ id pos => bitOperandWf id pos
  | .byteDecode _ id pos => byteOperandWf id pos
  | .byteEncode _ id pos => byteOperandWf id pos
  | .wordDecode _ id pos => wordOperandWf id pos
  | .wordEncode _ id pos => wordOperandWf id pos
  | .get id => id.wf
  | .set id _ => id.wf
  | .frameDecode _ bytes => decide (bytes.length < 65536)
  | .frameEncode _ => true
  | .dispatch bytes => decide (bytes.length < 65536)
  | .compatSetBitset _ => true
  | .compatGetBitset => true
  | .compatSetHex str => decide (str.length < 256)
  | .compatZero => true
  | .compatDefault => true
  | .lsIndication _ => true
  | .detCallOr _ results => decide (results.length < 256)
  | .csrWrite _ _ => true
  | .csrRead _ => true

end Sys2Proof
end

