-- ==== Sys2Proof/Decode.lean ====
section
/-! DEFINITION. The decoder, total on any bytes, and after it the encoder. Three things carry instructions: the line port carries
frames (R80, R83), the host port carries an operation code and its operands (R94, R101), and the definition store carries element
descriptors (R86). -/

namespace Sys2Proof

/-- Why the decoder rejects what it is given. R94, R101 and R86 list all the codes there are; these are the ways to miss them. -/
inductive DecodeError where
  /-- No byte at all on the host port. -/
  | empty
  /-- The first byte is no operation code of R94. -/
  | unknownOperation (code : Byte)
  /-- The operands end before their layout does (R101). -/
  | truncated
  /-- Bytes follow the last operand (R101). -/
  | trailing
  /-- The domain code is none of 0..5 (R94). -/
  | badDomainCode (code : Byte)
  /-- The type code is none of 0..2 (R94). -/
  | badTypeCode (code : Byte)
  /-- A sensor result byte is neither 0x00 nor 0x01 (R101). -/
  | badSensorByte (v : Byte)
  /-- An element's kind code is none of 0..2 (R86). -/
  | badKindCode (code : Nat)
  deriving DecidableEq, Repr

/-! ## Codes (R94, R86) -/

/-- The domain codes: CU = 0, MMU = 1, IOI = 2, IOO = 3, BIU = 4, BC = 5 (R94). -/
def Domain.code : Domain → Nat
  | .cu => 0 | .mmu => 1 | .ioi => 2 | .ioo => 3 | .biu => 4 | .bc => 5

/-- The domain of a code (R94). -/
def domainOfCode (c : Byte) : Option Domain :=
  match c.toNat with
  | 0 => some .cu | 1 => some .mmu | 2 => some .ioi | 3 => some .ioo | 4 => some .biu | 5 => some .bc
  | _ => none

/-- The type codes: b1 = 0, u8 = 1, u16 = 2 (R94). -/
def VarType.code : VarType → Nat
  | .b1 => 0 | .u8 => 1 | .u16 => 2

/-- The type of a code (R94). -/
def varTypeOfCode (c : Byte) : Option VarType :=
  match c.toNat with
  | 0 => some .b1 | 1 => some .u8 | 2 => some .u16
  | _ => none

/-- The kind codes: Bit = 0, Byte = 1, Word = 2 (R86). -/
def ElemKind.code : ElemKind → Nat
  | .bit => 0 | .byte => 1 | .word => 2

/-! ## Byte strings -/

/-- The little-endian number of a byte string (R101). -/
def leNat : List Byte → Nat
  | [] => 0
  | x :: xs => x.toNat + 256 * leNat xs

/-- A number as `n` little-endian bytes (R101). -/
def leBytes : Nat → Nat → List Byte
  | 0, _ => []
  | n + 1, v => BitVec.ofNat 8 v :: leBytes n (v / 256)

/-- The first `n` bytes and the rest, where there are so many. -/
def takeBytes (n : Nat) (l : List Byte) : Option (List Byte × List Byte) :=
  if n ≤ l.length then some (l.take n, l.drop n) else none

/-- A string with a two-byte length before it (R101). -/
def takeString16 : List Byte → Option (List Byte × List Byte)
  | lo :: hi :: rest => takeBytes (leNat [lo, hi]) rest
  | _ => none

/-- A string with a one-byte length before it (R101). -/
def takeString8 : List Byte → Option (List Byte × List Byte)
  | n :: rest => takeBytes n.toNat rest
  | _ => none

/-- Sensor results: one byte each, 0x00 or 0x01 (R101). -/
def sensorResults : List Byte → Except DecodeError (List Bool)
  | [] => .ok []
  | x :: xs =>
    if x = 0 then (sensorResults xs).map (false :: ·)
    else if x = 1 then (sensorResults xs).map (true :: ·)
    else .error (.badSensorByte x)

/-- A sensor result as a byte (R101). -/
def sensorByte (r : Bool) : Byte := if r then 1 else 0

/-! ## The line port -/

/-- The instruction that a frame of at least three bytes is: the type byte selects it, all 8 bits of it (R82, R93). -/
def frameInstr (a c t : Byte) (p : List Byte) : Instr :=
  match t.toNat with
  | 0 => .cmdT0 a c p
  | 1 => .cmdT1 a c p
  | 3 => .cmdT3 a c p
  | 9 => .cmdT9 a c p
  | 10 => .cmdT10 a c p
  | 11 => .cmdT11 a c p
  | 12 => .cmdT12 a c p
  | 13 => .cmdT13 a c p
  | 20 => .cmdT20 a c p
  | 21 => .cmdT21 a c p
  | 22 => .cmdT22 a c p
  | 23 => .cmdT23 a c p
  | 24 => .cmdT24 a c p
  | 25 => .cmdT25 a c p
  | 26 => .cmdT26 a c p
  | 27 => .cmdT27 a c p
  | 129 => .rspT129 a c p
  | 131 => .rspT131 a c p
  | 138 => .rspT138 a c p
  | 139 => .rspT139 a c p
  | 140 => .rspT140 a c p
  | 141 => .rspT141 a c p
  | 148 => .rspT148 a c p
  | 149 => .rspT149 a c p
  | 150 => .rspT150 a c p
  | 151 => .rspT151 a c p
  | 152 => .rspT152 a c p
  | 153 => .rspT153 a c p
  | 154 => .rspT154 a c p
  | 155 => .rspT155 a c p
  | _ => .unmatchedType a c t p

/-- The instruction that a byte string delivered to the line port is (R80, R83, R163): every byte string is one. -/
def decodeLine : List Byte → Instr
  | a :: c :: t :: p => frameInstr a c t p
  | short => .runtFrame short

/-! ## The host port (R94, R101) -/

/-- An identity operand and the bytes after it: domain code, type code, `idx[7:0]`, `idx[15:8]` (R101). -/
def decodeId : List Byte → Except DecodeError (VarId × List Byte)
  | d :: t :: lo :: hi :: rest =>
    match domainOfCode d, varTypeOfCode t with
    | some dom, some ty => .ok (⟨dom, ty, leNat [lo, hi]⟩, rest)
    | none, _ => .error (.badDomainCode d)
    | some _, none => .error (.badTypeCode t)
  | _ => .error .truncated

/-- The operation that stands at the front of a byte string on the host port, and the bytes after it. -/
def decodeHostFront : List Byte → Except DecodeError (Instr × List Byte)
  | [] => .error .empty
  | code :: ops =>
    match code.toNat with
    | 0x01 =>
      match decodeId ops with
      | .ok (id, rest) => .ok (.get id, rest)
      | .error e => .error e
    | 0x02 =>
      match decodeId ops with
      | .ok (id, lo :: hi :: rest) => .ok (.set id (BitVec.ofNat 16 (leNat [lo, hi])), rest)
      | .ok (_, _) => .error .truncated
      | .error e => .error e
    | 0x03 =>
      match ops with
      | t :: ops' =>
        match takeString16 ops' with
        | some (bytes, rest) => .ok (.frameDecode t bytes, rest)
        | none => .error .truncated
      | [] => .error .truncated
    | 0x04 =>
      match ops with
      | t :: rest => .ok (.frameEncode t, rest)
      | [] => .error .truncated
    | 0x05 =>
      match takeString16 ops with
      | some (bytes, rest) => .ok (.dispatch bytes, rest)
      | none => .error .truncated
    | 0x10 =>
      match takeBytes 15 ops with
      | some (bytes, rest) => .ok (.compatSetBitset (BitVec.ofNat 120 (leNat bytes)), rest)
      | none => .error .truncated
    | 0x11 => .ok (.compatGetBitset, ops)
    | 0x12 =>
      match takeString8 ops with
      | some (str, rest) => .ok (.compatSetHex str, rest)
      | none => .error .truncated
    | 0x13 => .ok (.compatZero, ops)
    | 0x14 => .ok (.compatDefault, ops)
    | 0x20 =>
      match ops with
      | c :: rest => .ok (.lsIndication c, rest)
      | [] => .error .truncated
    | 0x21 =>
      match ops with
      | d :: ops' =>
        match takeString8 ops' with
        | some (bytes, rest) =>
          match sensorResults bytes with
          | .ok results => .ok (.detCallOr d results, rest)
          | .error e => .error e
        | none => .error .truncated
      | [] => .error .truncated
    | 0x30 =>
      match ops with
      | reg :: v :: rest => .ok (.csrWrite reg v, rest)
      | _ => .error .truncated
    | 0x31 =>
      match ops with
      | reg :: rest => .ok (.csrRead reg, rest)
      | [] => .error .truncated
    | _ => .error (.unknownOperation code)

/-- The operation that a byte string on the host port is: its code and its operands, and nothing after them (R100, R101). -/
def decodeHost (bytes : List Byte) : Except DecodeError Instr :=
  match decodeHostFront bytes with
  | .ok (i, []) => .ok i
  | .ok (_, _ :: _) => .error .trailing
  | .error e => .error e

/-! ## Element descriptors (R86) -/

/-- The instruction that a descriptor `(kind code, id, pos)` is where a frame is decoded from `src`. -/
def decodeDescriptor (src : DecBuf) (kindCode : Nat) (id : VarId) (pos : Nat) : Except DecodeError Instr :=
  match kindCode with
  | 0 => .ok (.bitDecode src id pos)
  | 1 => .ok (.byteDecode src id pos)
  | 2 => .ok (.wordDecode src id pos)
  | k => .error (.badKindCode k)

/-- The instruction that a descriptor `(kind code, id, pos)` is where a frame is encoded into `dst`. -/
def encodeDescriptor (dst : EncBuf) (kindCode : Nat) (id : VarId) (pos : Nat) : Except DecodeError Instr :=
  match kindCode with
  | 0 => .ok (.bitEncode dst id pos)
  | 1 => .ok (.byteEncode dst id pos)
  | 2 => .ok (.wordEncode dst id pos)
  | k => .error (.badKindCode k)

/-! ## All of them, and the encoder -/

/-- What carries an instruction to the agent that runs it. -/
inductive Encoded where
  /-- The bytes of a frame on the line port. -/
  | line (bytes : List Byte)
  /-- The bytes of an operation on the host port. -/
  | host (bytes : List Byte)
  /-- An element descriptor of a definition that is being decoded from `src`. -/
  | decElem (src : DecBuf) (kindCode : Nat) (id : VarId) (pos : Nat)
  /-- An element descriptor of a definition that is being encoded into `dst`. -/
  | encElem (dst : EncBuf) (kindCode : Nat) (id : VarId) (pos : Nat)
  deriving DecidableEq, Repr

/-- The decoder: total, rejecting by name. -/
def decode : Encoded → Except DecodeError Instr
  | .line bytes => .ok (decodeLine bytes)
  | .host bytes => decodeHost bytes
  | .decElem src k id pos => decodeDescriptor src k id pos
  | .encElem dst k id pos => encodeDescriptor dst k id pos

/-- The four bytes of an identity (R101). -/
def encodeId (id : VarId) : List Byte :=
  [BitVec.ofNat 8 id.dom.code, BitVec.ofNat 8 id.ty.code] ++ leBytes 2 id.idx

/-- The encoder, from the same tables: the frame's bytes (R80), the operation's code and operands (R94, R101) or the descriptor (R86). -/
def encode : Instr → Encoded
  | .cmdT0 a c p => .line (a :: c :: 0 :: p)
  | .cmdT1 a c p => .line (a :: c :: 1 :: p)
  | .cmdT3 a c p => .line (a :: c :: 3 :: p)
  | .cmdT9 a c p => .line (a :: c :: 9 :: p)
  | .cmdT10 a c p => .line (a :: c :: 10 :: p)
  | .cmdT11 a c p => .line (a :: c :: 11 :: p)
  | .cmdT12 a c p => .line (a :: c :: 12 :: p)
  | .cmdT13 a c p => .line (a :: c :: 13 :: p)
  | .cmdT20 a c p => .line (a :: c :: 20 :: p)
  | .cmdT21 a c p => .line (a :: c :: 21 :: p)
  | .cmdT22 a c p => .line (a :: c :: 22 :: p)
  | .cmdT23 a c p => .line (a :: c :: 23 :: p)
  | .cmdT24 a c p => .line (a :: c :: 24 :: p)
  | .cmdT25 a c p => .line (a :: c :: 25 :: p)
  | .cmdT26 a c p => .line (a :: c :: 26 :: p)
  | .cmdT27 a c p => .line (a :: c :: 27 :: p)
  | .rspT129 a c p => .line (a :: c :: 129 :: p)
  | .rspT131 a c p => .line (a :: c :: 131 :: p)
  | .rspT138 a c p => .line (a :: c :: 138 :: p)
  | .rspT139 a c p => .line (a :: c :: 139 :: p)
  | .rspT140 a c p => .line (a :: c :: 140 :: p)
  | .rspT141 a c p => .line (a :: c :: 141 :: p)
  | .rspT148 a c p => .line (a :: c :: 148 :: p)
  | .rspT149 a c p => .line (a :: c :: 149 :: p)
  | .rspT150 a c p => .line (a :: c :: 150 :: p)
  | .rspT151 a c p => .line (a :: c :: 151 :: p)
  | .rspT152 a c p => .line (a :: c :: 152 :: p)
  | .rspT153 a c p => .line (a :: c :: 153 :: p)
  | .rspT154 a c p => .line (a :: c :: 154 :: p)
  | .rspT155 a c p => .line (a :: c :: 155 :: p)
  | .unmatchedType a c t p => .line (a :: c :: t :: p)
  | .runtFrame bytes => .line bytes
  | .bitDecode src id pos => .decElem src 0 id pos
  | .bitEncode dst id pos => .encElem dst 0 id pos
  | .byteDecode src id pos => .decElem src 1 id pos
  | .byteEncode dst id pos => .encElem dst 1 id pos
  | .wordDecode src id pos => .decElem src 2 id pos
  | .wordEncode dst id pos => .encElem dst 2 id pos
  | .get id => .host (0x01 :: encodeId id)
  | .set id v => .host (0x02 :: (encodeId id ++ leBytes 2 v.toNat))
  | .frameDecode t bytes => .host (0x03 :: t :: (leBytes 2 bytes.length ++ bytes))
  | .frameEncode t => .host [0x04, t]
  | .dispatch bytes => .host (0x05 :: (leBytes 2 bytes.length ++ bytes))
  | .compatSetBitset bits => .host (0x10 :: leBytes 15 bits.toNat)
  | .compatGetBitset => .host [0x11]
  | .compatSetHex str => .host (0x12 :: (leBytes 1 str.length ++ str))
  | .compatZero => .host [0x13]
  | .compatDefault => .host [0x14]
  | .lsIndication c => .host [0x20, c]
  | .detCallOr d results => .host (0x21 :: d :: (leBytes 1 results.length ++ results.map sensorByte))
  | .csrWrite reg v => .host [0x30, reg, v]
  | .csrRead reg => .host [0x31, reg]

/-! ## The words of the opcode table -/

/-- The operation codes of R94. -/
def hostCodes : List Byte := [0x01, 0x02, 0x03, 0x04, 0x05, 0x10, 0x11, 0x12, 0x13, 0x14, 0x20, 0x21, 0x30, 0x31]

/-- The bytes of the table's number `w` of `nbits` bits, its least significant byte first. -/
def tableBytes (nbits w : Nat) : List Byte := leBytes ((nbits + 7) / 8) w

/-- What carries the instruction whose bits the opcode table numbers as `w`. The table's bits 7..0 are the match field of the row: byte 2 of
a frame, or byte 0 of a host-port operation. Where the two readings meet (0x01, 0x03, 0x14) the frame is meant, "the only binary
opcode" of the block (spec/30_encoding.md); every byte that the table gives no bits is 0, up to the longest frame of R5. -/
def tableEncoded (nbits w : Nat) : Encoded :=
  let bytes := tableBytes nbits w
  let front := BitVec.ofNat 8 w
  if !tableTypes.contains front && hostCodes.contains front then
    let zeros := 16 + w / 256 % 65536 + w / 65536 % 65536
    let padded := bytes ++ List.replicate zeros 0
    match decodeHostFront padded with
    | .ok (_, rest) => .host (padded.take (padded.length - rest.length))
    | .error _ => .host bytes
  else .line (0 :: 0 :: bytes ++ List.replicate (254 - bytes.length) 0)

/-- The instruction the decoder reads from an instruction whose bits the opcode table numbers as `w`. -/
def decodeTableWord (nbits w : Nat) : Option Instr := (decode (tableEncoded nbits w)).toOption

end Sys2Proof
end

