-- ==== Sys2Proof/Machine/Memory.lean ====
section
/-! DEFINITION. The variable table as a memory (R20-R23, R50 `VAR`): a list of (identity, value) pairs in one canonical form. An
unlisted cell reads as 0, the reset value of every cell (R40). The block has no other data memory (R27, R50). -/

namespace Sys2Proof.Machine

/-- The variable table's contents. -/
abbrev Memory := List (VarId × Half)

/-- The order of the canonical form: an injective number for every identity. -/
def varKey (id : VarId) : Nat := 18 * id.idx + 3 * id.dom.code + id.ty.code

/-- What a cell that nothing has written reads as: its reset value (R40, R110). -/
def unlistedValue : Half := 0

/-- `V[id]` (R10). -/
def Memory.get : Memory → VarId → Half
  | [], _ => unlistedValue
  | (k, w) :: rest, id => if k = id then w else Memory.get rest id

/-- `V[id] <- v` (R10), keeping the canonical form: writing the value an unlisted cell reads as removes the entry. -/
def Memory.set : Memory → VarId → Half → Memory
  | [], id, v => if v = unlistedValue then [] else [(id, v)]
  | (k, w) :: rest, id, v =>
    if varKey id < varKey k then
      if v = unlistedValue then (k, w) :: rest else (id, v) :: (k, w) :: rest
    else if k = id then
      if v = unlistedValue then rest else (id, v) :: rest
    else (k, w) :: Memory.set rest id v

/-- Every entry's key lies above `lo`, the keys rise strictly, and no entry is what an unlisted cell reads as. -/
def Memory.risesFrom : Nat → Memory → Bool
  | _, [] => true
  | lo, (k, w) :: rest => decide (lo ≤ varKey k) && decide (w ≠ unlistedValue) && Memory.risesFrom (varKey k + 1) rest

/-- The canonical form: identities strictly rising in `varKey`, and no entry equal to what an unlisted cell reads as. -/
def Memory.wf (m : Memory) : Bool := Memory.risesFrom 0 m

/-- The width of a variable type in bits (R6). -/
def typeWidth : VarType → Nat
  | .b1 => 1
  | .u8 => 8
  | .u16 => 16

/-- A value that a cell of type `ty` can hold (R21). -/
def valueFits (ty : VarType) (v : Half) : Bool := decide (v.toNat < 2 ^ typeWidth ty)

/-- Every listed value fits its cell's type (R21: "No other value can be stored"). -/
def Memory.typed (m : Memory) : Bool := m.all fun e => valueFits e.1.ty e.2

/-- The index of an `MMU.b1` identity whose high byte is not 0 is a channel pair's, `l·256 + r` with 1 ≤ l < r ≤ 16: there is no cell for
`l ≥ r`, nor for a channel out of range, whatever the catalogue lists (R20, R25, R26; note 22). -/
def pairIndexOk (id : VarId) : Bool :=
  decide (id.dom ≠ .mmu) || decide (id.ty ≠ .b1) || decide (id.idx < 256)
    || (decide (id.idx / 256 < id.idx % 256) && decide (id.idx % 256 ≤ Config.nch))

/-- The catalogue names a cell with this identity (R23, R25, R26). -/
def catalogHas (catalog : List VarFamily) (id : VarId) : Bool :=
  pairIndexOk id && catalog.any fun f =>
    decide (f.dom = id.dom) && decide (f.ty = id.ty) && decide (f.lo ≤ id.idx) && decide (id.idx ≤ f.hi)

/-- Every listed cell is one of the catalogue's (R23, R113). -/
def Memory.within (catalog : List VarFamily) (m : Memory) : Bool := m.all fun e => catalogHas catalog e.1

end Sys2Proof.Machine
end

