-- ==== Sys2Proof/Machine/Compat.lean ====
section
/-! DEFINITION. The arithmetic of the channel-compatibility packer: pairs, cells, linear offsets and the hex string (R25, R91, R92,
R150, R153). -/

namespace Sys2Proof.Machine

/-- The 120 pairs (l, r), 1 ≤ l < r ≤ 16, in the order of the packer's loops (R25, R151). -/
def compatPairs : List (Nat × Nat) :=
  (List.range 15).flatMap fun i => (List.range (15 - i)).map fun j => (i + 1, i + 2 + j)

/-- The cell of the pair (l, r): `MMU.b1[l·256 + r]` (R25, R91). -/
def compatId (l r : Nat) : VarId := ⟨.mmu, .b1, l * 256 + r⟩

/-- The linear offset of the pair (l, r), in the closed form of R150. -/
def compatOff (l r : Nat) : Nat := (l - 1) * 16 - (l - 1) * l / 2 + (r - l - 1)

/-- The 4-bit value of a hex character given by its ASCII code; both cases of letters (R92). -/
def hexDigit (c : Byte) : Option Nat :=
  let n := c.toNat
  if 48 ≤ n ∧ n ≤ 57 then some (n - 48)
  else if 65 ≤ n ∧ n ≤ 70 then some (n - 55)
  else if 97 ≤ n ∧ n ≤ 102 then some (n - 87)
  else none

/-- The values of the characters of a string, where all of them are hex characters. -/
def hexNibbles : List Byte → Option (List Nat)
  | [] => some []
  | c :: cs =>
    match hexDigit c, hexNibbles cs with
    | some d, some ds => some (d :: ds)
    | _, _ => none

/-- `N`: the number whose most significant nibble comes first (R55, R153). -/
def nibblesNumber (ds : List Nat) : Nat := ds.foldl (fun n d => n * 16 + d) 0

/-- The bitset of a compatibility string; none where it is not exactly 30 hex characters (R153): bit `k` of the bitset is bit `k` of
`N` (R55). -/
def hexBitset (str : List Byte) : Option Bitset :=
  if str.length = Config.hexLen then (hexNibbles str).map fun ds => BitVec.ofNat 120 (nibblesNumber ds) else none

end Sys2Proof.Machine
end

