-- ==== Sys2Proof/Machine/Operands.lean ====
section
/-! DEFINITION. The operand forms: bits, bytes and words of a frame buffer (R52, R53, R88-R90), what an element decodes from a buffer and
encodes into one (R120-R125), and the frame header (R80, R131). All of it is over plain byte strings. -/

namespace Sys2Proof.Machine

/-! ## Buffer operands -/

/-- `MemRead(S:a, 1)` (R10). -/
def byteAt (buf : List Byte) (a : Nat) : Byte := buf.getD a 0

/-- `MemWrite(S:a, 1, v)` (R10). -/
def putByte (buf : List Byte) (a : Nat) (v : Byte) : List Byte := buf.set a v

/-- A bit operand: bit `p mod 8` of byte `p div 8` (R52, R88). -/
def bitAt (buf : List Byte) (p : Nat) : Bool := (byteAt buf (p / 8)).getLsbD (p % 8)

/-- A word operand, little-endian: `zext_16(S[pos]) | (zext_16(S[pos+1]) << 8)` (R53, R90). -/
def wordAt (buf : List Byte) (pos : Nat) : Half :=
  (byteAt buf pos).setWidth 16 ||| ((byteAt buf (pos + 1)).setWidth 16 <<< 8)

/-- ORs a bit into a byte of a buffer: it can set the bit and never clears one (R121, spec/90_conflicts.md C4). -/
def orBit (buf : List Byte) (p : Nat) (v : Bool) : List Byte :=
  putByte buf (p / 8) (byteAt buf (p / 8) ||| ((BitVec.ofBool v).setWidth 8 <<< (p % 8)))

/-- Stores a word little-endian: `v[7:0]` at `pos`, then `v[15:8]` at `pos + 1` (R53, R125). -/
def putWord (buf : List Byte) (pos : Nat) (v : Half) : List Byte :=
  putByte (putByte buf pos (v.setWidth 8)) (pos + 1) ((v >>> 8).setWidth 8)

/-- The value of a `b1` cell as a bit. -/
def halfOfBit (v : Bool) : Half := (BitVec.ofBool v).setWidth 16

/-! ## Elements over a buffer -/

/-- The value an element decode stores: a bit, a byte "verbatim", or a little-endian word (R120, R122, R124). -/
def elementValue (buf : List Byte) (e : Element) : Half :=
  match e.kind with
  | .bit => halfOfBit (bitAt buf e.pos)
  | .byte => (byteAt buf e.pos).setWidth 16
  | .word => wordAt buf e.pos

/-- What an element encode makes of a buffer, given its cell's value: a bit is ORed in (R121), a byte and a word are assigned (R123,
R125). -/
def elementPut (buf : List Byte) (e : Element) (v : Half) : List Byte :=
  match e.kind with
  | .bit => orBit buf e.pos (v.getLsbD 0)
  | .byte => putByte buf e.pos (v.setWidth 8)
  | .word => putWord buf e.pos v

/-- The first byte an element covers. -/
def elementFirstByte (e : Element) : Nat :=
  match e.kind with
  | .bit => e.pos / 8
  | .byte => e.pos
  | .word => e.pos

/-- The last byte an element covers. -/
def elementLastByte (e : Element) : Nat :=
  match e.kind with
  | .bit => e.pos / 8
  | .byte => e.pos
  | .word => e.pos + 1

/-- The buffer bit `p` is one the element covers. -/
def elementCovers (e : Element) (p : Nat) : Bool :=
  match e.kind with
  | .bit => decide (p = e.pos)
  | .byte => decide (p / 8 = e.pos)
  | .word => decide (p / 8 = e.pos) || decide (p / 8 = e.pos + 1)

/-- The bounds of an element in a frame of `len` bytes: inside the payload (R58). -/
def elementInBounds (len : Nat) (e : Element) : Bool :=
  match e.kind with
  | .bit => decide (8 * Config.hdrLen ≤ e.pos) && decide (e.pos < 8 * len)
  | .byte => decide (Config.hdrLen ≤ e.pos) && decide (e.pos < len)
  | .word => decide (Config.hdrLen ≤ e.pos) && decide (e.pos + 1 < len)

/-- The variable type an element's kind carries (R86). -/
def kindType : ElemKind → VarType
  | .bit => .b1
  | .byte => .u8
  | .word => .u16

/-! ## The frame header -/

/-- Zero-fills the first `len` bytes of a buffer and writes the header `addr, 0x83, type` into it; bytes at and beyond `len` keep
their contents (R31, R81, R131). -/
def fillFrame (buf : List Byte) (addr type : Byte) (len : Nat) : List Byte :=
  putByte (putByte (putByte (List.replicate (min len buf.length) 0 ++ buf.drop len) 0 addr) 1 Config.ctl) 2 type

/-- Runs element decodes in declaration order from a buffer into a table (R130, R126). -/
def decodeElements (buf : List Byte) (es : List Element) (m : Memory) : Memory :=
  es.foldl (fun m e => m.set e.id (elementValue buf e)) m

/-- Runs element encodes in declaration order from a table into a buffer (R131). -/
def encodeElements (m : Memory) (es : List Element) (buf : List Byte) : List Byte :=
  es.foldl (fun b e => elementPut b e (m.get e.id)) buf

/-- FRAME_ENCODE as a function of the table and the buffer (R131). -/
def encodeFrame (m : Memory) (d : FrameDef) (buf : List Byte) : List Byte :=
  encodeElements m d.elems (fillFrame buf d.addr d.type d.len)

end Sys2Proof.Machine
end

