-- ==== Sys2Proof/Machine/Definitions.lean ====
section
/-! DEFINITION. The definition store and the dispatch table as read from the parameters (R28-R30, R160), the checks a definition must
pass (R58, R87), and the constraints that every value of the OPEN parameters meets (R5, R24, R85, R134-R137). -/

namespace Sys2Proof.Machine

/-! ## The catalogue and the families (R23, R24) -/

/-- `id` is in `VarCatalog` (R23, R25, R26). -/
def inCatalog (p : Params) (id : VarId) : Bool := catalogHas p.catalog id

/-- `LsGreenWalk[c]` (R24). -/
def lsGreenId (p : Params) (c : Nat) : VarId := ⟨p.lsGreenDom, .b1, c⟩
/-- `LsYellowPedClear[c]` (R24). -/
def lsYellowId (p : Params) (c : Nat) : VarId := ⟨p.lsYellowDom, .b1, c⟩
/-- `LsRedDontWalk[c]` (R24). -/
def lsRedId (p : Params) (c : Nat) : VarId := ⟨p.lsRedDom, .b1, c⟩
/-- `LoadSwitchFlash` (R24). -/
def flashId (p : Params) : VarId := ⟨p.flashDom, .b1, 0⟩
/-- `DetCall[d]` (R24). -/
def detCallId (p : Params) (d : Nat) : VarId := ⟨p.detCallDom, .b1, d⟩

/-- The cells that the packer and the adapter functions are bound to, the 120 pairs, the three drivers of each channel and the call of each
detector, are all in `VarCatalog` (R26: "adapter binding"). -/
def bindingsHeld (p : Params) : Bool :=
  (compatPairs.all fun q => inCatalog p (compatId q.1 q.2))
  && ((List.range Config.nch).all fun c =>
        inCatalog p (lsGreenId p (c + 1)) && inCatalog p (lsYellowId p (c + 1)) && inCatalog p (lsRedId p (c + 1)))
  && ((List.range Config.ndet).all fun d => inCatalog p (detCallId p (d + 1)))

/-! ## Lookups (R29, R30, R160) -/

/-- The definition of type `t` (R82: one for each type the block knows). -/
def frameOf (p : Params) (t : Byte) : Option FrameDef := p.frames.find? fun d => decide (d.type = t)

/-- The 14 pairs of R30, as (command type, response type). -/
def basePairs : List (Byte × Byte) :=
  [(1, 129), (3, 131), (10, 138), (11, 139), (12, 140), (13, 141),
   (20, 148), (21, 149), (22, 150), (23, 151), (24, 152), (25, 153), (26, 154), (27, 155)]

/-- The dispatch table: the 14 pairs, then `ExtraPairs` (R30). -/
def dispatchTable (p : Params) : List (Byte × Byte) := basePairs ++ p.extraPairs

/-- The (command, response) pair of definitions that type byte `t` selects (R93, R160). -/
def pairOf (p : Params) (t : Byte) : Option (FrameDef × FrameDef) :=
  match (dispatchTable p).find? fun q => decide (q.1 = t) with
  | none => none
  | some q =>
    match frameOf p q.1, frameOf p q.2 with
    | some c, some r => some (c, r)
    | _, _ => none

/-- A received direction supports decode (R132). -/
def isReceived : Direction → Bool
  | .cmdRcvdBySecondary => true
  | .rspRcvdByPrimary => true
  | .cmdGenByPrimary => false
  | .rspGenBySecondary => false

/-- A generated direction supports encode (R132). -/
def isGenerated (d : Direction) : Bool := !isReceived d

/-- `RESP_BUF_LEN`: the maximum length of a response definition (R5, R31). -/
def respBufLen (p : Params) : Nat :=
  p.frames.foldl (fun n d => if d.dir = .rspGenBySecondary then max n d.len else n) 0

/-! ## The checks of R87 -/

/-- The named checks a definition or the dispatch table can fail (R87). `WF_DIR` is a check on a use (R132), not on a definition. -/
inductive WfCheck where
  | len | bounds | kindType | id | unique | pair
  deriving DecidableEq, Repr

/-- `FrameLen(t)` where the spec gives it (R5, R85). -/
def fixedFrameLen (t : Byte) : Option Nat :=
  if t = 0 then some 16
  else if t = 1 then some 3
  else if t = 3 then some 3
  else if t = 9 then some 12
  else if t = 131 then some 23
  else none

/-- `WF_LEN`: at least a header, and `FrameLen(type)`: the length R5 gives, or else an OPEN one of at most 256 bytes (R5, R87). -/
def wfLen (d : FrameDef) : Bool :=
  decide (Config.hdrLen ≤ d.len) && decide (d.len ≤ 256)
    && match fixedFrameLen d.type with
      | some n => decide (d.len = n)
      | none => true
/-- `WF_BOUNDS` (R58). -/
def wfBounds (d : FrameDef) : Bool := d.elems.all fun e => elementInBounds d.len e
/-- `WF_KIND_TYPE` (R86). -/
def wfKindType (d : FrameDef) : Bool := d.elems.all fun e => decide (e.id.ty = kindType e.kind)
/-- `WF_ID` (R26), with the bound of R6 on indices. -/
def wfId (p : Params) (d : FrameDef) : Bool := d.elems.all fun e => e.id.wf && inCatalog p e.id

/-- `WF_UNIQUE`: the command types of the dispatch table are pairwise distinct (R87), and so are the types of the definition store (R82). -/
def wfUnique (p : Params) : Bool :=
  decide (((dispatchTable p).map (·.1)).Nodup) && decide ((p.frames.map (·.type)).Nodup)

/-- `WF_PAIR` of one pair: both definitions stand in the store, the directions are a command's and a response's, and the response type
is 128 above the command type (R87). -/
def wfPair (p : Params) (q : Byte × Byte) : Bool :=
  match frameOf p q.1, frameOf p q.2 with
  | some c, some r =>
    decide (c.dir = .cmdRcvdBySecondary) && decide (r.dir = .rspGenBySecondary) && decide (q.2.toNat = q.1.toNat + 128)
  | _, _ => false

/-- The first check of R87 that the parameters fail, if they fail one. -/
def failedCheck (p : Params) : Option WfCheck :=
  if !p.frames.all wfLen then some .len
  else if !p.frames.all wfBounds then some .bounds
  else if !p.frames.all wfKindType then some .kindType
  else if !p.frames.all (wfId p) then some .id
  else if !wfUnique p then some .unique
  else if !(dispatchTable p).all (wfPair p) then some .pair
  else none

/-- The definitions and the dispatch table are well-formed (R87). -/
def paramsWf (p : Params) : Bool := decide (failedCheck p = none)

/-! ## The constraints on the OPEN parameters -/

/-- A family that has a cell, and whose cells are all in `VarCatalog`. -/
def familyHeld (p : Params) (f : VarFamily) : Bool :=
  decide (f.lo ≤ f.hi) && (List.range (f.hi + 1 - f.lo)).all fun i => inCatalog p ⟨f.dom, f.ty, f.lo + i⟩

/-- `id` is a driver's or a detector call's cell. -/
def inAdapterFamily (p : Params) (id : VarId) : Bool :=
  decide (id.ty = .b1) && decide (1 ≤ id.idx)
    && ((decide (id.idx ≤ Config.nch)
          && (decide (id.dom = p.lsGreenDom) || decide (id.dom = p.lsYellowDom) || decide (id.dom = p.lsRedDom)))
        || (decide (id.idx ≤ Config.ndet) && decide (id.dom = p.detCallDom)))

/-- The named cells of R24 are different cells: the three drivers of a channel and a detector's call differ in their domain, and the channel
status and RedRest cells are neither of them, nor the flash cell, nor a pair's (R20, R22; note 22). -/
def familiesDistinct (p : Params) : Bool :=
  decide ([p.lsGreenDom, p.lsYellowDom, p.lsRedDom, p.detCallDom].Nodup)
    && decide ([flashId p, p.chanStatus14, p.redRest2].Nodup)
    && [p.chanStatus14, p.redRest2].all fun id =>
        !inAdapterFamily p id && !(decide (id.dom = .mmu) && decide (256 ≤ id.idx))

/-- `VarCatalog` holds the families of R24, and every index is below 65536 (R6). -/
def catalogHoldsFamilies (p : Params) : Bool :=
  bindingsHeld p
  && inCatalog p (flashId p)
  && inCatalog p p.chanStatus14 && decide (p.chanStatus14.ty = .b1)
  && inCatalog p p.redRest2 && decide (p.redRest2.ty = .b1)
  && familyHeld p p.phaseStates && familyHeld p p.biuPresence
  && decide (p.dateTime ≠ []) && p.dateTime.all (familyHeld p)
  && familiesDistinct p
  && p.catalog.all fun f => decide (f.hi < 65536)

/-- A row of R85: the definition of type `t` has this direction, and its length and station address are the given ones where R85 gives
them. -/
def frameRow (p : Params) (t : Byte) (dir : Direction) (len : Option Nat) (addrOk : Byte → Bool) : Bool :=
  match frameOf p t with
  | some d => decide (d.dir = dir) && (match len with | some n => decide (d.len = n) | none => true) && addrOk d.addr
  | none => false

/-- The MMU's station address (R63, R85). -/
def isMmuAddr (a : Byte) : Bool := decide (a = 0x10)
/-- A BIU's station address (R63, R85). -/
def isBiuAddr (a : Byte) : Bool := decide (a.toNat ≤ 0x0B)

/-- The rows of R85. -/
def frameCatalogue (p : Params) : Bool :=
  frameRow p 0 .cmdRcvdBySecondary (some 16) isMmuAddr
  && frameRow p 1 .cmdRcvdBySecondary (some 3) isMmuAddr
  && frameRow p 3 .cmdRcvdBySecondary (some 3) isMmuAddr
  && frameRow p 9 .cmdRcvdBySecondary (some 12) (fun _ => true)
  && ([10, 11, 12, 13, 20, 21, 22, 23, 24, 25, 26, 27].all fun t => frameRow p t .cmdRcvdBySecondary none isBiuAddr)
  && frameRow p 129 .rspGenBySecondary none isMmuAddr
  && frameRow p 131 .rspGenBySecondary (some 23) isMmuAddr
  && ([138, 139, 140, 141, 148, 149, 150, 151, 152, 153, 154, 155].all fun t => frameRow p t .rspGenBySecondary none isBiuAddr)

/-- The type-0 fixture `F0` in the reading of R134 (spec/90_conflicts.md C1). -/
def fixtureF0 : List Byte := [0x10, 0x83, 0x00, 0xC3, 0, 0, 0, 0, 0, 0, 0, 0, 0, 0, 0, 0x80]

/-- The bit positions of a definition's elements that name `id`, in declaration order. -/
def bitPositionsOf (d : FrameDef) (id : VarId) : List Nat :=
  (d.elems.filter fun e => decide (e.kind = .bit) && decide (e.id = id)).map (·.pos)

/-- The constraint of R134 on the type-0 layout: each driver of each channel is bound by two bits at two positions (R127), the flash cell is bound, and
decoding `F0` leaves flash and the green drivers of channels 1 and 4 on and every other `b1` cell of the layout off. -/
def type0Layout (p : Params) : Bool :=
  match frameOf p 0 with
  | none => false
  | some d =>
    let after := decodeElements fixtureF0 d.elems []
    ((List.range Config.nch).all fun c =>
      [lsGreenId p (c + 1), lsYellowId p (c + 1), lsRedId p (c + 1)].all fun id =>
        decide ((bitPositionsOf d id).length = 2) && decide (bitPositionsOf d id).Nodup)
    && (d.elems.any fun e => decide (e.kind = .bit) && decide (e.id = flashId p))
    && d.elems.all fun e => e.id.ty != .b1 ||
        decide (after.get e.id =
          if e.id = flashId p ∨ e.id = lsGreenId p 1 ∨ e.id = lsGreenId p 4 then 1 else 0)

/-- The constraint of R135 on the type-131 layout: pair (1,2) is bit 24, and with that pair on and every other cell 0, byte 3 is 0x01. -/
def type131Layout (p : Params) : Bool :=
  match frameOf p 131 with
  | none => false
  | some d =>
    d.elems.contains ⟨.bit, compatId 1 2, 24⟩
    && decide (byteAt (encodeFrame [(compatId 1 2, 1)] d (List.replicate d.len 0)) 3 = 1)

/-- Two bit elements at one position, one of them naming `id` (R99, R137). -/
def duplicateBit (p : Params) (t : Byte) (id : VarId) : Bool :=
  match frameOf p t with
  | none => false
  | some d => d.elems.any fun e =>
      decide (e.kind = .bit) && decide (e.id = id)
      && decide (2 ≤ d.elems.countP fun e' => decide (e'.kind = .bit) && decide (e'.pos = e.pos))

/-- `ExtraPairs` pairs no command type of the 14 (R5, R30: with `WF_UNIQUE`), and the other stated constraints on the OPEN parameters
hold (R24, R85, R134, R135, R137). -/
def paramsAdmissible (p : Params) : Bool :=
  paramsWf p && catalogHoldsFamilies p && frameCatalogue p && type0Layout p && type131Layout p
  && duplicateBit p 129 p.chanStatus14 && duplicateBit p 140 p.redRest2

end Sys2Proof.Machine
end

