-- ==== Sys2Proof/Machine/Instance.lean ====
section
/-! DEFINITION. One admissible value of the OPEN parameters and of the configuration, for State.reset alone (DESIGN CHOICE, unsafe: notes 1
and 2). No rule of the block depends on it, and no statement rests on it: statements hold for every value of `State.params` and
`State.cfg`. -/

namespace Sys2Proof.Machine

/-- A bit element. -/
def bitElem (id : VarId) (pos : Nat) : Element := ⟨.bit, id, pos⟩

/-- The two bits of one dimming pair, at `pos` and `pos + 1` (R127). -/
def dimmingPair (id : VarId) (pos : Nat) : List Element := [bitElem id pos, bitElem id (pos + 1)]

/-- Type 0 of the instance: two bits for each driver from position 24 on, green, yellow, red; the flash bit at 127. -/
def instanceType0 : List Element :=
  ((List.range 16).flatMap fun c => dimmingPair ⟨.cu, .b1, c + 1⟩ (24 + 2 * c))
  ++ ((List.range 16).flatMap fun c => dimmingPair ⟨.ioo, .b1, c + 1⟩ (56 + 2 * c))
  ++ ((List.range 16).flatMap fun c => dimmingPair ⟨.bc, .b1, c + 1⟩ (88 + 2 * c))
  ++ [bitElem ⟨.cu, .b1, 0⟩ 127]

/-- A header-only command of the instance. -/
def instanceCommand (addr t : Byte) : FrameDef := ⟨addr, t, 3, .cmdRcvdBySecondary, []⟩
/-- A header-only response of the instance. -/
def instanceResponse (addr t : Byte) : FrameDef := ⟨addr, t, 3, .rspGenBySecondary, []⟩

/-- The definition store of the instance: what R85 and R134-R137 state, and nothing more. -/
def instanceFrames : List FrameDef :=
  [⟨0x10, 0, 16, .cmdRcvdBySecondary, instanceType0⟩, instanceCommand 0x10 1, instanceCommand 0x10 3,
   ⟨0xFF, 9, 12, .cmdRcvdBySecondary, []⟩]
  ++ [10, 11, 12, 13, 20, 21, 22, 23, 24, 25, 26, 27].map (instanceCommand 0)
  ++ [⟨0x10, 129, 4, .rspGenBySecondary, [bitElem ⟨.mmu, .b1, 14⟩ 24, bitElem ⟨.mmu, .b1, 13⟩ 24]⟩,
      ⟨0x10, 131, 23, .rspGenBySecondary, [bitElem (compatId 1 2) 24]⟩]
  ++ [138, 139].map (instanceResponse 0)
  ++ [⟨0, 140, 4, .rspGenBySecondary, [bitElem ⟨.cu, .b1, 102⟩ 24, bitElem ⟨.cu, .b1, 101⟩ 24]⟩]
  ++ [141, 148, 149, 150, 151, 152, 153, 154, 155].map (instanceResponse 0)

/-- The catalogue of the instance: the families of R24, and nothing more. -/
def instanceCatalog : List VarFamily :=
  ((List.range 15).map fun i => ⟨.mmu, .b1, (i + 1) * 256 + (i + 2), (i + 1) * 256 + 16⟩)
  ++ [⟨.cu, .b1, 0, 16⟩, ⟨.ioo, .b1, 1, 16⟩, ⟨.bc, .b1, 1, 16⟩, ⟨.biu, .b1, 1, 64⟩, ⟨.mmu, .b1, 1, 16⟩, ⟨.cu, .b1, 101, 102⟩,
      ⟨.cu, .u8, 1, 16⟩, ⟨.biu, .b1, 101, 112⟩, ⟨.bc, .u8, 1, 9⟩]

/-- The OPEN parameters at State.reset (DESIGN CHOICE, unsafe: note 1). -/
def instanceParams : Params where
  catalog := instanceCatalog
  lsGreenDom := .cu
  lsYellowDom := .ioo
  lsRedDom := .bc
  flashDom := .cu
  detCallDom := .biu
  chanStatus14 := ⟨.mmu, .b1, 14⟩
  redRest2 := ⟨.cu, .b1, 102⟩
  phaseStates := ⟨.cu, .u8, 1, 16⟩
  biuPresence := ⟨.biu, .b1, 101, 112⟩
  dateTime := [⟨.bc, .u8, 1, 9⟩]
  frames := instanceFrames
  extraPairs := []
  defaultCompat := 0

/-- The configuration at State.reset: no compatibility string, sensors at detectors 7 (two) and 64 (one) as program P4 and vectors WA2 and WA5
of spec/95_test_vectors.md use them, a transport that opens (DESIGN CHOICE, unsafe: note 2). -/
def instanceCfg : Cfg where
  compat := none
  lsWire := List.replicate 16 []
  detWire := List.replicate 6 [] ++ [[0, 1]] ++ List.replicate 56 [] ++ [[2]]
  wiringOk := true
  transportOpens := true

end Sys2Proof.Machine
end

