-- ==== Sys2Proof/Machine/State.lean ====
section
/-! DEFINITION. The state of the block and its agents, the faults and the refusals, and the state after reset. Every piece of state
the spec names is a field; the fields of the model's own are marked so (INVENTORY.md, State). -/

namespace Sys2Proof.Machine

/-- The faults of R191. Each is raised by an operation (Ops.lean, raiseFault), which latches it in `State.fault`; the step after that
answers it (R194: "no agent has a step"). Safe: the model stops where the document gives no behaviour. -/
inductive Fault where
  /-- FCODE 1: DISPATCH or FRAME_DECODE of a byte string of `n < 3` bytes (R163). Safe. -/
  | runtFrame (n : Nat)
  /-- FCODE 2: DISPATCH or FRAME_DECODE of `n` bytes, fewer than the definition of type `t` declares (R163). Safe. -/
  | shortFrame (t : Byte) (n : Nat)
  /-- FCODE 3: a DISPATCH while another one may run (R170). Safe. -/
  | concurrentDispatch
  /-- FCODE 4: CTRL.EN set 0 to 1 before the previous line agent has stopped (R168). Safe. -/
  | restartRace
  deriving DecidableEq, Repr

/-- The refusals: what R192 says is "not admitted", never a fault and never a value. All of them are safe. -/
inductive Refusal where
  /-- GET, SET or an adapter binding of an identity outside `VarCatalog` (R26, R192). -/
  | badId
  /-- SET of a value outside its type's range (R111, R192). -/
  | badValue
  /-- A decode of a generated definition or an encode of a received one (R132, R192). -/
  | badDirection
  /-- A definition or an element that fails a check of R87 (R192). -/
  | badElement (check : WfCheck)
  /-- A FRAME_ENCODE buffer whose length is not the definition's (R131, R192). -/
  | badBuffer
  /-- CSR_READ of a register other than 0 and 1, or CSR_WRITE of a register other than 0 (R168, R172, R192). -/
  | badRegister
  /-- LS_INDICATION of a channel outside 1..16 or DET_CALL_OR of a detector outside 1..64 (R180, R181, R192). -/
  | badOperand
  /-- FRAME_DECODE or FRAME_ENCODE of a type no definition has: R130 and R131 take a definition (DEDUCED, note 6). -/
  | noDefinition
  /-- The host port carries no operation of R94 in the layout of R101. -/
  | badEncoding (e : DecodeError)
  /-- An instruction with no meaning yet. -/
  | notModelled (mnemonic : String)
  deriving DecidableEq, Repr

/-- The agents that take steps: the line agent and any number of host agents (R8). -/
inductive Agent where
  | line
  | host (n : Nat)
  deriving DecidableEq, Repr

/-- The line agent's position (R37). -/
inductive LoopState where
  | stopped | reading | dispatching | writing
  deriving DecidableEq, Repr

/-- How far initialisation has come (R222): not yet run, ended well, or ended by INIT_ABORTED. -/
inductive BootPhase where
  | pending | done | aborted
  deriving DecidableEq, Repr

/-- The indications of R180. -/
inductive Indication where
  | blank | green | yellow | red
  deriving DecidableEq, Repr

/-- The transport's two operations (R10, R171). -/
inductive TransportOp where
  | read | write
  deriving DecidableEq, Repr

/-- What an operation returns to the agent that issued it: its status (R190) and its result. -/
inductive Reply where
  /-- `OK` with no result. -/
  | ok
  /-- The value of GET (R110). -/
  | value (v : Half)
  /-- The frame FRAME_ENCODE built in the caller's buffer (R131). -/
  | frame (bytes : List Byte)
  /-- The `matched` result of DISPATCH and the length of `resp`, which is a view of TX (R161, R164); not matched is `NOMATCH`. -/
  | dispatched (isMatched : Bool) (len : Nat)
  /-- The bitset of COMPAT_GET_BITSET (R152). -/
  | bitset (bits : Bitset)
  /-- The indication of LS_INDICATION (R180). -/
  | indication (i : Indication)
  /-- The register of CSR_READ (R172). -/
  | register (v : Byte)
  /-- `HEX_REJECT` (R153). -/
  | hexReject
  /-- `NOT_READY` (R168). -/
  | notReady
  deriving DecidableEq, Repr

/-- The status events the line agent records (R171, R190). -/
inductive LineEvent where
  /-- A frame was matched and its response handed to the transport: `OK`. -/
  | served
  /-- A frame was unmatched: `NOMATCH` (R162). -/
  | noMatch
  /-- `TRANSPORT_ERROR(op, code)` (R171). -/
  | transportError (op : TransportOp) (code : Nat)
  deriving DecidableEq, Repr

/-- One single-variable step of an operation that touches several variables (R7, R38), or the zero-fill that begins an encode. -/
inductive Micro where
  /-- Decode one element from a buffer (R130). -/
  | dec (src : DecBuf) (e : Element)
  /-- Zero-fill a buffer and write the header (R131). -/
  | fill (dst : EncBuf) (addr type : Byte) (len : Nat)
  /-- Encode one element into a buffer (R131). -/
  | enc (dst : EncBuf) (e : Element)
  /-- Put a value that was read ahead of its turn into a buffer, as one element's encode (R67, R131). -/
  | put (dst : EncBuf) (e : Element) (v : Half)
  /-- Write one cell (R151). -/
  | store (id : VarId) (v : Half)
  /-- Read one `b1` cell into a bit of the operation's result (R152, R180). -/
  | load (id : VarId) (slot : Nat)
  deriving DecidableEq, Repr

/-- What the completion of an operation returns or does. -/
inductive Finish where
  /-- `return OK`. -/
  | replyOk
  /-- FRAME_ENCODE returns the caller's buffer (R131). -/
  | replyFrame
  /-- A host DISPATCH returns (true, TX[0 .. len-1]) (R161). -/
  | replyDispatched (len : Nat)
  /-- The line agent's DISPATCH goes on to TxWrite (R167). -/
  | transmit (len : Nat)
  /-- COMPAT_GET_BITSET returns its bitset (R152). -/
  | replyBitset
  /-- LS_INDICATION returns its indication (R180). -/
  | replyIndication
  deriving DecidableEq, Repr

/-- A value that a cell no longer holds, but that an agent may still read, because the operation whose write came next is still in progress
(R64, R65). A cell's entries stand in the cell's order (R65: "one total order"), and its newest value is in the table. -/
structure Superseded where
  /-- The cell. -/
  id : VarId
  /-- The value before the write. -/
  value : Half
  /-- The agent whose operation in progress made the write. -/
  writer : Agent
  /-- The agents that have read the write or a later one, or wrote it: none of them reads `value` again (R65). -/
  seen : List Agent
  deriving DecidableEq, Repr

/-- The choices of one turn among the values of overlapped cells (R64, R66): for a cell, how many of its newest values an access comes
before; 0 where the list does not name the cell. -/
abbrev Picks := List (VarId × Nat)

/-- An operation in progress (R38): the agent that runs it, its single-variable steps still to do (the element cursor), what it
returns, its caller's buffer and the bits it has read. -/
structure OpenOp where
  agent : Agent
  todo : List Micro
  fin : Finish
  buf : List Byte
  acc : Bitset
  deriving DecidableEq, Repr

/-- What happens next at the block's ports, and which agent moves (R7, R195): the environment's choices, as data. A turn that is not
enabled when it comes changes nothing. -/
inductive Turn where
  /-- Host agent `a` issues an operation on its caller's buffer `buf`; it runs without another agent in between. -/
  | host (a : Nat) (bytes : List Byte) (buf : List Byte) (picks : Picks)
  /-- Host agent `a` issues an operation whose single-variable steps other turns may interleave with (R7). -/
  | hostBegin (a : Nat) (bytes : List Byte) (buf : List Byte) (picks : Picks)
  /-- RxRead delivers a frame to the line agent; the dispatch runs without another agent in between (R167). -/
  | rx (bytes : List Byte) (picks : Picks)
  /-- RxRead delivers a frame whose dispatch other turns may interleave with (R7, R167). -/
  | rxBegin (bytes : List Byte)
  /-- Agent `a` takes a step of its operation in progress, or completes it: the first of the remaining single-variable steps, or a read that
stands `k` places behind it (R7, R67). -/
  | advance (a : Agent) (k : Nat) (picks : Picks)
  /-- The line agent is at the head of an iteration; `checksHere` says that this iteration tests CTRL.EN at H, not at A (R167, R169). -/
  | lineHead (checksHere : Bool)
  /-- RxRead returns TransportError(code); `stops` is the continuation (R171). -/
  | rxError (code : Nat) (stops : Bool)
  /-- TxWrite returns OK (R167). -/
  | txDone
  /-- TxWrite returns TransportError(code); `stops` is the continuation (R171). -/
  | txError (code : Nat) (stops : Bool)
  deriving DecidableEq, Repr

/-- The state. -/
structure State where
  /-- The OPEN parameters: `VarCatalog`, the definition store and the dispatch table, `DEFAULT_COMPAT` (R5, R29, R30). Never written. -/
  params : Params
  /-- The configuration (R33, R222). Never written. -/
  cfg : Cfg
  /-- How far initialisation has come (R222). -/
  boot : BootPhase
  /-- The variable table `VAR` (R20-R23, R50). -/
  mem : Memory
  /-- The values of overlapped cells that agents may still read, each cell's in its order (R64, R65). -/
  past : List Superseded
  /-- The shared response buffer `TX` (R31, R50). -/
  tx : List Byte
  /-- The received frame `RX` of the dispatch in progress (R32, R50); empty when there is none. -/
  rx : List Byte
  /-- The caller's buffer `B` of the host operation that runs (R50). -/
  b : List Byte
  /-- `CTRL.EN` (R34). -/
  en : Bool
  /-- `STATUS.READY` (R35). -/
  ready : Bool
  /-- The fault latch: `STATUS.FAULTED`, `STATUS.FCODE` and the recorded information (R35, R39, R191). -/
  fault : Option Fault
  /-- `LoopState` (R37). -/
  loop : LoopState
  /-- The live line agent stands at the head of an iteration, before check point H (R167; the model's own). -/
  atHead : Bool
  /-- This iteration tests CTRL.EN at A and has not tested it at H (R167, R169; the model's own). -/
  checkAtA : Bool
  /-- The length of the response that is handed to TxWrite (R164, R167). -/
  respLen : Nat
  /-- The bits that the running operation has read so far (R38). -/
  acc : Bitset
  /-- The operations in progress (R38). -/
  opens : List OpenOp
  /-- The agent whose turn it is (the model's own). -/
  who : Agent
  /-- The choices of this turn among the values of overlapped cells (R64, R66; the model's own). -/
  picks : Picks
  /-- How many free values DET_CALL_OR has taken (R181 states no result for another number of results; the model's own, note 12). -/
  freeCount : Nat
  /-- What happens next at the ports (R195; the model's own). -/
  turns : List Turn
  /-- What operations returned to their agents, newest first (R101, R190; the model's own record). -/
  replies : List (Agent × Reply)
  /-- The status events the line agent recorded, newest first (R190). -/
  events : List LineEvent
  /-- The responses that TxWrite has answered OK for, newest first; a response whose TxWrite failed is not listed (R10, R167, R171; the model's
own record, note 15). -/
  sent : List (List Byte)
  deriving DecidableEq, Repr

/-- The state after reset for given parameters and configuration (R40, R220). -/
def State.resetWith (p : Params) (c : Cfg) : State where
  params := p
  cfg := c
  boot := .pending
  mem := []
  past := []
  tx := List.replicate (respBufLen p) 0
  rx := []
  b := []
  en := false
  ready := false
  fault := none
  loop := .stopped
  atHead := false
  checkAtA := false
  respLen := 0
  acc := 0
  opens := []
  who := .line
  picks := []
  freeCount := 0
  turns := []
  replies := []
  events := []
  sent := []

/-- The machine right after reset (R40, R220), with one admissible value of the parameters and of the configuration (notes 1, 2). -/
def State.reset : State := State.resetWith instanceParams instanceCfg

end Sys2Proof.Machine
end

