-- ==== Sys2Proof/Machine/Flags.lean ====
section
/-! DEFINITION. The control and status registers as the host port reads them, and the numeric codes of statuses, faults and indications
(R34, R35, R180, R190, R191). The block has no condition-code register, and no operation sets a flag as a side effect (R36). -/

namespace Sys2Proof.Machine

/-- The FCODE of a fault (R191). -/
def faultCode : Fault → Nat
  | .runtFrame _ => 1
  | .shortFrame _ _ => 2
  | .concurrentDispatch => 3
  | .restartRace => 4

/-- `STATUS.FAULTED` (R35). -/
def State.faulted (s : State) : Bool := s.fault.isSome

/-- `STATUS.FCODE`: the code of the first fault raised, 0 if none (R35). -/
def State.fcode (s : State) : Nat :=
  match s.fault with
  | some f => faultCode f
  | none => 0

/-- `CTRL` as read: EN at bit 0, reserved bits 0 (R34). -/
def State.ctrlReg (s : State) : Byte := (BitVec.ofBool s.en).setWidth 8

/-- `STATUS` as read: READY at bit 0, FAULTED at bit 1, FCODE at bits 7:4, reserved bits 0 (R35). -/
def State.statusReg (s : State) : Byte :=
  (BitVec.ofBool s.ready).setWidth 8 ||| ((BitVec.ofBool s.faulted).setWidth 8 <<< 1) ||| (BitVec.ofNat 8 s.fcode <<< 4)

/-- The status code of what an operation returned (R190). -/
def replyStatus : Reply → Nat
  | .ok => 0
  | .value _ => 0
  | .frame _ => 0
  | .dispatched isMatched _ => if isMatched then 0 else 1
  | .bitset _ => 0
  | .indication _ => 0
  | .register _ => 0
  | .hexReject => 2
  | .notReady => 3

/-- The status code of an event of the line agent (R190). -/
def eventStatus : LineEvent → Nat
  | .served => 0
  | .noMatch => 1
  | .transportError _ _ => 4

/-- The indication codes: Blank = 0, Green = 1, Yellow = 2, Red = 3 (R180). -/
def indicationCode : Indication → Nat
  | .blank => 0
  | .green => 1
  | .yellow => 2
  | .red => 3

/-- The indication of one channel's three drivers (R180). -/
def indicationOf (g y r : Bool) : Indication :=
  match g, y, r with
  | true, false, false => .green
  | false, true, false => .yellow
  | false, false, true => .red
  | _, _, _ => .blank

end Sys2Proof.Machine
end

