-- ==== Sys2Proof/Machine/Ops.lean ====
section
/-! DEFINITION. The named operations over the state: cells and buffers, raising a fault, replies, the single-variable steps and the
completion of an operation, and the beginning of every operation that touches several variables. -/

namespace Sys2Proof.Machine

/-- What every meaning answers. -/
abbrev Result := Host.Outcome State Fault Refusal

/-! ## Cells (R60-R67)

A cell's newest value is in the table. While operations are in progress, the values before their writes stay in `State.past`, and an access
of the agent whose turn it is may come before the newest writes of the cell that this agent has not read: a read then returns an older
value (R64, R67), and a write takes its place before them in the cell's order (R66). The turn's choices say how many; 0 is the plain access
at the end of the order. -/

/-- The cell's newest value. -/
def State.getVar (s : State) (id : VarId) : Half := s.mem.get id

/-- The cell's newest value as a bit. -/
def State.getBit (s : State) (id : VarId) : Bool := (s.getVar id).getLsbD 0

/-- The older values of a cell that the agent whose turn it is may still read, oldest first (R64, R65). -/
def State.unseen (s : State) (id : VarId) : List Superseded :=
  s.past.filter fun e => decide (e.id = id) && decide (s.who ∉ e.seen)

/-- The turn's choice for a cell. -/
def pickOf : Picks → VarId → Nat
  | [], _ => 0
  | (k, n) :: rest, id => if k = id then n else pickOf rest id

/-- How many of the cell's newest writes this access comes before: the turn's choice, where the agent has not read that many, else 0. -/
def State.depth (s : State) (id : VarId) : Nat :=
  if pickOf s.picks id ≤ (s.unseen id).length then pickOf s.picks id else 0

/-- Every access of the agent whose turn it is stands at the end of its cell's order: no older value is chosen, or none is left to read. -/
def State.plain (s : State) : Prop := ∀ id, s.depth id = 0

/-- The older value at depth `k`, counted from the newest. -/
def oldValue (es : List Superseded) (k : Nat) (newest : Half) : Half :=
  match es[es.length - k]? with
  | some e => e.value
  | none => newest

/-- `V[id]` (R10): one single-copy-atomic read (R60), of the newest value or of an older one that R64 admits. -/
def State.readVar (s : State) (id : VarId) : Half := oldValue (s.unseen id) (s.depth id) (s.getVar id)

/-- An agent has read or written past the `n` oldest of the values of a cell that it could still read (R65). -/
def markSeen (who : Agent) (id : VarId) : Nat → List Superseded → List Superseded
  | 0, es => es
  | _ + 1, [] => []
  | n + 1, e :: es =>
    if e.id = id ∧ who ∉ e.seen then { e with seen := who :: e.seen } :: markSeen who id n es
    else e :: markSeen who id (n + 1) es

/-- What a read leaves: no cell changes (R62), and the agent reads no value before this one again (R65). -/
def State.seeVar (s : State) (id : VarId) : State :=
  { s with past := markSeen s.who id ((s.unseen id).length - s.depth id) s.past }

/-- A write that takes its place after the `n` oldest of the values that its agent could still read, and before a newer write (R66): the value
before the write, then the written one, which the newer write superseded. -/
def placeWrite (who : Agent) (id : VarId) (v : Half) : Nat → List Superseded → List Superseded
  | _, [] => []
  | n, e :: es =>
    if e.id = id ∧ who ∉ e.seen then
      match n with
      | 0 => ⟨id, e.value, who, who :: e.seen⟩ :: { e with value := v } :: es
      | n + 1 => { e with seen := who :: e.seen } :: placeWrite who id v n es
    else e :: placeWrite who id v n es

/-- `V[id] <- v` (R10): one single-copy-atomic write (R60), at the end of the cell's order, or before the writes of operations in progress that
the turn chooses (R66: "the two writes fall in either order"). -/
def State.setVar (s : State) (id : VarId) (v : Half) : State :=
  { s with
    mem := if s.depth id = 0 then s.mem.set id v else s.mem
    past :=
      if s.depth id = 0 then markSeen s.who id (s.unseen id).length s.past ++ [⟨id, s.getVar id, s.who, [s.who]⟩]
      else placeWrite s.who id v ((s.unseen id).length - s.depth id) s.past }

/-- The values that agents may still read once `who`'s operation has completed: none from before a write of that operation (R65). -/
def settlePast (who : Agent) : List Superseded → List Superseded
  | [] => []
  | e :: es =>
    if e.writer = who ∨ (es.any fun x => decide (x.writer = who) && decide (x.id = e.id)) = true then settlePast who es
    else e :: settlePast who es

/-- The operation of the agent whose turn it is has completed: every read that begins afterwards returns its writes or later ones (R65). -/
def State.settle (s : State) : State := { s with past := settlePast s.who s.past }

/-! ## Buffers -/

/-- The buffer a decode reads (R120). -/
def State.decBuf (s : State) : DecBuf → List Byte
  | .rx => s.rx
  | .b => s.b

/-- The buffer an encode writes (R121). -/
def State.encBuf (s : State) : EncBuf → List Byte
  | .tx => s.tx
  | .b => s.b

/-- Replaces the contents of the buffer an encode writes. -/
def State.setEncBuf (s : State) (dst : EncBuf) (buf : List Byte) : State :=
  match dst with
  | .tx => { s with tx := buf }
  | .b => { s with b := buf }

/-! ## Faults, replies, events -/

/-- `raise <Fault>(info)`: the one shared operation that takes a fault (R10, R191, R194, R197). It latches the fault, "unless a fault is
already latched, in which case the first one stays", and changes nothing else: no state is saved, no mode changes and control goes
nowhere. There is no return from a fault: only reset clears the latch (R198, R221). -/
def raiseFault (f : Fault) (s : State) : State :=
  match s.fault with
  | none => { s with fault := some f }
  | some _ => s

/-- `return <Status>`: hands a result to the agent whose turn it is (R10, R101, R190). -/
def State.reply (s : State) (r : Reply) : State := { s with replies := (s.who, r) :: s.replies }

/-- The line agent records a status event (R171, R190). -/
def State.record (s : State) (e : LineEvent) : State := { s with events := e :: s.events }

/-- `LoopState <- Stopped; exit` (R167). -/
def State.stopLine (s : State) : State := { s with loop := .stopped, atHead := false, checkAtA := false }

/-- The line agent goes to the head of its next iteration (R167). -/
def State.toHead (s : State) : State := { s with atHead := true, checkAtA := false }

/-! ## Single-variable steps -/

/-- One element decode: `V[id] <-` the operand (R120, R122, R124). -/
def State.decodeElem (s : State) (src : DecBuf) (e : Element) : State := s.setVar e.id (elementValue (s.decBuf src) e)

/-- One element encode: the cell into the buffer (R121, R123, R125). -/
def State.encodeElem (s : State) (dst : EncBuf) (e : Element) : State :=
  (s.seeVar e.id).setEncBuf dst (elementPut (s.encBuf dst) e (s.readVar e.id))

/-- A bitset with the bit at `slot` set to `v`: `b[slot] <- v` (R152). -/
def setSlot (acc : Bitset) (slot : Nat) (v : Bool) : Bitset :=
  (acc &&& ~~~(1#120 <<< slot)) ||| ((BitVec.ofBool v).setWidth 120 <<< slot)

/-- One single-variable step (R7). -/
def runMicro (m : Micro) (s : State) : State :=
  match m with
  | .dec src e => s.decodeElem src e
  | .fill dst addr type len => s.setEncBuf dst (fillFrame (s.encBuf dst) addr type len)
  | .enc dst e => s.encodeElem dst e
  | .put dst e v => s.setEncBuf dst (elementPut (s.encBuf dst) e v)
  | .store id v => s.setVar id v
  | .load id slot => { s.seeVar id with acc := setSlot s.acc slot ((s.readVar id).getLsbD 0) }

/-- Single-variable steps in the order given, with no other agent in between. -/
def runMicros : List Micro → State → State
  | [], s => s
  | m :: ms, s => runMicros ms (runMicro m s)

/-- The step reads a cell into the operation's result, and another cell than `id`. -/
def isOtherLoad (id : VarId) : Micro → Bool
  | .load id' _ => decide (id' ≠ id)
  | .dec _ _ => false
  | .fill _ _ _ _ => false
  | .enc _ _ => false
  | .put _ _ _ => false
  | .store _ _ => false

/-- An element encode of a cell that the encode has read already puts the value that was read: every element of one cell "writes the same
cell value into its own position" (R126), so that a dimming pair comes out 00 or 11 whoever writes in between (R127; note 24). -/
def shareRead (id : VarId) (v : Half) : Micro → Micro
  | .enc dst e => if e.id = id then .put dst e v else .enc dst e
  | .dec src e => .dec src e
  | .fill dst addr type len => .fill dst addr type len
  | .put dst e w => .put dst e w
  | .store id' w => .store id' w
  | .load id' slot => .load id' slot

/-- The remaining steps of an operation after the step `m`, taken in the state `s`. -/
def stepsAfter (m : Micro) (s : State) (todo : List Micro) : List Micro :=
  match m with
  | .enc _ e => todo.map (shareRead e.id (s.readVar e.id))
  | .dec _ _ => todo
  | .fill _ _ _ _ => todo
  | .put _ _ _ => todo
  | .store _ _ => todo
  | .load _ _ => todo

/-- The step belongs to an encode. -/
def isEncodeStep : Micro → Bool
  | .fill _ _ _ _ => true
  | .enc _ _ => true
  | .put _ _ _ => true
  | .dec _ _ => false
  | .store _ _ => false
  | .load _ _ => false

/-- What the completion of an operation does (R65, R101, R167). -/
def finishOp (fin : Finish) (s : State) : State :=
  match fin with
  | .replyOk => s.settle.reply .ok
  | .replyFrame => s.settle.reply (.frame s.b)
  | .replyDispatched n => { s.settle with rx := [] }.reply (.dispatched true n)
  | .transmit n => { s.settle with rx := [], loop := .writing, respLen := n }
  | .replyBitset => s.settle.reply (.bitset s.acc)
  | .replyIndication => s.settle.reply (.indication (indicationOf (s.acc.getLsbD 0) (s.acc.getLsbD 1) (s.acc.getLsbD 2)))

/-- What an operation of several variables is once its tests have passed: the state it begins in, its single-variable steps in the
order its rule gives, and its completion; or the outcome it ends in at once. -/
inductive Started where
  | ended (o : Result)
  | going (s : State) (todo : List Micro) (fin : Finish)

/-- Runs an operation from its beginning to its end, with no other agent in between. -/
def runStarted : Started → Result
  | .ended o => o
  | .going s todo fin => .next (finishOp fin (runMicros todo s))

/-- An operation of agent `a` is in progress with these steps to do, its caller's buffer and the bits it has read (R38). -/
def State.hold (s : State) (a : Agent) (todo : List Micro) (fin : Finish) : State :=
  { s with opens := s.opens ++ [⟨a, todo, fin, s.b, s.acc⟩] }

/-- Leaves an operation in progress, so that other agents may interleave with it (R7, R38). -/
def holdStarted (a : Agent) : Started → Result
  | .ended o => o
  | .going s todo fin => .next (s.hold a todo fin)

/-- Leaves the rest of an operation in progress after one of its steps. -/
def holdRest (a : Agent) (todo : List Micro) (fin : Finish) : Result → Result
  | .next s => .next (s.hold a todo fin)
  | .fault r => .fault r
  | .refused r => .refused r

/-! ## The beginning of each operation that writes a cell or touches several

Where R192 names more than one refusal for an operation, neither it nor R196 says which is reported: the order of the tests below is the
model's choice (note 23). -/

/-- SET: `V[id] <- v` (R111): the identity is tested first, then the value, which is refused outside its type's range and never truncated (R192;
the order of the two is the model's choice, note 23). -/
def startSet (id : VarId) (v : Half) (s : State) : Started :=
  if !inCatalog s.params id then .ended (.refused .badId)
  else if !valueFits id.ty v then .ended (.refused .badValue)
  else .going s [.store id v] .replyOk

/-- The steps of FRAME_DECODE (R130). -/
def decodeMicros (src : DecBuf) (d : FrameDef) : List Micro := d.elems.map (.dec src)

/-- The steps of FRAME_ENCODE (R131). -/
def encodeMicros (dst : EncBuf) (d : FrameDef) : List Micro := .fill dst d.addr d.type d.len :: d.elems.map (.enc dst)

/-- The steps of a matched DISPATCH: every decode of the command, then the encode of the response (R161, R166). -/
def dispatchMicros (c r : FrameDef) : List Micro := decodeMicros .rx c ++ encodeMicros .tx r

/-- FRAME_DECODE of the definition of type `t` on the bytes of the caller's buffer (R130, R132). -/
def startFrameDecode (t : Byte) (bytes : List Byte) (s : State) : Started :=
  match frameOf s.params t with
  | none => .ended (.refused .noDefinition)
  | some d =>
    if !isReceived d.dir then .ended (.refused .badDirection)
    else if bytes.length < Config.hdrLen then .ended (.next (raiseFault (.runtFrame bytes.length) s))
    else if bytes.length < d.len then .ended (.next (raiseFault (.shortFrame d.type bytes.length) s))
    else .going { s with b := bytes } (decodeMicros .b d) .replyOk

/-- FRAME_ENCODE of the definition of type `t` into the caller's buffer (R131, R132). That the direction is tested before the buffer's length
is the model's choice (note 23). -/
def startFrameEncode (t : Byte) (s : State) : Started :=
  match frameOf s.params t with
  | none => .ended (.refused .noDefinition)
  | some d =>
    if !isGenerated d.dir then .ended (.refused .badDirection)
    else if s.b.length ≠ d.len then .ended (.refused .badBuffer)
    else .going s (encodeMicros .b d) .replyFrame

/-- The completion is a dispatch's: the operation uses RX and TX. -/
def isDispatchFinish : Finish → Bool
  | .replyDispatched _ => true
  | .transmit _ => true
  | .replyOk => false
  | .replyFrame => false
  | .replyBitset => false
  | .replyIndication => false

/-- A dispatch is in progress (R230). -/
def State.dispatchOpen (s : State) : Bool := s.opens.any fun o => isDispatchFinish o.fin

/-- DISPATCH from the host port: `ConcurrentDispatch`, then `RuntFrame`, then `NOMATCH`, then `ShortFrame` (R161, R162, R163, R170,
R196). -/
def startDispatch (bytes : List Byte) (s : State) : Started :=
  if s.en || decide (s.loop ≠ .stopped) || s.dispatchOpen then .ended (.next (raiseFault .concurrentDispatch s))
  else if bytes.length < Config.hdrLen then .ended (.next (raiseFault (.runtFrame bytes.length) s))
  else match pairOf s.params (byteAt bytes 2) with
    | none => .ended (.next (s.reply (.dispatched false 0)))
    | some (c, r) =>
      if bytes.length < c.len then .ended (.next (raiseFault (.shortFrame c.type bytes.length) s))
      else .going { s with rx := bytes } (dispatchMicros c r) (.replyDispatched r.len)

/-- The line agent is blocked in RxRead (R167, R239). -/
def State.listening (s : State) : Bool := decide (s.loop = .reading) && !s.atHead

/-- A frame is delivered to the line port. If no line agent is reading, the transport holds or drops it, and nothing happens in the
block (R195). Otherwise: check point A, then DISPATCH, then on a match TxWrite (R161, R162, R163, R167, R196). R196 does not place
`ConcurrentDispatch` among a line dispatch's outcomes: that it comes before `RuntFrame`, `NOMATCH` and `ShortFrame`, as for a host DISPATCH,
is the model's choice (note 9). -/
def startLine (frame : List Byte) (s : State) : Started :=
  if !s.listening then .ended (.next s)
  else if s.checkAtA && !s.en then .ended (.next s.stopLine)
  else
    let s := { s with loop := .dispatching }
    if s.dispatchOpen then .ended (.next (raiseFault .concurrentDispatch s))
    else if frame.length < Config.hdrLen then .ended (.next (raiseFault (.runtFrame frame.length) s))
    else match pairOf s.params (byteAt frame 2) with
      | none => .ended (.next (s.record .noMatch).toHead)
      | some (c, r) =>
        if frame.length < c.len then .ended (.next (raiseFault (.shortFrame c.type frame.length) s))
        else .going { s with rx := frame } (dispatchMicros c r) (.transmit r.len)

/-- The 120 writes of COMPAT_SET_BITSET, in its loops' order (R151). -/
def compatStores (bits : Bitset) : List Micro :=
  compatPairs.map fun q => .store (compatId q.1 q.2) (halfOfBit (bits.getLsbD (compatOff q.1 q.2)))

/-- The 120 reads of COMPAT_GET_BITSET, in its loops' order (R152). -/
def compatLoads : List Micro := compatPairs.map fun q => .load (compatId q.1 q.2) (compatOff q.1 q.2)

/-- The table after the 120 writes of a bitset, in the packer's loops' order, where no other agent runs yet (R151, R222). -/
def compatTable (bits : Bitset) (m : Memory) : Memory :=
  compatPairs.foldl (fun m q => m.set (compatId q.1 q.2) (halfOfBit (bits.getLsbD (compatOff q.1 q.2)))) m

/-- COMPAT_SET_BITSET (R151). Its cells stand in every running block's catalogue (R25, R26; INIT, `bindingsHeld`). -/
def startCompatSet (bits : Bitset) (s : State) : Started := .going s (compatStores bits) .replyOk

/-- COMPAT_GET_BITSET (R152). -/
def startCompatGet (s : State) : Started := .going { s with acc := 0 } compatLoads .replyBitset

/-- COMPAT_SET_HEX (R153): rejection writes no cell. -/
def startCompatHex (str : List Byte) (s : State) : Started :=
  match hexBitset str with
  | none => .ended (.next (s.reply .hexReject))
  | some bits => startCompatSet bits s

/-- COMPAT_DEFAULT (R155). -/
def startCompatDefault (s : State) : Started := startCompatSet s.params.defaultCompat s

/-- LS_INDICATION: three reads, one at a time (R59, R180); a channel outside 1..16, then a driver outside `VarCatalog`, is refused (R26, R192;
the order of the two is the model's choice, note 23). -/
def startLsIndication (c : Byte) (s : State) : Started :=
  if 1 ≤ c.toNat ∧ c.toNat ≤ Config.nch then
    if inCatalog s.params (lsGreenId s.params c.toNat) && inCatalog s.params (lsYellowId s.params c.toNat)
        && inCatalog s.params (lsRedId s.params c.toNat) then
      .going { s with acc := 0 }
        [.load (lsGreenId s.params c.toNat) 0, .load (lsYellowId s.params c.toNat) 1, .load (lsRedId s.params c.toNat) 2]
        .replyIndication
    else .ended (.refused .badId)
  else .ended (.refused .badOperand)

/-- `m = |CFG.DETWIRE[d]|`: how many sensor results DET_CALL_OR of detector `d` takes (R33, R181). -/
def detCount (c : Cfg) (d : Nat) : Nat := (c.detWire.getD (d - 1) []).length

/-- DET_CALL_OR: `V[DetCall[d]] <- s[0] | ... | s[m-1]`, the empty OR being 0 (R181). A number of results that is not `m` has no result in
R181: the operation writes a free value then, and does the rest as ever (note 12). A detector outside 1..64, then a call cell outside
`VarCatalog`, is refused (R26, R192; the order of the two is the model's choice, note 23). -/
def startDetCallOr (d : Byte) (results : List Bool) (s : State) : Started :=
  if 1 ≤ d.toNat ∧ d.toNat ≤ Config.ndet then
    if !inCatalog s.params (detCallId s.params d.toNat) then .ended (.refused .badId)
    else if results.length = detCount s.cfg d.toNat then
      .going s [.store (detCallId s.params d.toNat) (halfOfBit (results.any id))] .replyOk
    else
      .going { s with freeCount := s.freeCount + 1 }
        [.store (detCallId s.params d.toNat) (halfOfBit (Config.freeCall s.freeCount))] .replyOk
  else .ended (.refused .badOperand)

/-! ## Elements as instructions -/

/-- The check of R87 that an element fails in a buffer of `len` bytes, if it fails one. Which of several is named is the model's choice (note
23), and so is the bound: the length of the buffer the element is given (note 19). -/
def elementFails (p : Params) (len : Nat) (e : Element) : Option WfCheck :=
  if e.id.ty ≠ kindType e.kind then some .kindType
  else if !inCatalog p e.id then some .id
  else if !elementInBounds len e then some .bounds
  else none

/-- An element decode: refused where the element fails a check (R87, R192), else its one cell write (R128). -/
def decodeElement (src : DecBuf) (e : Element) (s : State) : Result :=
  match elementFails s.params (s.decBuf src).length e with
  | some c => .refused (.badElement c)
  | none => .next (s.decodeElem src e)

/-- An element encode: refused where the element fails a check (R87, R192), else its one cell read (R128). -/
def encodeElement (dst : EncBuf) (e : Element) (s : State) : Result :=
  match elementFails s.params (s.encBuf dst).length e with
  | some c => .refused (.badElement c)
  | none => .next (s.encodeElem dst e)

end Sys2Proof.Machine
end

