-- ==== Sys2Proof/Machine/Elements.lean ====
section
/-! DEFINITION. The six element primitives: one value between one cell and one frame buffer (R120-R128). A frame operation runs them in
declaration order; no port issues them. -/

namespace Sys2Proof.Machine

/-- BIT_DECODE: `V[id] <- MemRead(S:(pos div 8), 1)[pos mod 8]` (R120). -/
def execBitDecode (src : DecBuf) (id : VarId) (pos : Nat) (s : State) : Result :=
  decodeElement src ⟨.bit, id, pos⟩ s

/-- BIT_ENCODE: the cell is ORed into bit `pos mod 8` of byte `pos div 8` (R121). -/
def execBitEncode (dst : EncBuf) (id : VarId) (pos : Nat) (s : State) : Result :=
  encodeElement dst ⟨.bit, id, pos⟩ s

/-- BYTE_DECODE: `V[id] <- MemRead(S:pos, 1)` (R122). -/
def execByteDecode (src : DecBuf) (id : VarId) (pos : Nat) (s : State) : Result :=
  decodeElement src ⟨.byte, id, pos⟩ s

/-- BYTE_ENCODE: `MemWrite(S:pos, 1, V[id])` (R123). -/
def execByteEncode (dst : EncBuf) (id : VarId) (pos : Nat) (s : State) : Result :=
  encodeElement dst ⟨.byte, id, pos⟩ s

/-- WORD_DECODE: `V[id]` is the little-endian word at `pos` (R124). -/
def execWordDecode (src : DecBuf) (id : VarId) (pos : Nat) (s : State) : Result :=
  decodeElement src ⟨.word, id, pos⟩ s

/-- WORD_ENCODE: the cell is stored little-endian at `pos` and `pos + 1` (R125). -/
def execWordEncode (dst : EncBuf) (id : VarId) (pos : Nat) (s : State) : Result :=
  encodeElement dst ⟨.word, id, pos⟩ s

end Sys2Proof.Machine
end

