-- ==== Sys2Proof/Machine/HostOps.lean ====
section
/-! DEFINITION. The host-port operations (R94): the variable table, frames, the packer, the wiring adapter, control and status. -/

namespace Sys2Proof.Machine

/-- GET: `return V[id]`, one atomic read, which may return an older value of a cell that an operation in progress is writing (R64, R110); an
identity outside `VarCatalog` is refused (R192). -/
def execGet (id : VarId) (s : State) : Result :=
  if inCatalog s.params id then .next ((s.seeVar id).reply (.value (s.readVar id))) else .refused .badId

/-- SET: `V[id] <- v`; an identity outside `VarCatalog`, then a value outside its type, is refused, never truncated (R111, R192; which of the
two is named where both apply is the model's choice, note 23). -/
def execSet (id : VarId) (v : Half) (s : State) : Result := runStarted (startSet id v s)

/-- FRAME_DECODE (R130, R132). -/
def execFrameDecode (t : Byte) (bytes : List Byte) (s : State) : Result := runStarted (startFrameDecode t bytes s)

/-- FRAME_ENCODE (R131, R132). -/
def execFrameEncode (t : Byte) (s : State) : Result := runStarted (startFrameEncode t s)

/-- DISPATCH from the host port (R161, R170). -/
def execDispatch (bytes : List Byte) (s : State) : Result := runStarted (startDispatch bytes s)

/-- COMPAT_SET_BITSET (R151). -/
def execCompatSetBitset (bits : Bitset) (s : State) : Result := runStarted (startCompatSet bits s)

/-- COMPAT_GET_BITSET (R152). -/
def execCompatGetBitset (s : State) : Result := runStarted (startCompatGet s)

/-- COMPAT_SET_HEX (R153). -/
def execCompatSetHex (str : List Byte) (s : State) : Result := runStarted (startCompatHex str s)

/-- COMPAT_ZERO: `COMPAT_SET_BITSET(0)` (R154). -/
def execCompatZero (s : State) : Result := runStarted (startCompatSet 0 s)

/-- COMPAT_DEFAULT: `COMPAT_SET_BITSET(DEFAULT_COMPAT)` (R155). -/
def execCompatDefault (s : State) : Result := runStarted (startCompatDefault s)

/-- LS_INDICATION (R180). -/
def execLsIndication (c : Byte) (s : State) : Result := runStarted (startLsIndication c s)

/-- DET_CALL_OR (R181). -/
def execDetCallOr (d : Byte) (results : List Bool) (s : State) : Result := runStarted (startDetCallOr d results s)

/-- Starts the line agent: it stands at the head of its first iteration, and LoopState becomes Reading (R167, R168). -/
def State.startLineAgent (s : State) : State := { s with en := true, loop := .reading, atHead := true, checkAtA := false }

/-- CSR_WRITE: register 0 is CTRL, whose bit 0 alone counts; any other register is refused (R34, R168, R192, R196). -/
def execCsrWrite (reg : Byte) (v : Byte) (s : State) : Result :=
  if reg ≠ 0 then .refused .badRegister
  else if v.getLsbD 0 then
    if !s.ready then .next (s.reply .notReady)
    else if s.en then .next (s.reply .ok)
    else if s.loop ≠ .stopped then .next (raiseFault .restartRace s)
    else .next (s.startLineAgent.reply .ok)
  else .next ({ s with en := false }.reply .ok)

/-- CSR_READ: register 0 is CTRL, register 1 is STATUS; any other register is refused (R34, R35, R172, R192). -/
def execCsrRead (reg : Byte) (s : State) : Result :=
  if reg = 0 then .next (s.reply (.register s.ctrlReg))
  else if reg = 1 then .next (s.reply (.register s.statusReg))
  else .refused .badRegister

end Sys2Proof.Machine
end

