-- ==== Sys2Proof/Machine/LineFrames.lean ====
section
/-! DEFINITION. The frames of the line port: each arriving frame is dispatched by its type byte alone (R93, R161, R165). Bytes 0 and 1 are
not examined. A command type that the dispatch table pairs is decoded and answered; any other type is NOMATCH (R95, R96, R162). -/

namespace Sys2Proof.Machine

/-- CMD_T0_LOADSWITCH_DRIVERS: loadswitch driver command (R85, R161, R167). Dispatched only if `ExtraPairs` pairs type 0, NOMATCH otherwise (R30, R162). -/
def execCmdT0 (addr ctl : Byte) (payload : List Byte) (s : State) : Result :=
  runStarted (startLine (addr :: ctl :: 0 :: payload) s)

/-- CMD_T1_MMU_INPUT_STATUS_REQ: MMU input status request (R85, R161, R167). The pair (1, 129) (R30). Its definition has no elements (R136). -/
def execCmdT1 (addr ctl : Byte) (payload : List Byte) (s : State) : Result :=
  runStarted (startLine (addr :: ctl :: 1 :: payload) s)

/-- CMD_T3_MMU_PROGRAMMING_REQ: MMU programming request (R85, R161, R167). The pair (3, 131) (R30). Its definition has no elements (R136). -/
def execCmdT3 (addr ctl : Byte) (payload : List Byte) (s : State) : Result :=
  runStarted (startLine (addr :: ctl :: 3 :: payload) s)

/-- CMD_T9_DATE_TIME_BROADCAST: date/time broadcast (R85, R161, R167). Dispatched only if `ExtraPairs` pairs type 9, NOMATCH otherwise (R30, R162). -/
def execCmdT9 (addr ctl : Byte) (payload : List Byte) (s : State) : Result :=
  runStarted (startLine (addr :: ctl :: 9 :: payload) s)

/-- CMD_T10_BIU: BIU output/input frame (command) (R85, R161, R167). The pair (10, 138) (R30). -/
def execCmdT10 (addr ctl : Byte) (payload : List Byte) (s : State) : Result :=
  runStarted (startLine (addr :: ctl :: 10 :: payload) s)

/-- CMD_T11_BIU: BIU output/input frame (command) (R85, R161, R167). The pair (11, 139) (R30). -/
def execCmdT11 (addr ctl : Byte) (payload : List Byte) (s : State) : Result :=
  runStarted (startLine (addr :: ctl :: 11 :: payload) s)

/-- CMD_T12_BIU: BIU output/input frame (command) (R85, R161, R167). The pair (12, 140) (R30). -/
def execCmdT12 (addr ctl : Byte) (payload : List Byte) (s : State) : Result :=
  runStarted (startLine (addr :: ctl :: 12 :: payload) s)

/-- CMD_T13_BIU: BIU output/input frame (command) (R85, R161, R167). The pair (13, 141) (R30). -/
def execCmdT13 (addr ctl : Byte) (payload : List Byte) (s : State) : Result :=
  runStarted (startLine (addr :: ctl :: 13 :: payload) s)

/-- CMD_T20_DET_BIU: detector BIU call/diagnostic frame (command) (R85, R161, R167). The pair (20, 148) (R30). -/
def execCmdT20 (addr ctl : Byte) (payload : List Byte) (s : State) : Result :=
  runStarted (startLine (addr :: ctl :: 20 :: payload) s)

/-- CMD_T21_DET_BIU: detector BIU call/diagnostic frame (command) (R85, R161, R167). The pair (21, 149) (R30). -/
def execCmdT21 (addr ctl : Byte) (payload : List Byte) (s : State) : Result :=
  runStarted (startLine (addr :: ctl :: 21 :: payload) s)

/-- CMD_T22_DET_BIU: detector BIU call/diagnostic frame (command) (R85, R161, R167). The pair (22, 150) (R30). -/
def execCmdT22 (addr ctl : Byte) (payload : List Byte) (s : State) : Result :=
  runStarted (startLine (addr :: ctl :: 22 :: payload) s)

/-- CMD_T23_DET_BIU: detector BIU call/diagnostic frame (command) (R85, R161, R167). The pair (23, 151) (R30). -/
def execCmdT23 (addr ctl : Byte) (payload : List Byte) (s : State) : Result :=
  runStarted (startLine (addr :: ctl :: 23 :: payload) s)

/-- CMD_T24_DET_BIU: detector BIU call/diagnostic frame (command) (R85, R161, R167). The pair (24, 152) (R30). -/
def execCmdT24 (addr ctl : Byte) (payload : List Byte) (s : State) : Result :=
  runStarted (startLine (addr :: ctl :: 24 :: payload) s)

/-- CMD_T25_DET_BIU: detector BIU call/diagnostic frame (command) (R85, R161, R167). The pair (25, 153) (R30). -/
def execCmdT25 (addr ctl : Byte) (payload : List Byte) (s : State) : Result :=
  runStarted (startLine (addr :: ctl :: 25 :: payload) s)

/-- CMD_T26_DET_BIU: detector BIU call/diagnostic frame (command) (R85, R161, R167). The pair (26, 154) (R30). -/
def execCmdT26 (addr ctl : Byte) (payload : List Byte) (s : State) : Result :=
  runStarted (startLine (addr :: ctl :: 26 :: payload) s)

/-- CMD_T27_DET_BIU: detector BIU call/diagnostic frame (command) (R85, R161, R167). The pair (27, 155) (R30). -/
def execCmdT27 (addr ctl : Byte) (payload : List Byte) (s : State) : Result :=
  runStarted (startLine (addr :: ctl :: 27 :: payload) s)

/-- RSP_T129_MMU_INPUT_STATUS, received: a response type selects no pair (R96, R162). The block sends this frame as the response of type 1 (R164). -/
def execRspT129 (addr ctl : Byte) (payload : List Byte) (s : State) : Result :=
  runStarted (startLine (addr :: ctl :: 129 :: payload) s)

/-- RSP_T131_MMU_COMPATIBILITY, received: a response type selects no pair (R96, R162). The block sends this frame as the response of type 3 (R164). -/
def execRspT131 (addr ctl : Byte) (payload : List Byte) (s : State) : Result :=
  runStarted (startLine (addr :: ctl :: 131 :: payload) s)

/-- RSP_T138_BIU, received: a response type selects no pair (R96, R162). The block sends this frame as the response of type 10 (R164). -/
def execRspT138 (addr ctl : Byte) (payload : List Byte) (s : State) : Result :=
  runStarted (startLine (addr :: ctl :: 138 :: payload) s)

/-- RSP_T139_BIU, received: a response type selects no pair (R96, R162). The block sends this frame as the response of type 11 (R164). -/
def execRspT139 (addr ctl : Byte) (payload : List Byte) (s : State) : Result :=
  runStarted (startLine (addr :: ctl :: 139 :: payload) s)

/-- RSP_T140_BIU, received: a response type selects no pair (R96, R162). The block sends this frame as the response of type 12 (R164). -/
def execRspT140 (addr ctl : Byte) (payload : List Byte) (s : State) : Result :=
  runStarted (startLine (addr :: ctl :: 140 :: payload) s)

/-- RSP_T141_BIU, received: a response type selects no pair (R96, R162). The block sends this frame as the response of type 13 (R164). -/
def execRspT141 (addr ctl : Byte) (payload : List Byte) (s : State) : Result :=
  runStarted (startLine (addr :: ctl :: 141 :: payload) s)

/-- RSP_T148_DET_BIU, received: a response type selects no pair (R96, R162). The block sends this frame as the response of type 20 (R164). -/
def execRspT148 (addr ctl : Byte) (payload : List Byte) (s : State) : Result :=
  runStarted (startLine (addr :: ctl :: 148 :: payload) s)

/-- RSP_T149_DET_BIU, received: a response type selects no pair (R96, R162). The block sends this frame as the response of type 21 (R164). -/
def execRspT149 (addr ctl : Byte) (payload : List Byte) (s : State) : Result :=
  runStarted (startLine (addr :: ctl :: 149 :: payload) s)

/-- RSP_T150_DET_BIU, received: a response type selects no pair (R96, R162). The block sends this frame as the response of type 22 (R164). -/
def execRspT150 (addr ctl : Byte) (payload : List Byte) (s : State) : Result :=
  runStarted (startLine (addr :: ctl :: 150 :: payload) s)

/-- RSP_T151_DET_BIU, received: a response type selects no pair (R96, R162). The block sends this frame as the response of type 23 (R164). -/
def execRspT151 (addr ctl : Byte) (payload : List Byte) (s : State) : Result :=
  runStarted (startLine (addr :: ctl :: 151 :: payload) s)

/-- RSP_T152_DET_BIU, received: a response type selects no pair (R96, R162). The block sends this frame as the response of type 24 (R164). -/
def execRspT152 (addr ctl : Byte) (payload : List Byte) (s : State) : Result :=
  runStarted (startLine (addr :: ctl :: 152 :: payload) s)

/-- RSP_T153_DET_BIU, received: a response type selects no pair (R96, R162). The block sends this frame as the response of type 25 (R164). -/
def execRspT153 (addr ctl : Byte) (payload : List Byte) (s : State) : Result :=
  runStarted (startLine (addr :: ctl :: 153 :: payload) s)

/-- RSP_T154_DET_BIU, received: a response type selects no pair (R96, R162). The block sends this frame as the response of type 26 (R164). -/
def execRspT154 (addr ctl : Byte) (payload : List Byte) (s : State) : Result :=
  runStarted (startLine (addr :: ctl :: 154 :: payload) s)

/-- RSP_T155_DET_BIU, received: a response type selects no pair (R96, R162). The block sends this frame as the response of type 27 (R164). -/
def execRspT155 (addr ctl : Byte) (payload : List Byte) (s : State) : Result :=
  runStarted (startLine (addr :: ctl :: 155 :: payload) s)

/-- UNMATCHED_TYPE (R95, R162). A type outside the table that `ExtraPairs` pairs is dispatched (R30, R160). -/
def execUnmatchedType (addr ctl type : Byte) (payload : List Byte) (s : State) : Result :=
  runStarted (startLine (addr :: ctl :: type :: payload) s)

/-- RUNT_FRAME: the fault `RuntFrame(n)` (R161, R163, R191). -/
def execRuntFrame (bytes : List Byte) (s : State) : Result :=
  runStarted (startLine bytes s)

end Sys2Proof.Machine
end

