-- ==== Sys2Proof/Machine/Dispatch.lean ====
section
/-! DEFINITION. The meaning of every instruction: one arm for each row of spec/opcode_table.json. -/

namespace Sys2Proof.Machine

def exec (i : Instr) (s : State) : Host.Outcome State Fault Refusal :=
  match i with
  | .cmdT0 addr ctl payload => Sys2Proof.Machine.execCmdT0 addr ctl payload s
  | .cmdT1 addr ctl payload => Sys2Proof.Machine.execCmdT1 addr ctl payload s
  | .cmdT3 addr ctl payload => Sys2Proof.Machine.execCmdT3 addr ctl payload s
  | .cmdT9 addr ctl payload => Sys2Proof.Machine.execCmdT9 addr ctl payload s
  | .cmdT10 addr ctl payload => Sys2Proof.Machine.execCmdT10 addr ctl payload s
  | .cmdT11 addr ctl payload => Sys2Proof.Machine.execCmdT11 addr ctl payload s
  | .cmdT12 addr ctl payload => Sys2Proof.Machine.execCmdT12 addr ctl payload s
  | .cmdT13 addr ctl payload => Sys2Proof.Machine.execCmdT13 addr ctl payload s
  | .cmdT20 addr ctl payload => Sys2Proof.Machine.execCmdT20 addr ctl payload s
  | .cmdT21 addr ctl payload => Sys2Proof.Machine.execCmdT21 addr ctl payload s
  | .cmdT22 addr ctl payload => Sys2Proof.Machine.execCmdT22 addr ctl payload s
  | .cmdT23 addr ctl payload => Sys2Proof.Machine.execCmdT23 addr ctl payload s
  | .cmdT24 addr ctl payload => Sys2Proof.Machine.execCmdT24 addr ctl payload s
  | .cmdT25 addr ctl payload => Sys2Proof.Machine.execCmdT25 addr ctl payload s
  | .cmdT26 addr ctl payload => Sys2Proof.Machine.execCmdT26 addr ctl payload s
  | .cmdT27 addr ctl payload => Sys2Proof.Machine.execCmdT27 addr ctl payload s
  | .rspT129 addr ctl payload => Sys2Proof.Machine.execRspT129 addr ctl payload s
  | .rspT131 addr ctl payload => Sys2Proof.Machine.execRspT131 addr ctl payload s
  | .rspT138 addr ctl payload => Sys2Proof.Machine.execRspT138 addr ctl payload s
  | .rspT139 addr ctl payload => Sys2Proof.Machine.execRspT139 addr ctl payload s
  | .rspT140 addr ctl payload => Sys2Proof.Machine.execRspT140 addr ctl payload s
  | .rspT141 addr ctl payload => Sys2Proof.Machine.execRspT141 addr ctl payload s
  | .rspT148 addr ctl payload => Sys2Proof.Machine.execRspT148 addr ctl payload s
  | .rspT149 addr ctl payload => Sys2Proof.Machine.execRspT149 addr ctl payload s
  | .rspT150 addr ctl payload => Sys2Proof.Machine.execRspT150 addr ctl payload s
  | .rspT151 addr ctl payload => Sys2Proof.Machine.execRspT151 addr ctl payload s
  | .rspT152 addr ctl payload => Sys2Proof.Machine.execRspT152 addr ctl payload s
  | .rspT153 addr ctl payload => Sys2Proof.Machine.execRspT153 addr ctl payload s
  | .rspT154 addr ctl payload => Sys2Proof.Machine.execRspT154 addr ctl payload s
  | .rspT155 addr ctl payload => Sys2Proof.Machine.execRspT155 addr ctl payload s
  | .unmatchedType addr ctl type payload => Sys2Proof.Machine.execUnmatchedType addr ctl type payload s
  | .runtFrame bytes => Sys2Proof.Machine.execRuntFrame bytes s
  | .bitDecode src id pos => Sys2Proof.Machine.execBitDecode src id pos s
  | .bitEncode dst id pos => Sys2Proof.Machine.execBitEncode dst id pos s
  | .byteDecode src id pos => Sys2Proof.Machine.execByteDecode src id pos s
  | .byteEncode dst id pos => Sys2Proof.Machine.execByteEncode dst id pos s
  | .wordDecode src id pos => Sys2Proof.Machine.execWordDecode src id pos s
  | .wordEncode dst id pos => Sys2Proof.Machine.execWordEncode dst id pos s
  | .get id => Sys2Proof.Machine.execGet id s
  | .set id v => Sys2Proof.Machine.execSet id v s
  | .frameDecode t bytes => Sys2Proof.Machine.execFrameDecode t bytes s
  | .frameEncode t => Sys2Proof.Machine.execFrameEncode t s
  | .dispatch bytes => Sys2Proof.Machine.execDispatch bytes s
  | .compatSetBitset bits => Sys2Proof.Machine.execCompatSetBitset bits s
  | .compatGetBitset => Sys2Proof.Machine.execCompatGetBitset s
  | .compatSetHex str => Sys2Proof.Machine.execCompatSetHex str s
  | .compatZero => Sys2Proof.Machine.execCompatZero s
  | .compatDefault => Sys2Proof.Machine.execCompatDefault s
  | .lsIndication c => Sys2Proof.Machine.execLsIndication c s
  | .detCallOr d results => Sys2Proof.Machine.execDetCallOr d results s
  | .csrWrite reg v => Sys2Proof.Machine.execCsrWrite reg v s
  | .csrRead reg => Sys2Proof.Machine.execCsrRead reg s

end Sys2Proof.Machine
end

