-- ==== Sys2Proof/Machine/Turns.lean ====
section
/-! DEFINITION. The agents besides the instructions' meanings: initialisation (R222), the line agent between its frames (R167-R171), and the
interleaving of operations of several variables (R7, R38, R64-R67). -/

namespace Sys2Proof.Machine

/-! ## Initialisation (R157, R222) -/

/-- Step 3 of INIT: the configured compatibility string, or the default matrix where it is absent or rejected (R157, R222). -/
def initCompat (s : State) : Bitset :=
  match s.cfg.compat with
  | none => s.params.defaultCompat
  | some str =>
    match hexBitset str with
    | some bits => bits
    | none => s.params.defaultCompat

/-- INIT (R222), after the definitions have passed their checks (R87, R192, R223) and the packer and the adapter are bound to catalogued
cells (R26). That INIT makes these tests, and in this order, is the model's choice (note 18). No other agent runs yet (R8, R222), so the
matrix is written at once. -/
def execInit (s : State) : Result :=
  match failedCheck s.params with
  | some c => .refused (.badElement c)
  | none =>
    if !bindingsHeld s.params then .refused .badId
    else if !s.cfg.wiringOk then .next { s with boot := .aborted }
    else
      let s := { s with mem := compatTable (initCompat s) s.mem }
      if s.cfg.transportOpens then .next { s with ready := true, boot := .done }
      else .next { s with boot := .aborted }

/-! ## The line agent between its frames (R167, R169, R171) -/

/-- Check point H: an iteration that checks here and finds EN = 0 stops the agent; any other goes on to RxRead, and one that does not check
here will check at A (R167, R169). -/
def passHead (checksHere : Bool) (s : State) : State :=
  if decide (s.loop = .stopped) || !s.atHead then s
  else if checksHere && !s.en then s.stopLine
  else { s with loop := .reading, atHead := false, checkAtA := !checksHere }

/-- Both continuations after a transport error: the agent stops with EN unchanged, or goes on to its next iteration (R171). -/
def afterTransportError (stops : Bool) (s : State) : State := if stops then s.stopLine else s.toHead

/-- RxRead returns TransportError(code), a non-zero code: no frame is delivered and nothing is dispatched (R171). -/
def failRead (code : Nat) (stops : Bool) (s : State) : State :=
  if !s.listening || decide (code = 0) then s
  else afterTransportError stops (s.record (.transportError .read code))

/-- The line agent is in TxWrite (R167). -/
def State.transmitting (s : State) : Bool := decide (s.loop = .writing) && !s.atHead

/-- TxWrite returns OK: the response `TX[0 .. respLen-1]` has gone out, and the next iteration begins (R164, R167). -/
def completeWrite (s : State) : State :=
  if !s.transmitting then s
  else ({ s with sent := s.tx.take s.respLen :: s.sent }.record .served).toHead

/-- TxWrite returns TransportError(code): the dispatch's cell writes stay in place (R171). Whether the response had been handed to the transport
the spec leaves open (R10); the model does not record it in `sent`, which is its choice (note 15). -/
def failWrite (code : Nat) (stops : Bool) (s : State) : State :=
  if !s.transmitting || decide (code = 0) then s
  else afterTransportError stops (s.record (.transportError .write code))

/-! ## Operations in progress (R7, R38, R64) -/

/-- Agent `a` has an operation in progress: it issues no other before that one ends (R8). -/
def State.busy (s : State) (a : Agent) : Bool := s.opens.any fun o => decide (o.agent = a)

/-- One single-variable step, an element through the decoder and its own meaning. -/
def execMicro (m : Micro) (s : State) : Result :=
  match m with
  | .dec src e =>
    match decode (.decElem src e.kind.code e.id e.pos) with
    | .ok i => exec i s
    | .error err => .refused (.badEncoding err)
  | .enc dst e =>
    match decode (.encElem dst e.kind.code e.id e.pos) with
    | .ok i => exec i s
    | .error err => .refused (.badEncoding err)
  | .fill dst addr type len => .next (runMicro (.fill dst addr type len) s)
  | .put dst e v => .next (runMicro (.put dst e v) s)
  | .store id v => .next (runMicro (.store id v) s)
  | .load id slot => .next (runMicro (.load id slot) s)

/-- The place of the step that is taken: the `k`-th of the remaining steps where it reads a cell into the result and those in front of it read
other cells (R67, R152, R180); else the first, in the order of the operation's rule (R7). -/
def chooseMicro (k : Nat) (todo : List Micro) : Nat :=
  match todo[k]? with
  | some (.load id _) => if (todo.take k).all (isOtherLoad id) then k else 0
  | _ => 0

/-- The cell of the `k`-th remaining step, an element encode with none but encode steps in front of it, where it is read ahead of its turn: a
FRAME_ENCODE may meet its cells in any order (R64, R67), while its bytes take the values in declaration order (R121, R123, R237), and every
decode of a dispatch comes before (R166). -/
def aheadCell (k : Nat) (todo : List Micro) : Option VarId :=
  match todo[k]? with
  | some (.enc _ e) => if decide (0 < k) && (todo.take k).all isEncodeStep then some e.id else none
  | _ => none

/-- The state in which agent `a` takes a step of its operation in progress `o`: its own turn, buffer and bits, and its operation taken out of
those in progress. -/
def State.stepping (s : State) (o : OpenOp) (a : Agent) (picks : Picks) : State :=
  { s with who := a, b := o.buf, acc := o.acc, opens := s.opens.filter fun x => !decide (x.agent = a), picks := picks }

/-- Agent `a` takes one step of its operation in progress, or completes it when none is left (R38). A cell that an encode reads, in its turn or
ahead of it, is read once for all its elements (R126). -/
def advanceOp (a : Agent) (k : Nat) (picks : Picks) (s : State) : Result :=
  match s.opens.find? fun o => decide (o.agent = a) with
  | none => .next s
  | some o =>
    let s := s.stepping o a picks
    match aheadCell k o.todo with
    | some id => .next ((s.seeVar id).hold a (o.todo.map (shareRead id (s.readVar id))) o.fin)
    | none =>
      let j := chooseMicro k o.todo
      match o.todo[j]? with
      | none => .next (finishOp o.fin s)
      | some m => holdRest a (stepsAfter m s (o.todo.eraseIdx j)) o.fin (execMicro m s)

/-- How an instruction that writes a cell or touches several begins; none for an instruction that is one step (R59). -/
def startOf (i : Instr) (s : State) : Option Started :=
  match i with
  | .cmdT0 a c p => some (startLine (a :: c :: 0 :: p) s)
  | .cmdT1 a c p => some (startLine (a :: c :: 1 :: p) s)
  | .cmdT3 a c p => some (startLine (a :: c :: 3 :: p) s)
  | .cmdT9 a c p => some (startLine (a :: c :: 9 :: p) s)
  | .cmdT10 a c p => some (startLine (a :: c :: 10 :: p) s)
  | .cmdT11 a c p => some (startLine (a :: c :: 11 :: p) s)
  | .cmdT12 a c p => some (startLine (a :: c :: 12 :: p) s)
  | .cmdT13 a c p => some (startLine (a :: c :: 13 :: p) s)
  | .cmdT20 a c p => some (startLine (a :: c :: 20 :: p) s)
  | .cmdT21 a c p => some (startLine (a :: c :: 21 :: p) s)
  | .cmdT22 a c p => some (startLine (a :: c :: 22 :: p) s)
  | .cmdT23 a c p => some (startLine (a :: c :: 23 :: p) s)
  | .cmdT24 a c p => some (startLine (a :: c :: 24 :: p) s)
  | .cmdT25 a c p => some (startLine (a :: c :: 25 :: p) s)
  | .cmdT26 a c p => some (startLine (a :: c :: 26 :: p) s)
  | .cmdT27 a c p => some (startLine (a :: c :: 27 :: p) s)
  | .rspT129 a c p => some (startLine (a :: c :: 129 :: p) s)
  | .rspT131 a c p => some (startLine (a :: c :: 131 :: p) s)
  | .rspT138 a c p => some (startLine (a :: c :: 138 :: p) s)
  | .rspT139 a c p => some (startLine (a :: c :: 139 :: p) s)
  | .rspT140 a c p => some (startLine (a :: c :: 140 :: p) s)
  | .rspT141 a c p => some (startLine (a :: c :: 141 :: p) s)
  | .rspT148 a c p => some (startLine (a :: c :: 148 :: p) s)
  | .rspT149 a c p => some (startLine (a :: c :: 149 :: p) s)
  | .rspT150 a c p => some (startLine (a :: c :: 150 :: p) s)
  | .rspT151 a c p => some (startLine (a :: c :: 151 :: p) s)
  | .rspT152 a c p => some (startLine (a :: c :: 152 :: p) s)
  | .rspT153 a c p => some (startLine (a :: c :: 153 :: p) s)
  | .rspT154 a c p => some (startLine (a :: c :: 154 :: p) s)
  | .rspT155 a c p => some (startLine (a :: c :: 155 :: p) s)
  | .unmatchedType a c t p => some (startLine (a :: c :: t :: p) s)
  | .runtFrame bytes => some (startLine bytes s)
  | .bitDecode _ _ _ => none
  | .bitEncode _ _ _ => none
  | .byteDecode _ _ _ => none
  | .byteEncode _ _ _ => none
  | .wordDecode _ _ _ => none
  | .wordEncode _ _ _ => none
  | .get _ => none
  | .set id v => some (startSet id v s)
  | .frameDecode t bytes => some (startFrameDecode t bytes s)
  | .frameEncode t => some (startFrameEncode t s)
  | .dispatch bytes => some (startDispatch bytes s)
  | .compatSetBitset bits => some (startCompatSet bits s)
  | .compatGetBitset => some (startCompatGet s)
  | .compatSetHex str => some (startCompatHex str s)
  | .compatZero => some (startCompatSet 0 s)
  | .compatDefault => some (startCompatDefault s)
  | .lsIndication c => some (startLsIndication c s)
  | .detCallOr d results => some (startDetCallOr d results s)
  | .csrWrite _ _ => none
  | .csrRead _ => none

/-- An instruction begins and, where it has several steps, stays in progress (R7, R38). -/
def beginInstr (i : Instr) (s : State) : Result :=
  match startOf i s with
  | some st => holdStarted s.who st
  | none => exec i s

/-! ## Turns -/

/-- A host agent's operation arrives as bytes: decoded and run, on the caller's buffer that comes with it (R50, R101). -/
def runHost (a : Nat) (bytes buf : List Byte) (picks : Picks) (s : State) : Result :=
  match decode (.host bytes) with
  | .ok i => exec i { s with who := .host a, b := buf, picks := picks }
  | .error e => .refused (.badEncoding e)

/-- The same operation, begun and left in progress. -/
def beginHost (a : Nat) (bytes buf : List Byte) (picks : Picks) (s : State) : Result :=
  match decode (.host bytes) with
  | .ok i => beginInstr i { s with who := .host a, b := buf, picks := picks }
  | .error e => .refused (.badEncoding e)

/-- One turn. `s` has the turn taken off; `s0` still has it, for an agent that is busy and issues its operation later. -/
def takeTurn (t : Turn) (s0 s : State) : Result :=
  match t with
  | .host a bytes buf picks => if s.busy (.host a) then advanceOp (.host a) 0 picks s0 else runHost a bytes buf picks s
  | .hostBegin a bytes buf picks => if s.busy (.host a) then advanceOp (.host a) 0 picks s0 else beginHost a bytes buf picks s
  | .rx bytes picks => exec (decodeLine bytes) { s with who := .line, picks := picks }
  | .rxBegin bytes => beginInstr (decodeLine bytes) { s with who := .line, picks := [] }
  | .advance a k picks => advanceOp a k picks s
  | .lineHead checksHere => .next (passHead checksHere s)
  | .rxError code stops => .next (failRead code stops s)
  | .txDone => .next (completeWrite s)
  | .txError code stops => .next (failWrite code stops s)

/-- One step of the block: none once a fault is latched (R194); initialisation first (R222, R223); then the next turn, and nothing where
no agent moves (R239). -/
def takeStep (s : State) : Result :=
  match s.fault with
  | some f => .fault f
  | none =>
    match s.boot with
    | .pending => execInit s
    | .done | .aborted =>
      match s.turns with
      | [] => .next s
      | t :: rest => takeTurn t s { s with turns := rest }

/-! ## Placing an instruction -/

/-- The caller's buffer a host operation needs: FRAME_ENCODE's is exactly as long as its definition (R131). -/
def callerBuffer (p : Params) (bytes : List Byte) : List Byte :=
  match decode (.host bytes) with
  | .ok (.frameEncode t) =>
    match frameOf p t with
    | some d => List.replicate d.len 0
    | none => []
  | _ => []

/-- Initialisation is over, and what carries an instruction is the next thing to happen at its port: a host operation of host agent 0, or a
frame delivered to a line agent that is reading. An element descriptor is no port's, and places nothing. -/
def placeEncoded (e : Encoded) (s : State) : State :=
  match e with
  | .host bytes => { s with boot := .done, turns := .host 0 bytes (callerBuffer s.params bytes) [] :: s.turns }
  | .line bytes =>
    { s with boot := .done, turns := .rx bytes [] :: s.turns, ready := true, en := true, loop := .reading, atHead := false, checkAtA := false }
  | .decElem _ _ _ _ => s
  | .encElem _ _ _ _ => s

end Sys2Proof.Machine
end

