-- ==== Sys2Proof/Machine/Step.lean ====
section
/-! DEFINITION. The step, and where an instruction is placed so that the next step runs it. -/

namespace Sys2Proof.Machine

/-- One step of the block (R7). -/
def step (s : State) : Host.Outcome State Fault Refusal := takeStep s

/-- `s` with the instruction of the opcode table's number `w` as the next thing that happens. -/
def State.withFetchWord (s : State) (nbits w : Nat) : State := placeEncoded (tableEncoded nbits w) s

end Sys2Proof.Machine
end

