-- ==== Sys2Proof/Safety.lean ====
section
/-! DEFINITION. What counts as a safe run and a legal state, in the words the statements use. -/

namespace Sys2Proof.Machine

/-- No fault is latched: the faulted state "is never a normal end state" (R194). -/
def State.healthy (s : State) : Bool := !s.faulted

/-- The next `k` steps are taken, and none of them latches a fault. -/
def runsHealthy : Nat → State → Bool
  | 0, s => s.healthy
  | k + 1, s =>
    s.healthy && match step s with
      | .next s' => runsHealthy k s'
      | .fault _ => false
      | .refused _ => false

/-- A single-variable step that names a catalogued cell and stores only what the cell's type holds (R21, R87). -/
def microLegal (p : Params) : Micro → Bool
  | .dec _ e => decide (e.id.ty = kindType e.kind) && inCatalog p e.id
  | .store id v => inCatalog p id && valueFits id.ty v
  | .fill _ _ _ _ => true
  | .enc _ _ => true
  | .put _ _ _ => true
  | .load _ _ => true

/-- The variable table is in canonical form, every value fits its cell's type, and no cell outside the catalogue holds anything (R21,
R23, R113). -/
def State.tableLegal (s : State) : Bool := s.mem.wf && s.mem.typed && s.mem.within s.params.catalog

/-- Every older value that an agent may still read is one of a catalogued cell, fits its type, and was superseded by an operation that is still
in progress (R21, R64, R65). So where no operation is in progress, no older value is left: the "quiescent snapshot" of R65. -/
def State.pastLegal (s : State) : Bool :=
  s.past.all fun e => inCatalog s.params e.id && valueFits e.id.ty e.value && s.busy e.writer

/-- The parameters meet their constraints (R5), the variable table is legal, the response buffer has its fixed size (R31), the operations in
progress have only legal steps left, and the older values that agents may still read are legal. -/
def State.legal (s : State) : Bool :=
  paramsAdmissible s.params && s.tableLegal && decide (s.tx.length = respBufLen s.params)
    && (s.opens.all fun o => o.todo.all (microLegal s.params)) && s.pastLegal

/-- The operation in progress is the line agent's dispatch. -/
def isLineDispatch (o : OpenOp) : Bool :=
  match o.fin with
  | .transmit _ => true
  | _ => false

/-- The line agent's control (R8, R37, R167, R168, R222, R230): the loop is enabled, and a line agent lives, only after the transport has
opened; a stopped agent stands at no check point; at most one dispatch is in progress, and the line agent's is in progress only while
LoopState is Dispatching. -/
def State.controlLegal (s : State) : Bool :=
  (!s.en || s.ready) && (decide (s.loop = .stopped) || s.ready)
    && (decide (s.loop ≠ .stopped) || (!s.atHead && !s.checkAtA))
    && decide (s.opens.countP (fun o => isDispatchFinish o.fin) ≤ 1)
    && s.opens.all fun o => !isLineDispatch o || (decide (s.loop = .dispatching) && !s.atHead)

/-- The line agent takes a frame that is delivered now, and dispatches it: it is in RxRead, this iteration does not end at check point A,
and no host dispatch is in progress (R167, R170). -/
def State.serves (s : State) : Bool := s.listening && (!s.checkAtA || s.en) && !s.dispatchOpen

/-- The last element of a definition, in declaration order, that names `id` (R126). -/
def lastNaming (es : List Element) (id : VarId) : Option Element := es.reverse.find? fun e => decide (e.id = id)

/-! ## The order of a cell's values (R65) -/

/-- The values of a cell that agent `a` may still read, in the cell's order, the newest last (R64, R65). -/
def State.readable (s : State) (a : Agent) (id : VarId) : List Half :=
  ((s.past.filter fun e => decide (e.id = id) && decide (a ∉ e.seen)).map (·.value)) ++ [s.getVar id]

/-- The second list is the first with new values put in at any places. -/
inductive PutIn (new : Half → Prop) : List Half → List Half → Prop where
  | nil : PutIn new [] []
  | keep {v : Half} {before after : List Half} : PutIn new before after → PutIn new (v :: before) (v :: after)
  | put {v : Half} {before after : List Half} : new v → PutIn new before after → PutIn new before (v :: after)

/-- The cell write that a single-variable step makes. -/
def microWrites (s : State) : Micro → List (VarId × Half)
  | .dec src e => [(e.id, elementValue (s.decBuf src) e)]
  | .store id v => [(id, v)]
  | .fill _ _ _ _ => []
  | .enc _ _ => []
  | .put _ _ _ => []
  | .load _ _ => []

/-- The cell writes that agent `a`'s operation in progress has still to make. -/
def State.pendingWrites (s : State) (a : Agent) : List (VarId × Half) :=
  match s.opens.find? fun o => decide (o.agent = a) with
  | some o => o.todo.flatMap (microWrites { s with b := o.buf })
  | none => []

/-- The cell writes of the whole operation that is encoded so. -/
def State.issuedWrites (s : State) (e : Encoded) : List (VarId × Half) :=
  match decode e with
  | .ok i =>
    match startOf i s with
    | some (.going s' todo _) => todo.flatMap (microWrites s')
    | _ => []
  | .error _ => []

/-- The cell writes of the operation that the next turn runs, or takes a step of. -/
def State.stepWrites (s : State) : List (VarId × Half) :=
  match s.turns with
  | .host a bytes buf picks :: rest =>
    if s.busy (.host a) then s.pendingWrites (.host a)
    else { s with turns := rest, who := .host a, b := buf, picks := picks }.issuedWrites (.host bytes)
  | .hostBegin a _ _ _ :: _ => s.pendingWrites (.host a)
  | .rx bytes picks :: rest => { s with turns := rest, who := .line, picks := picks }.issuedWrites (.line bytes)
  | .advance a _ _ :: _ => s.pendingWrites a
  | _ => []

/-- The frames of the 16 command types of the table, each with its type byte (R85). -/
def commandForms (a c : Byte) (p : List Byte) : List (Instr × Byte) :=
  [(.cmdT0 a c p, 0), (.cmdT1 a c p, 1), (.cmdT3 a c p, 3), (.cmdT9 a c p, 9), (.cmdT10 a c p, 10), (.cmdT11 a c p, 11),
   (.cmdT12 a c p, 12), (.cmdT13 a c p, 13), (.cmdT20 a c p, 20), (.cmdT21 a c p, 21), (.cmdT22 a c p, 22),
   (.cmdT23 a c p, 23), (.cmdT24 a c p, 24), (.cmdT25 a c p, 25), (.cmdT26 a c p, 26), (.cmdT27 a c p, 27)]

/-- The frames of the 14 response types of the table, each with its type byte (R85). -/
def responseForms (a c : Byte) (p : List Byte) : List (Instr × Byte) :=
  [(.rspT129 a c p, 129), (.rspT131 a c p, 131), (.rspT138 a c p, 138), (.rspT139 a c p, 139), (.rspT140 a c p, 140),
   (.rspT141 a c p, 141), (.rspT148 a c p, 148), (.rspT149 a c p, 149), (.rspT150 a c p, 150), (.rspT151 a c p, 151),
   (.rspT152 a c p, 152), (.rspT153 a c p, 153), (.rspT154 a c p, 154), (.rspT155 a c p, 155)]

end Sys2Proof.Machine
end

