-- ==== Sys2Proof/Certificates/Slice0/Obligations.lean ====
section
/-! DEFINITION. The statements about the block. Each says what an instruction or the machine does by a numbered rule of spec/. A
statement about an instruction gives its next state as the old state with the named fields changed: every field that is not named
is unchanged. -/

open Sys2Proof Sys2Proof.Machine

/-! ## Encodings -/

/-- R80, R86, R94, R101: the decoder reads back every well-formed instruction from its encoding. -/
def Obligations.DecodeOfEncodeIsTheInstruction : Prop :=
  ∀ i : Instr, i.wf = true → decode (encode i) = .ok i

/-- R80, R83, R86, R100, R101: an encoding that the decoder accepts has one meaning, whose encoding it is; no bit of it is dropped. -/
def Obligations.EncodeOfDecodeIsTheEncoding : Prop :=
  ∀ (e : Encoded) (i : Instr), decode e = .ok i → encode i = e

/-- Words that spec/95_test_vectors.md and R100 write out, on the line port, on the host port and in the definition store. -/
def Obligations.SpecEncodingsDecode : Prop :=
  decode (.line [0x10, 0x83, 0x03]) = .ok (.cmdT3 0x10 0x83 [])
  ∧ decode (.line [0x10, 0x83, 0x83]) = .ok (.rspT131 0x10 0x83 [])
  ∧ decode (.line [0x10, 0x83, 0x07]) = .ok (.unmatchedType 0x10 0x83 0x07 [])
  ∧ decode (.line [0x10, 0x83]) = .ok (.runtFrame [0x10, 0x83])
  ∧ decode (.host [0x02, 0x01, 0x00, 0x05, 0x01, 0x01, 0x00]) = .ok (.set ⟨.mmu, .b1, 0x0105⟩ 1)
  ∧ decode (.host [0x01, 0x02, 0x02, 0x01, 0x00]) = .ok (.get ⟨.ioi, .u16, 1⟩)
  ∧ decode (.host [0x03, 0x70, 0x08, 0x00, 0x10, 0x83, 0x70, 0x00, 0xA5, 0x34, 0x12, 0x02])
      = .ok (.frameDecode 0x70 [0x10, 0x83, 0x70, 0x00, 0xA5, 0x34, 0x12, 0x02])
  ∧ decode (.host [0x05, 0x03, 0x00, 0x10, 0x83, 0x03]) = .ok (.dispatch [0x10, 0x83, 0x03])
  ∧ decode (.host [0x13]) = .ok .compatZero
  ∧ decode (.host [0x21, 0x07, 0x02, 0x00, 0x01]) = .ok (.detCallOr 7 [false, true])
  ∧ decode (.host [0x30, 0x00, 0x01]) = .ok (.csrWrite 0 1)
  ∧ decode (.decElem .rx 2 ⟨.ioi, .u16, 1⟩ 5) = .ok (.wordDecode .rx ⟨.ioi, .u16, 1⟩ 5)

/-! ## Steps -/

/-- R7, R100, R195: when the bytes that a host agent with no operation in progress issues decode to an instruction, the step runs it, as
that agent, on the caller's buffer that comes with it, with the turn taken off. The turns, and the choices among overlapped values that they
carry, are the model's own form of what happens at the ports (log entries 4, 7). -/
def Obligations.StepRunsTheHostOperation : Prop :=
  ∀ (s : State) (a : Nat) (bytes buf : List Byte) (picks : Picks) (rest : List Turn) (i : Instr),
    s.fault = none → s.boot ≠ .pending → s.turns = .host a bytes buf picks :: rest → s.busy (.host a) = false →
    decode (.host bytes) = .ok i →
    step s = exec i { s with turns := rest, who := .host a, b := buf, picks := picks }

/-- R7, R167, R195: when the transport delivers bytes, the step runs the instruction they decode to, as the line agent, with the turn taken
off. The turns, and the choices among overlapped values that they carry, are the model's own form of what happens at the ports (log entries
4, 7). -/
def Obligations.StepRunsTheDeliveredFrame : Prop :=
  ∀ (s : State) (bytes : List Byte) (picks : Picks) (rest : List Turn) (i : Instr),
    s.fault = none → s.boot ≠ .pending → s.turns = .rx bytes picks :: rest → decode (.line bytes) = .ok i →
    step s = exec i { s with turns := rest, who := .line, picks := picks }

/-- R38, R130, R131: when the next single-variable step of an operation in progress is an element whose descriptor decodes to an
instruction, the step runs that instruction on the operation's own buffer, and the operation goes on with the rest of its steps, in which a
cell that an encode has read is not read again (R126, log entry 24). The turns are the model's own form of which agent moves (log entry 4). -/
def Obligations.StepRunsTheElementOfAnOperation : Prop :=
  ∀ (s t : State) (rest : List Turn) (picks : Picks) (o : OpenOp) (m : Micro) (todo : List Micro) (e : Encoded) (i : Instr),
    s.fault = none → s.boot ≠ .pending → s.turns = .advance o.agent 0 picks :: rest →
    s.opens.find? (fun x => decide (x.agent = o.agent)) = some o → o.todo = m :: todo →
    (∀ src x, m = .dec src x → e = .decElem src x.kind.code x.id x.pos) →
    (∀ dst x, m = .enc dst x → e = .encElem dst x.kind.code x.id x.pos) →
    ((∃ src x, m = .dec src x) ∨ (∃ dst x, m = .enc dst x)) →
    decode e = .ok i →
    exec i (({ s with turns := rest } : State).stepping o o.agent picks) = .next t →
    step s = .next { t with opens := t.opens ++
      [⟨o.agent, stepsAfter m (({ s with turns := rest } : State).stepping o o.agent picks) todo, o.fin, t.b, t.acc⟩] }

/-! ## Faults -/

/-- R35, R191, R194: raising a fault latches it and its code in STATUS, 1 for RuntFrame, 2 for ShortFrame, 3 for ConcurrentDispatch and 4 for
RestartRace; a fault that is latched already stays; once one is latched no agent has a step; and reset clears the latch. -/
def Obligations.FaultLatchKeepsTheFirstFault : Prop :=
  (∀ (s : State) (f : Fault), s.fault = none →
    raiseFault f s = { s with fault := some f }
    ∧ (raiseFault f s).statusReg.getLsbD 1 = true
    ∧ ((raiseFault f s).statusReg >>> 4).toNat
        = match f with
          | .runtFrame _ => 1
          | .shortFrame _ _ => 2
          | .concurrentDispatch => 3
          | .restartRace => 4)
  ∧ (∀ (s : State) (f g : Fault), s.fault = some g → raiseFault f s = s)
  ∧ (∀ (s : State) (f : Fault), s.fault = some f → step s = .fault f)
  ∧ (∀ (p : Params) (c : Cfg), (State.resetWith p c).fault = none)

/-! ## Reset and initialisation -/

/-- R220: what reset leaves, for all parameters and every configuration, and that initialisation is the first step after it. -/
def Obligations.ResetLeavesTheSpecValues : Prop :=
  ∀ (p : Params) (c : Cfg),
    (∀ id, (State.resetWith p c).getVar id = 0)
    ∧ (State.resetWith p c).tx = List.replicate (respBufLen p) 0
    ∧ (State.resetWith p c).en = false ∧ (State.resetWith p c).ready = false
    ∧ (State.resetWith p c).faulted = false ∧ (State.resetWith p c).fcode = 0 ∧ (State.resetWith p c).fault = none
    ∧ (State.resetWith p c).loop = .stopped ∧ (State.resetWith p c).opens = []
    ∧ (State.resetWith p c).params = p
    ∧ step (State.resetWith p c) = execInit (State.resetWith p c)

/-- R157, R222: initialisation with wiring that can be applied leaves in the compatibility cells the configured string's matrix where the
string is accepted, and the default matrix where it is absent or rejected; READY says whether the transport opened; and every cell
that is no compatibility cell, and every other field, is unchanged. -/
def Obligations.InitAppliesTheConfiguration : Prop :=
  ∀ (s : State), s.fault = none → s.boot = .pending → paramsWf s.params = true → bindingsHeld s.params = true → s.mem.wf = true →
    s.cfg.wiringOk = true →
    ∃ t, step s = .next t
      ∧ t = { s with mem := t.mem, ready := s.ready || s.cfg.transportOpens,
                     boot := if s.cfg.transportOpens then .done else .aborted }
      ∧ (∀ l r, 1 ≤ l → l < r → r ≤ 16 →
          (s.cfg.compat = none → t.getVar (compatId l r) = halfOfBit (s.params.defaultCompat.getLsbD (compatOff l r)))
          ∧ (∀ str, s.cfg.compat = some str → hexBitset str = none →
              t.getVar (compatId l r) = halfOfBit (s.params.defaultCompat.getLsbD (compatOff l r)))
          ∧ (∀ str bits, s.cfg.compat = some str → hexBitset str = some bits →
              t.getVar (compatId l r) = halfOfBit (bits.getLsbD (compatOff l r))))
      ∧ (∀ id, (∀ l r, 1 ≤ l → l < r → r ≤ 16 → compatId l r ≠ id) → t.getVar id = s.getVar id)

/-- R26, R87, R192, R222, R223: a block is not built with definitions that fail a check of R87, nor with an adapter binding outside the catalogue;
malformed wiring aborts initialisation with nothing else changed. That INIT itself makes the checks, with the bounds and in the order of
`failedCheck` and the definitions before the bindings, and that its step is refused there, is the model's choice (log entry 18). -/
def Obligations.InitRefusesOrAborts : Prop :=
  (∀ (s : State) (c : WfCheck), s.fault = none → s.boot = .pending → failedCheck s.params = some c →
    step s = .refused (.badElement c))
  ∧ (∀ (s : State), s.fault = none → s.boot = .pending → paramsWf s.params = true → bindingsHeld s.params = false →
    step s = .refused .badId)
  ∧ (∀ (s : State), s.fault = none → s.boot = .pending → paramsWf s.params = true → bindingsHeld s.params = true →
    s.cfg.wiringOk = false → step s = .next { s with boot := .aborted })

/-! ## The variable table -/

/-- R62, R64, R110: GET answers a value of the cell's type to its agent, and no cell and nothing else changes but which older values the agent may
still read. The value is the cell's, or one that it held before a write of an operation in progress which the agent has not passed; where the
read stands at the end of the cell's order (no operation in progress is writing the cell, or no older value is chosen) it is the cell's. -/
def Obligations.GetReturnsTheCell : Prop :=
  ∀ (s : State) (id : VarId), inCatalog s.params id = true →
    ∃ (v : Half) (past : List Superseded),
      exec (.get id) s = .next { s with past := past, replies := (s.who, .value v) :: s.replies }
      ∧ (v = s.getVar id ∨ ∃ e ∈ s.past, e.id = id ∧ s.who ∉ e.seen ∧ v = e.value)
      ∧ (s.depth id = 0 → v = s.getVar id)
      ∧ (s.mem.typed = true → (∀ e ∈ s.past, valueFits e.id.ty e.value = true) → v.toNat < 2 ^ typeWidth id.ty)

/-- R21, R22, R60, R65, R111: SET leaves the value in the cell, every other cell and everything else unchanged, and returns OK; where it stands
at the end of the cell's order (see RacingWritesLeaveEitherValue for a SET that races). Where no operation is in progress it leaves no older
value to read. -/
def Obligations.SetWritesTheCell : Prop :=
  ∀ (s : State) (id : VarId) (v : Half), s.mem.wf = true → s.depth id = 0 → inCatalog s.params id = true →
    v.toNat < 2 ^ typeWidth id.ty →
    ∃ t, exec (.set id v) s = .next t
      ∧ t = { s with mem := t.mem, past := t.past, replies := (s.who, .ok) :: s.replies }
      ∧ t.getVar id = v ∧ (∀ id', id' ≠ id → t.getVar id' = s.getVar id') ∧ (s.past = [] → t.past = [])

/-- R26, R111, R180, R181, R192: operations that name no cell of the catalogue, a value outside its type, a channel outside 1..16 or a detector
outside 1..64 are refused, whatever the state. Which refusal is named where several apply is the model's (log entry 23). -/
def Obligations.IllegalOperandsAreRefused : Prop :=
  (∀ (s : State) (id : VarId), inCatalog s.params id = false → exec (.get id) s = .refused .badId)
  ∧ (∀ (s : State) (id : VarId) (v : Half), inCatalog s.params id = false → exec (.set id v) s = .refused .badId)
  ∧ (∀ (s : State) (id : VarId) (v : Half), inCatalog s.params id = true → 2 ^ typeWidth id.ty ≤ v.toNat →
      exec (.set id v) s = .refused .badValue)
  ∧ (∀ (s : State) (c : Byte), c.toNat = 0 ∨ 16 < c.toNat → exec (.lsIndication c) s = .refused .badOperand)
  ∧ (∀ (s : State) (c : Byte), 1 ≤ c.toNat → c.toNat ≤ 16 →
      inCatalog s.params (lsGreenId s.params c.toNat) = false ∨ inCatalog s.params (lsYellowId s.params c.toNat) = false
        ∨ inCatalog s.params (lsRedId s.params c.toNat) = false →
      exec (.lsIndication c) s = .refused .badId)
  ∧ (∀ (s : State) (d : Byte) (results : List Bool), d.toNat = 0 ∨ 64 < d.toNat →
      exec (.detCallOr d results) s = .refused .badOperand)
  ∧ (∀ (s : State) (d : Byte) (results : List Bool), 1 ≤ d.toNat → d.toNat ≤ 64 →
      inCatalog s.params (detCallId s.params d.toNat) = false → exec (.detCallOr d results) s = .refused .badId)

/-- R20, R25, R26: whatever the catalogue lists, for l ≥ 1 and r < 256 `MMU.b1[l·256 + r]` names no cell unless l < r ≤ 16: GET and SET of such an
identity are refused in every state. (An index below 256, l = 0, is no pair's and may be catalogued.) That an index beyond the last pair's is read as an index of this family too is the model's (log entry 22). -/
def Obligations.NoCellForAPairThatIsNone : Prop :=
  ∀ (s : State) (l r : Nat) (v : Half), 1 ≤ l → r < 256 → r ≤ l ∨ 16 < r →
    exec (.get ⟨.mmu, .b1, l * 256 + r⟩) s = .refused .badId ∧ exec (.set ⟨.mmu, .b1, l * 256 + r⟩ v) s = .refused .badId

/-! ## Elements -/

/-- R52, R53, R54, R88, R90: the bits of the two bytes at `pos` are the bits of the word at `pos`, low byte first. -/
def Obligations.WordAndBitViewsAgree : Prop :=
  ∀ (buf : List Byte) (pos i : Nat), i < 8 →
    bitAt buf (8 * pos + i) = (wordAt buf pos).getLsbD i
    ∧ bitAt buf (8 * (pos + 1) + i) = (wordAt buf pos).getLsbD (8 + i)

/-- R58, R88-R90, R120, R122, R124, R128: an element decode that passes its checks, and whose write
stands at the end of its cell's order, stores its operand in its cell, and changes no other cell and nothing else. -/
def Obligations.ElementDecodesWriteTheirCell : Prop :=
  ∀ (s : State) (src : DecBuf) (id : VarId) (pos : Nat), s.mem.wf = true → s.depth id = 0 → inCatalog s.params id = true →
    (id.ty = .b1 → 24 ≤ pos → pos < 8 * (s.decBuf src).length →
      ∃ t, exec (.bitDecode src id pos) s = .next t ∧ t = { s with mem := t.mem, past := t.past }
        ∧ t.getVar id = (if (byteAt (s.decBuf src) (pos / 8)).getLsbD (pos % 8) then 1 else 0)
        ∧ (∀ id', id' ≠ id → t.getVar id' = s.getVar id'))
    ∧ (id.ty = .u8 → 3 ≤ pos → pos < (s.decBuf src).length →
      ∃ t, exec (.byteDecode src id pos) s = .next t ∧ t = { s with mem := t.mem, past := t.past }
        ∧ (t.getVar id).toNat = (byteAt (s.decBuf src) pos).toNat
        ∧ (∀ id', id' ≠ id → t.getVar id' = s.getVar id'))
    ∧ (id.ty = .u16 → 3 ≤ pos → pos + 1 < (s.decBuf src).length →
      ∃ t, exec (.wordDecode src id pos) s = .next t ∧ t = { s with mem := t.mem, past := t.past }
        ∧ (t.getVar id).toNat = (byteAt (s.decBuf src) pos).toNat + 256 * (byteAt (s.decBuf src) (pos + 1)).toNat
        ∧ (∀ id', id' ≠ id → t.getVar id' = s.getVar id'))

/-- R58, R121, R123, R125, R128: an element encode that passes its checks, and whose read stands at the end of its cell's order, ORs its cell's bit
into its byte, or assigns its byte or its two bytes, low byte first; every other byte of that buffer, every cell and everything else is
unchanged. -/
def Obligations.ElementEncodesWriteTheirBytes : Prop :=
  ∀ (s : State) (dst : EncBuf) (id : VarId) (pos : Nat), s.depth id = 0 → inCatalog s.params id = true →
    (id.ty = .b1 → 24 ≤ pos → pos < 8 * (s.encBuf dst).length →
      ∃ t, exec (.bitEncode dst id pos) s = .next t ∧ t = { s.setEncBuf dst (t.encBuf dst) with past := t.past }
        ∧ (t.encBuf dst).length = (s.encBuf dst).length
        ∧ (∀ p, bitAt (t.encBuf dst) p = (bitAt (s.encBuf dst) p || (decide (p = pos) && s.getBit id))))
    ∧ (id.ty = .u8 → 3 ≤ pos → pos < (s.encBuf dst).length →
      ∃ t, exec (.byteEncode dst id pos) s = .next t ∧ t = { s.setEncBuf dst (t.encBuf dst) with past := t.past }
        ∧ (t.encBuf dst).length = (s.encBuf dst).length
        ∧ (∀ a, byteAt (t.encBuf dst) a = if a = pos then (s.getVar id).setWidth 8 else byteAt (s.encBuf dst) a))
    ∧ (id.ty = .u16 → 3 ≤ pos → pos + 1 < (s.encBuf dst).length →
      ∃ t, exec (.wordEncode dst id pos) s = .next t ∧ t = { s.setEncBuf dst (t.encBuf dst) with past := t.past }
        ∧ (t.encBuf dst).length = (s.encBuf dst).length
        ∧ (∀ a, byteAt (t.encBuf dst) a =
            if a = pos then (s.getVar id).extractLsb' 0 8
            else if a = pos + 1 then (s.getVar id).extractLsb' 8 8
            else byteAt (s.encBuf dst) a))

/-- R58, R86, R87, R192: an element of any of the six primitives whose type is not its kind's, whose identity is not catalogued, or whose position
is outside its buffer is refused, whatever the state. The order of the three checks, and the bound being the length of the buffer the element
is given, are the model's (log entries 19, 23). -/
def Obligations.IllFormedElementsAreRefused : Prop :=
  ∀ (s : State) (src : DecBuf) (dst : EncBuf) (id : VarId) (pos : Nat),
    (id.ty ≠ .b1 → exec (.bitDecode src id pos) s = .refused (.badElement .kindType)
      ∧ exec (.bitEncode dst id pos) s = .refused (.badElement .kindType))
    ∧ (id.ty ≠ .u8 → exec (.byteDecode src id pos) s = .refused (.badElement .kindType)
      ∧ exec (.byteEncode dst id pos) s = .refused (.badElement .kindType))
    ∧ (id.ty ≠ .u16 → exec (.wordDecode src id pos) s = .refused (.badElement .kindType)
      ∧ exec (.wordEncode dst id pos) s = .refused (.badElement .kindType))
    ∧ (id.ty = .b1 → inCatalog s.params id = false → exec (.bitDecode src id pos) s = .refused (.badElement .id)
      ∧ exec (.bitEncode dst id pos) s = .refused (.badElement .id))
    ∧ (id.ty = .u8 → inCatalog s.params id = false → exec (.byteDecode src id pos) s = .refused (.badElement .id)
      ∧ exec (.byteEncode dst id pos) s = .refused (.badElement .id))
    ∧ (id.ty = .u16 → inCatalog s.params id = false → exec (.wordDecode src id pos) s = .refused (.badElement .id)
      ∧ exec (.wordEncode dst id pos) s = .refused (.badElement .id))
    ∧ (id.ty = .b1 → inCatalog s.params id = true →
        (pos < 24 ∨ 8 * (s.decBuf src).length ≤ pos → exec (.bitDecode src id pos) s = .refused (.badElement .bounds))
        ∧ (pos < 24 ∨ 8 * (s.encBuf dst).length ≤ pos → exec (.bitEncode dst id pos) s = .refused (.badElement .bounds)))
    ∧ (id.ty = .u8 → inCatalog s.params id = true →
        (pos < 3 ∨ (s.decBuf src).length ≤ pos → exec (.byteDecode src id pos) s = .refused (.badElement .bounds))
        ∧ (pos < 3 ∨ (s.encBuf dst).length ≤ pos → exec (.byteEncode dst id pos) s = .refused (.badElement .bounds)))
    ∧ (id.ty = .u16 → inCatalog s.params id = true →
        (pos < 3 ∨ (s.decBuf src).length ≤ pos + 1 → exec (.wordDecode src id pos) s = .refused (.badElement .bounds))
        ∧ (pos < 3 ∨ (s.encBuf dst).length ≤ pos + 1 → exec (.wordEncode dst id pos) s = .refused (.badElement .bounds)))

/-! ## Frames -/

/-- R22, R59, R81, R97, R126, R130: FRAME_DECODE of a frame that is long enough leaves in every cell that the definition names the value of the
last element that names it, whatever the header and the undeclared bits hold; every other cell and everything else but the caller's
buffer is unchanged, and it returns OK. Its writes stand at the end of their cells' orders; where no operation is in progress it leaves no
older value to read. -/
def Obligations.FrameDecodeLeavesTheLastElements : Prop :=
  ∀ (s : State) (t : Byte) (bytes : List Byte) (d : FrameDef),
    s.mem.wf = true → s.plain → frameOf s.params t = some d → isReceived d.dir = true → 3 ≤ bytes.length → d.len ≤ bytes.length →
    ∃ u, exec (.frameDecode t bytes) s = .next u
      ∧ (s.past = [] → u.past = [])
      ∧ u = { s with b := bytes, mem := u.mem, past := u.past, replies := (s.who, .ok) :: s.replies }
      ∧ ∀ id, u.getVar id = match lastNaming d.elems id with
          | some e => elementValue bytes e
          | none => s.getVar id

/-- R130, R163, R191, R197: FRAME_DECODE of fewer than 3 bytes raises RuntFrame, and of fewer than the definition's raises ShortFrame; nothing but
the fault latch changes. -/
def Obligations.FrameDecodeOfShortFramesFaults : Prop :=
  ∀ (s : State) (t : Byte) (bytes : List Byte) (d : FrameDef),
    frameOf s.params t = some d → isReceived d.dir = true → s.fault = none →
    (bytes.length < 3 → exec (.frameDecode t bytes) s = .next { s with fault := some (.runtFrame bytes.length) })
    ∧ (3 ≤ bytes.length → bytes.length < d.len →
        exec (.frameDecode t bytes) s = .next { s with fault := some (.shortFrame t bytes.length) })

/-- R132, R192: FRAME_DECODE of a generated definition and FRAME_ENCODE of a received one are refused; so a command definition of the dispatch
table is decode-only, and a response definition encode-only. That the direction is named as the reason also where FRAME_ENCODE's buffer has
another length than the definition, or FRAME_DECODE's bytes are too few, is the model's choice (log entry 23). -/
def Obligations.DirectionsAreRestricted : Prop :=
  (∀ (s : State) (t : Byte) (bytes : List Byte) (d : FrameDef), frameOf s.params t = some d →
      d.dir = .rspGenBySecondary ∨ d.dir = .cmdGenByPrimary → exec (.frameDecode t bytes) s = .refused .badDirection)
  ∧ (∀ (s : State) (t : Byte) (d : FrameDef), frameOf s.params t = some d →
      d.dir = .cmdRcvdBySecondary ∨ d.dir = .rspRcvdByPrimary → exec (.frameEncode t) s = .refused .badDirection)
  ∧ (∀ (s : State) (t : Byte) (bytes : List Byte) (c r : FrameDef), paramsWf s.params = true → pairOf s.params t = some (c, r) →
      exec (.frameEncode c.type) s = .refused .badDirection ∧ exec (.frameDecode r.type bytes) s = .refused .badDirection)

/-- R80, R81, R97, R121, R123, R125, R131, R137, R237: FRAME_ENCODE into a buffer of the definition's length returns a frame with the definition's
header. A payload bit that only bit elements cover is the OR of their cells, and so 0 where none does; a payload bit that a byte or a word
element covers is that bit of the cell of the last such element in declaration order (a word's low byte first), ORed with the cells of the bit
elements declared after it. No cell and nothing but the caller's buffer changes. Its reads stand at the end of their cells' orders. -/
def Obligations.FrameEncodeBuildsTheFrame : Prop :=
  ∀ (s : State) (t : Byte) (d : FrameDef),
    paramsWf s.params = true → s.plain → frameOf s.params t = some d → isGenerated d.dir = true → s.b.length = d.len →
    ∃ u, exec (.frameEncode t) s = .next u
      ∧ u = { s with b := u.b, past := u.past, replies := (s.who, .frame u.b) :: s.replies }
      ∧ u.b.length = d.len ∧ byteAt u.b 0 = d.addr ∧ byteAt u.b 1 = 0x83 ∧ byteAt u.b 2 = t
      ∧ (∀ p, 24 ≤ p → p < 8 * d.len → (∀ e ∈ d.elems, elementCovers e p = true → e.kind = .bit) →
          bitAt u.b p = d.elems.any fun e => elementCovers e p && s.getBit e.id)
      ∧ (∀ (p : Nat) (pre post : List Element) (e : Element), d.elems = pre ++ [e] ++ post → 24 ≤ p → p < 8 * d.len →
          elementCovers e p = true → e.kind ≠ .bit → (∀ e' ∈ post, elementCovers e' p = true → e'.kind = .bit) →
          bitAt u.b p = ((s.getVar e.id).getLsbD (p - 8 * e.pos) || post.any fun e' => elementCovers e' p && s.getBit e'.id))

/-- R131, R192: FRAME_ENCODE into a buffer of another length is refused. -/
def Obligations.FrameEncodeNeedsItsLength : Prop :=
  ∀ (s : State) (t : Byte) (d : FrameDef), frameOf s.params t = some d → isGenerated d.dir = true → s.b.length ≠ d.len →
    exec (.frameEncode t) s = .refused .badBuffer

/-- R126, R127: a definition with two bits of one cell that no other element names: FRAME_DECODE leaves the bit declared last in the cell, and
FRAME_ENCODE, where no other element covers the two bits, writes the cell into both, so that neither 01 nor 10 comes out. -/
def Obligations.DimmingPairTakesTheLastBit : Prop :=
  ∀ (s : State) (t : Byte) (d : FrameDef) (pre mid post : List Element) (id : VarId) (p q : Nat),
    paramsWf s.params = true → s.mem.wf = true → s.plain → frameOf s.params t = some d →
    d.elems = pre ++ [⟨.bit, id, p⟩] ++ mid ++ [⟨.bit, id, q⟩] ++ post → (∀ e ∈ pre ++ mid ++ post, e.id ≠ id) →
    (∀ bytes : List Byte, isReceived d.dir = true → 3 ≤ bytes.length → d.len ≤ bytes.length →
      ∃ u, exec (.frameDecode t bytes) s = .next u ∧ u.getVar id = if bitAt bytes q then 1 else 0)
    ∧ (isGenerated d.dir = true → s.b.length = d.len →
      (∀ e ∈ pre ++ mid ++ post, elementCovers e p = false ∧ elementCovers e q = false) →
      ∃ u, exec (.frameEncode t) s = .next u ∧ bitAt u.b p = s.getBit id ∧ bitAt u.b q = s.getBit id)

/-- R126, R127, R237: one step of an encode in progress reads a cell, in its turn or ahead of it, for all its elements: whatever other agents write
before the next step, every element of that cell that is left puts the value that was read, so that two bits of one cell come out alike. That
the cell is read once, and that a cell may be read ahead of elements of other cells, are the model's readings (log entries 7, 24). -/
def Obligations.EncodeReadsEachCellOnce : Prop :=
  ∀ (s t : State) (a : Agent) (k : Nat) (picks : Picks) (o : OpenOp) (dst : EncBuf) (e : Element),
    s.opens.find? (fun x => decide (x.agent = a)) = some o → o.todo[k]? = some (.enc dst e) →
    (∀ m ∈ o.todo.take k, isEncodeStep m = true) → advanceOp a k picks s = .next t →
    ∃ (o' : OpenOp) (v : Half),
      t.opens.find? (fun x => decide (x.agent = a)) = some o' ∧ v = (s.stepping o a picks).readVar e.id
      ∧ o'.todo = ((if k = 0 then o.todo.tail else o.todo).map fun m =>
          match m with
          | .enc dst' e' => if e'.id = e.id then .put dst' e' v else m
          | _ => m)
      ∧ (k = 0 → (t.stepping o' a picks).encBuf dst = elementPut ((s.stepping o a picks).encBuf dst) e v)

/-- R138: the round-trip law, with no other writer between the two operations: both stand at the ends of their cells' orders. -/
def Obligations.FrameRoundTrip : Prop :=
  ∀ (s : State) (tc tr : Byte) (c r : FrameDef) (bytes buf : List Byte),
    paramsWf s.params = true → s.mem.wf = true → s.plain →
    frameOf s.params tc = some c → isReceived c.dir = true → frameOf s.params tr = some r → isGenerated r.dir = true →
    c.len = r.len → c.elems = r.elems →
    c.elems.Pairwise (fun e e' => e.id ≠ e'.id ∧ ∀ p, ¬ (elementCovers e p = true ∧ elementCovers e' p = true)) →
    bytes.length = c.len → buf.length = r.len →
    ∃ t u, exec (.frameDecode tc bytes) s = .next t ∧ exec (.frameEncode tr) { t with b := buf } = .next u
      ∧ u.b.length = r.len ∧ byteAt u.b 0 = r.addr ∧ byteAt u.b 1 = 0x83 ∧ byteAt u.b 2 = r.type
      ∧ ∀ p, 24 ≤ p → p < 8 * r.len →
          bitAt u.b p = if r.elems.any (fun e => elementCovers e p) then bitAt bytes p else false

/-! ## Dispatch from the host port -/

/-- R31, R80, R161, R164, R165, R166, R170: a host DISPATCH of a frame whose type byte selects a pair, while the loop is stopped and no dispatch is in
progress, leaves the command's values in its cells and the response, encoded from the table after the decode, in TX from byte 0 on;
TX beyond it, every other cell and everything else is unchanged; it returns matched and the response's length. Its accesses stand at the ends
of their cells' orders. That no other host dispatch is in progress is read from R230 (log entry 9). -/
def Obligations.HostDispatchAnswersAMatch : Prop :=
  ∀ (s : State) (bytes : List Byte) (c r : FrameDef),
    paramsWf s.params = true → s.mem.wf = true → s.plain → s.tx.length = respBufLen s.params →
    s.en = false → s.loop = .stopped → s.dispatchOpen = false → 3 ≤ bytes.length →
    pairOf s.params (byteAt bytes 2) = some (c, r) → c.len ≤ bytes.length →
    ∃ t, exec (.dispatch bytes) s = .next t
      ∧ t = { s with mem := t.mem, past := t.past, tx := t.tx, rx := [], replies := (s.who, .dispatched true r.len) :: s.replies }
      ∧ (∀ id, t.getVar id = match lastNaming c.elems id with
          | some e => elementValue bytes e
          | none => s.getVar id)
      ∧ t.tx = encodeFrame t.mem r s.tx ∧ t.tx.drop r.len = s.tx.drop r.len ∧ t.tx.length = s.tx.length
      ∧ byteAt t.tx 0 = r.addr ∧ byteAt t.tx 1 = 0x83 ∧ byteAt t.tx 2 = byteAt bytes 2 + 128

/-- R162: a host DISPATCH of a frame whose type byte selects no pair returns not matched and an empty response; no cell, no byte of TX and nothing
else changes. -/
def Obligations.HostDispatchReportsNoMatch : Prop :=
  ∀ (s : State) (bytes : List Byte),
    s.en = false → s.loop = .stopped → s.dispatchOpen = false → 3 ≤ bytes.length →
    pairOf s.params (byteAt bytes 2) = none →
    exec (.dispatch bytes) s = .next { s with replies := (s.who, .dispatched false 0) :: s.replies }

/-- R163, R170, R191, R196, R197: a host DISPATCH while the loop may run raises ConcurrentDispatch whatever the frame, then a runt frame raises
RuntFrame, then a matched frame that is too short raises ShortFrame; nothing but the fault latch changes. -/
def Obligations.HostDispatchFaultsInOrder : Prop :=
  ∀ (s : State) (bytes : List Byte), s.fault = none →
    ((s.en = true ∨ s.loop ≠ .stopped) → exec (.dispatch bytes) s = .next { s with fault := some .concurrentDispatch })
    ∧ (s.en = false → s.loop = .stopped → s.dispatchOpen = false → bytes.length < 3 →
        exec (.dispatch bytes) s = .next { s with fault := some (.runtFrame bytes.length) })
    ∧ (∀ c r, s.en = false → s.loop = .stopped → s.dispatchOpen = false → 3 ≤ bytes.length →
        pairOf s.params (byteAt bytes 2) = some (c, r) → bytes.length < c.len →
        exec (.dispatch bytes) s = .next { s with fault := some (.shortFrame (byteAt bytes 2) bytes.length) })

/-! ## The line agent -/

/-- R31, R80, R81, R93, R161, R164, R165, R166, R167: a frame of any of the 16 command types, or of another type that `ExtraPairs` pairs, delivered to
a line agent that serves it, and long enough: the command's values are in its cells, the response from the table after the decode is
in TX, and the agent goes on to TxWrite of it. TX beyond the response, every other cell and everything else is unchanged. Its accesses stand at
the ends of their cells' orders. -/
def Obligations.LineCommandIsDispatched : Prop :=
  ∀ (s : State) (a ctl ty : Byte) (p : List Byte) (f : Instr × Byte) (c r : FrameDef),
    (f ∈ commandForms a ctl p ∨ f = (.unmatchedType a ctl ty p, ty)) →
    paramsWf s.params = true → s.mem.wf = true → s.plain → s.tx.length = respBufLen s.params → s.serves = true →
    pairOf s.params f.2 = some (c, r) → c.len ≤ p.length + 3 →
    ∃ t, exec f.1 s = .next t
      ∧ t = { s with mem := t.mem, past := t.past, tx := t.tx, rx := [], loop := .writing, respLen := r.len }
      ∧ (∀ id, t.getVar id = match lastNaming c.elems id with
          | some e => elementValue (a :: ctl :: f.2 :: p) e
          | none => s.getVar id)
      ∧ t.tx = encodeFrame t.mem r s.tx ∧ t.tx.drop r.len = s.tx.drop r.len ∧ t.tx.length = s.tx.length
      ∧ byteAt t.tx 0 = r.addr ∧ byteAt t.tx 1 = 0x83 ∧ byteAt t.tx 2 = f.2 + 128

/-- R95, R162, R167, R235: a frame whose type byte selects no pair, of a command type or of a type outside the table: the line agent records NOMATCH
and begins its next iteration, with LoopState still Dispatching until R167 assigns it again; nothing is transmitted, and no cell, no byte of TX and
nothing else changes. The value of LoopState between iterations is the model's choice (log entry 8). -/
def Obligations.LineFrameWithoutAPairIsNoMatch : Prop :=
  ∀ (s : State) (a ctl ty : Byte) (p : List Byte) (f : Instr × Byte),
    (f ∈ commandForms a ctl p ∨ f = (.unmatchedType a ctl ty p, ty)) → s.serves = true → pairOf s.params f.2 = none →
    exec f.1 s = .next { s with loop := .dispatching, events := .noMatch :: s.events, atHead := true, checkAtA := false }

/-- R96, R162, R167: a received frame of any of the 14 response types is unmatched: NOMATCH, whatever the well-formed dispatch table; the line agent
begins its next iteration, with LoopState still Dispatching until R167 assigns it again, and no cell, no byte of TX and nothing else changes.
The value of LoopState between iterations is the model's choice (log entry 8). -/
def Obligations.LineResponseTypeIsNoMatch : Prop :=
  ∀ (s : State) (a ctl : Byte) (p : List Byte) (f : Instr × Byte),
    f ∈ responseForms a ctl p → paramsWf s.params = true → s.serves = true →
    exec f.1 s = .next { s with loop := .dispatching, events := .noMatch :: s.events, atHead := true, checkAtA := false }

/-- R161, R163, R191, R197: a received byte string of fewer than 3 bytes raises RuntFrame; a matched frame shorter than its definition raises
ShortFrame; nothing but the fault latch and LoopState changes. -/
def Obligations.LineShortFramesFault : Prop :=
  ∀ (s : State), s.serves = true → s.fault = none →
    (∀ bytes : List Byte, bytes.length < 3 →
      exec (.runtFrame bytes) s = .next { s with loop := .dispatching, fault := some (.runtFrame bytes.length) })
    ∧ (∀ (a ctl ty : Byte) (p : List Byte) (f : Instr × Byte) (c r : FrameDef),
        (f ∈ commandForms a ctl p ∨ f = (.unmatchedType a ctl ty p, ty)) → pairOf s.params f.2 = some (c, r) →
        p.length + 3 < c.len →
        exec f.1 s = .next { s with loop := .dispatching, fault := some (.shortFrame f.2 (p.length + 3)) })

/-- R167, R169, R195: a frame that finds no line agent in RxRead changes nothing; one that finds EN = 0 in an iteration that checks at A is dropped, and
the agent stops. That a frame with no reader is dropped, not held, is the model's choice (log entry 10). -/
def Obligations.UnservedFramesChangeNoCell : Prop :=
  ∀ (s : State) (a ctl ty : Byte) (p bytes : List Byte) (f : Instr × Byte),
    (f ∈ commandForms a ctl p ∨ f ∈ responseForms a ctl p ∨ f = (.unmatchedType a ctl ty p, ty) ∨ f = (.runtFrame bytes, 0)) →
    (s.listening = false → exec f.1 s = .next s)
    ∧ (s.listening = true → s.checkAtA = true → s.en = false →
        exec f.1 s = .next { s with loop := .stopped, atHead := false, checkAtA := false })

/-- R167, R169: at the head of an iteration, one that checks at H stops the agent where EN = 0; any other goes on to RxRead, and checks at A exactly
where it did not check at H. -/
def Obligations.HeadOfIterationTestsEnableOnce : Prop :=
  ∀ (s : State) (checksHere : Bool) (rest : List Turn),
    s.fault = none → s.boot ≠ .pending → s.turns = .lineHead checksHere :: rest → s.loop ≠ .stopped → s.atHead = true →
    (checksHere = true → s.en = false →
      step s = .next { s with turns := rest, loop := .stopped, atHead := false, checkAtA := false })
    ∧ (checksHere = false ∨ s.en = true →
      step s = .next { s with turns := rest, loop := .reading, atHead := false, checkAtA := !checksHere })

/-- R164, R167, R231: when TxWrite returns, the response that stood in TX has gone to the transport whole, and the agent is at the head of its next
iteration, with LoopState still Writing until R167 assigns it again. The records of what was sent and served are the model's own (log entry 15), and
the value of LoopState between iterations is its choice (log entry 8). -/
def Obligations.TxWriteSendsTheResponse : Prop :=
  ∀ (s : State) (rest : List Turn),
    s.fault = none → s.boot ≠ .pending → s.turns = .txDone :: rest → s.loop = .writing → s.atHead = false →
    step s = .next { s with turns := rest, sent := s.tx.take s.respLen :: s.sent, events := .served :: s.events, atHead := true,
                            checkAtA := false }

/-- R171: a failed RxRead or TxWrite is recorded with the operation and its non-zero code; then either the agent is at the head of its next iteration,
or it stops with EN unchanged; no cell and no byte of TX changes, so a dispatch's cell writes stay and nothing is dispatched. That the turn carries
the continuation (log entry 4), that LoopState stays Reading or Writing at the head of the next iteration (log entry 8), and that a response whose
TxWrite failed is not recorded as sent (log entry 15) are the model's choices. -/
def Obligations.TransportErrorsAdmitBothContinuations : Prop :=
  ∀ (s : State) (code : Nat) (rest : List Turn), s.fault = none → s.boot ≠ .pending → code ≠ 0 →
    (s.loop = .reading → s.atHead = false →
      (s.turns = .rxError code false :: rest →
        step s = .next { s with turns := rest, events := .transportError .read code :: s.events, atHead := true, checkAtA := false })
      ∧ (s.turns = .rxError code true :: rest →
        step s = .next { s with turns := rest, events := .transportError .read code :: s.events, loop := .stopped, atHead := false,
                                checkAtA := false }))
    ∧ (s.loop = .writing → s.atHead = false →
      (s.turns = .txError code false :: rest →
        step s = .next { s with turns := rest, events := .transportError .write code :: s.events, atHead := true, checkAtA := false })
      ∧ (s.turns = .txError code true :: rest →
        step s = .next { s with turns := rest, events := .transportError .write code :: s.events, loop := .stopped, atHead := false,
                                checkAtA := false }))

/-! ## The packer -/

/-- R150: the offset as a sum and in closed form, its bijection from the 120 pairs onto 0..119, channel-major from pair (1,2) on, its inverse, and
the table of the first offsets. -/
def Obligations.CompatOffsetsAreABijection : Prop :=
  (∀ l r, 1 ≤ l → l < r → r ≤ 16 →
    compatOff l r = ((List.range (l - 1)).map fun k => 16 - (k + 1)).sum + (r - l - 1)
    ∧ compatOff l r = (l - 1) * 16 - (l - 1) * l / 2 + (r - l - 1)
    ∧ compatOff l r < 120 ∧ compatOff l r = compatOff l (l + 1) + (r - l - 1))
  ∧ (∀ k, k < 120 → ∃ l r, 1 ≤ l ∧ l < r ∧ r ≤ 16 ∧ compatOff l r = k)
  ∧ (∀ l r l' r', 1 ≤ l → l < r → r ≤ 16 → 1 ≤ l' → l' < r' → r' ≤ 16 →
      (compatOff l r < compatOff l' r' ↔ l < l' ∨ (l = l' ∧ r < r')))
  ∧ (∀ k l r, 1 ≤ l → l < r → r ≤ 16 → compatOff l r = k →
      compatOff l (l + 1) ≤ k ∧ (∀ l', 1 ≤ l' → l' ≤ 15 → compatOff l' (l' + 1) ≤ k → l' ≤ l)
      ∧ r = k - compatOff l (l + 1) + l + 1)
  ∧ ((List.range 15).map fun i => compatOff (i + 1) (i + 2)) = [0, 15, 29, 42, 54, 65, 75, 84, 92, 99, 105, 110, 114, 117, 119]

/-- R25, R59, R151: COMPAT_SET_BITSET leaves bit `off(l, r)` in the cell of every pair (l, r); every other cell and everything else is unchanged. -/
def Obligations.CompatSetBitsetWritesTheMatrix : Prop :=
  ∀ (s : State) (bits : Bitset), s.mem.wf = true → s.plain →
    ∃ t, exec (.compatSetBitset bits) s = .next t
      ∧ (s.past = [] → t.past = []) ∧ t = { s with mem := t.mem, past := t.past, replies := (s.who, .ok) :: s.replies }
      ∧ (∀ l r, 1 ≤ l → l < r → r ≤ 16 → t.getVar (compatId l r) = if bits.getLsbD (compatOff l r) then 1 else 0)
      ∧ (∀ id, (∀ l r, 1 ≤ l → l < r → r ≤ 16 → compatId l r ≠ id) → t.getVar id = s.getVar id)

/-- R154, R155: COMPAT_ZERO leaves every pair's cell 0, and COMPAT_DEFAULT leaves the parameter DEFAULT_COMPAT in them; every other cell and everything
else is unchanged. -/
def Obligations.CompatZeroAndDefaultWriteTheMatrix : Prop :=
  ∀ (s : State) (i : Instr) (bits : Bitset), s.mem.wf = true → s.plain →
    ((i = .compatZero ∧ bits = 0) ∨ (i = .compatDefault ∧ bits = s.params.defaultCompat)) →
    ∃ t, exec i s = .next t
      ∧ t = { s with mem := t.mem, past := t.past, replies := (s.who, .ok) :: s.replies }
      ∧ (∀ l r, 1 ≤ l → l < r → r ≤ 16 → t.getVar (compatId l r) = if bits.getLsbD (compatOff l r) then 1 else 0)
      ∧ (∀ id, (∀ l r, 1 ≤ l → l < r → r ≤ 16 → compatId l r ≠ id) → t.getVar id = s.getVar id)

/-- R55, R92, R153: the characters '0'..'9' have the values 0..9, 'A'..'F' and 'a'..'f' the values 10..15, and no other character has one.
COMPAT_SET_HEX of 30 hex characters leaves, in the cell of the pair with offset `119 - (4c + j)`, bit `3 - j` of the value of
character `c`; every other cell and everything else is unchanged. -/
def Obligations.CompatSetHexExpandsTheString : Prop :=
  (∀ (c : Byte) (d : Nat), hexDigit c = some d ↔
    (48 ≤ c.toNat ∧ c.toNat ≤ 57 ∧ c.toNat = d + 48) ∨ (65 ≤ c.toNat ∧ c.toNat ≤ 70 ∧ c.toNat = d + 55)
      ∨ (97 ≤ c.toNat ∧ c.toNat ≤ 102 ∧ c.toNat = d + 87))
  ∧ ∀ (s : State) (str : List Byte) (ds : List Nat), s.mem.wf = true → s.plain → str.length = 30 → str.map hexDigit = ds.map some →
    ∃ t, exec (.compatSetHex str) s = .next t
      ∧ t = { s with mem := t.mem, past := t.past, replies := (s.who, .ok) :: s.replies }
      ∧ (∀ c j l r, c < 30 → j < 4 → 1 ≤ l → l < r → r ≤ 16 → compatOff l r = 119 - (4 * c + j) →
          t.getVar (compatId l r) = if (ds.getD c 0).testBit (3 - j) then 1 else 0)
      ∧ (∀ id, (∀ l r, 1 ≤ l → l < r → r ≤ 16 → compatId l r ≠ id) → t.getVar id = s.getVar id)

/-- R153, R190: COMPAT_SET_HEX of a string of another length, or with a character that is no hex character, returns HEX_REJECT and changes no cell
and nothing else. -/
def Obligations.CompatSetHexRejectsWithoutWriting : Prop :=
  ∀ (s : State) (str : List Byte), (str.length ≠ 30 ∨ ∃ c ∈ str, hexDigit c = none) →
    exec (.compatSetHex str) s = .next { s with replies := (s.who, .hexReject) :: s.replies }

/-- R62, R152: COMPAT_GET_BITSET returns the bitset whose bit `off(l, r)` is the cell of the pair (l, r); no cell and nothing but the running
operation's own bits changes. -/
def Obligations.CompatGetBitsetReadsTheMatrix : Prop :=
  ∀ (s : State), s.plain → ∃ (bits : Bitset) (past : List Superseded),
    exec .compatGetBitset s = .next { s with acc := bits, past := past, replies := (s.who, .bitset bits) :: s.replies }
    ∧ (∀ l r, 1 ≤ l → l < r → r ≤ 16 → bits.getLsbD (compatOff l r) = s.getBit (compatId l r))

/-- R156: the packer's round trips, for every bitset and every accepted string, with no other writer in between, and strings that differ only in
letter case. -/
def Obligations.CompatRoundTrip : Prop :=
  (∀ (s t : State) (bits : Bitset), s.mem.wf = true → s.plain → exec (.compatSetBitset bits) s = .next t →
    ∃ u, exec .compatGetBitset t = .next u ∧ u.replies.head? = some (s.who, .bitset bits))
  ∧ (∀ (s t : State) (str : List Byte) (ds : List Nat), s.mem.wf = true → s.plain → str.length = 30 → str.map hexDigit = ds.map some →
    exec (.compatSetHex str) s = .next t →
    ∃ u, exec .compatGetBitset t = .next u
      ∧ u.replies.head? = some (s.who, .bitset (BitVec.ofNat 120 (ds.foldl (fun n d => 16 * n + d) 0))))
  ∧ (∀ (s : State) (str str' : List Byte), str.length = 30 → (∀ c ∈ str, (hexDigit c).isSome = true) → str'.length = 30 →
    (∀ k, byteAt str' k = byteAt str k
      ∨ (byteAt str' k = byteAt str k + 32 ∧ 65 ≤ (byteAt str k).toNat ∧ (byteAt str k).toNat ≤ 70)
      ∨ (byteAt str k = byteAt str' k + 32 ∧ 65 ≤ (byteAt str' k).toNat ∧ (byteAt str' k).toNat ≤ 70)) →
    exec (.compatSetHex str') s = exec (.compatSetHex str) s)

/-! ## The wiring adapter -/

/-- R59, R180: LS_INDICATION of a channel 1..16 returns the indication of its three drivers, Blank for every combination but the three with one driver
on; no cell and nothing but the running operation's own bits changes. -/
def Obligations.LsIndicationIsTheDriversTable : Prop :=
  ∀ (s : State) (c : Byte), 1 ≤ c.toNat → c.toNat ≤ 16 → s.plain →
    inCatalog s.params (lsGreenId s.params c.toNat) = true → inCatalog s.params (lsYellowId s.params c.toNat) = true →
    inCatalog s.params (lsRedId s.params c.toNat) = true →
    ∃ (bits : Bitset) (past : List Superseded) (ind : Indication),
      exec (.lsIndication c) s = .next { s with acc := bits, past := past, replies := (s.who, .indication ind) :: s.replies }
      ∧ (ind = .green ↔ s.getBit (lsGreenId s.params c.toNat) = true ∧ s.getBit (lsYellowId s.params c.toNat) = false
          ∧ s.getBit (lsRedId s.params c.toNat) = false)
      ∧ (ind = .yellow ↔ s.getBit (lsGreenId s.params c.toNat) = false ∧ s.getBit (lsYellowId s.params c.toNat) = true
          ∧ s.getBit (lsRedId s.params c.toNat) = false)
      ∧ (ind = .red ↔ s.getBit (lsGreenId s.params c.toNat) = false ∧ s.getBit (lsYellowId s.params c.toNat) = false
          ∧ s.getBit (lsRedId s.params c.toNat) = true)

/-- R33, R59, R181: DET_CALL_OR of a detector 1..64 with as many results as `CFG.DETWIRE` has entries for it leaves the OR of the results in its call
cell, 0 for none; every other cell and everything else is unchanged. With another number of results, where R181 states no result, it does
the same but for that one value, which is free (the model's choice, log entry 12). -/
def Obligations.DetCallIsTheOrOfTheResults : Prop :=
  ∀ (s : State) (d : Byte) (results : List Bool), s.mem.wf = true → 1 ≤ d.toNat → d.toNat ≤ 64 →
    s.depth (detCallId s.params d.toNat) = 0 → inCatalog s.params (detCallId s.params d.toNat) = true →
    ∃ t, exec (.detCallOr d results) s = .next t
      ∧ t = { s with mem := t.mem, past := t.past, freeCount := t.freeCount, replies := (s.who, .ok) :: s.replies }
      ∧ (∀ id, id ≠ detCallId s.params d.toNat → t.getVar id = s.getVar id)
      ∧ (results.length = (s.cfg.detWire.getD (d.toNat - 1) []).length →
          t.freeCount = s.freeCount
          ∧ (true ∈ results → t.getVar (detCallId s.params d.toNat) = 1)
          ∧ (true ∉ results → t.getVar (detCallId s.params d.toNat) = 0))
      ∧ (results.length ≠ (s.cfg.detWire.getD (d.toNat - 1) []).length →
          t.freeCount = s.freeCount + 1 ∧ t.getVar (detCallId s.params d.toNat) = halfOfBit (Config.freeCall s.freeCount))

/-! ## Control and status -/

/-- R34, R168, R196: CSR_WRITE of CTRL, case by case in its order, and that any other register is refused. A line agent that is started stands before its
first check point, with LoopState Reading (log entry 8: where it stands at the start is the model's choice). -/
def Obligations.CsrWriteStartsAndStopsTheLoop : Prop :=
  ∀ (s : State) (v : Byte),
    (v.getLsbD 0 = true → s.ready = true → s.en = false → s.loop = .stopped →
      exec (.csrWrite 0 v) s = .next { s with en := true, loop := .reading, atHead := true, checkAtA := false,
                                              replies := (s.who, .ok) :: s.replies })
    ∧ (v.getLsbD 0 = false → exec (.csrWrite 0 v) s = .next { s with en := false, replies := (s.who, .ok) :: s.replies })
    ∧ (v.getLsbD 0 = true → s.ready = false →
      exec (.csrWrite 0 v) s = .next { s with replies := (s.who, .notReady) :: s.replies })
    ∧ (v.getLsbD 0 = true → s.ready = true → s.en = true →
      exec (.csrWrite 0 v) s = .next { s with replies := (s.who, .ok) :: s.replies })
    ∧ (v.getLsbD 0 = true → s.ready = true → s.en = false → s.loop ≠ .stopped → s.fault = none →
      exec (.csrWrite 0 v) s = .next { s with fault := some .restartRace })
    ∧ (∀ reg : Byte, reg ≠ 0 → exec (.csrWrite reg v) s = .refused .badRegister)

/-- R34, R35, R172: CSR_READ of register 0 returns EN at bit 0, of register 1 READY, FAULTED and FCODE at bits 0, 1 and 7:4, with the other bits 0; any
other register is refused; nothing else changes. -/
def Obligations.CsrReadReturnsTheRegister : Prop :=
  ∀ (s : State),
    (∃ v : Byte, exec (.csrRead 0) s = .next { s with replies := (s.who, .register v) :: s.replies }
      ∧ v.getLsbD 0 = s.en ∧ ∀ k, 1 ≤ k → v.getLsbD k = false)
    ∧ (∃ v : Byte, exec (.csrRead 1) s = .next { s with replies := (s.who, .register v) :: s.replies }
      ∧ v.getLsbD 0 = s.ready ∧ v.getLsbD 1 = s.fault.isSome ∧ v.getLsbD 2 = false ∧ v.getLsbD 3 = false
      ∧ (v >>> 4).toNat = s.fcode)
    ∧ (∀ reg : Byte, reg ≠ 0 → reg ≠ 1 → exec (.csrRead reg) s = .refused .badRegister)

/-! ## Invariants -/

/-- R5, R21, R23, R31, R65, R87, R113: from every legal state a step leads to a legal state: the variable table in canonical form, each value in its cell's type,
no cell outside the catalogue, TX of its fixed size, and no older value left to read but of an operation that is in progress. -/
def Obligations.StepKeepsTheStateLegal : Prop :=
  ∀ s t : State, s.legal = true → step s = .next t → t.legal = true

/-- R21, R23, R31, R40: the state after reset is legal, for every admissible value of the parameters. -/
def Obligations.ResetStateIsLegal : Prop :=
  ∀ (p : Params) (c : Cfg), paramsAdmissible p = true →
    (State.resetWith p c).legal = true ∧ (State.resetWith p c).controlLegal = true

/-- R8, R37, R167, R168, R222, R230: from every state with a legal control a step leads to one: the loop is enabled, and a line agent lives, only after the
transport opened; at most one dispatch is in progress, and the line agent's only while LoopState is Dispatching. That two host dispatches do
not overlap is read from R230 (log entry 9). -/
def Obligations.StepKeepsTheControlLegal : Prop :=
  ∀ s t : State, s.controlLegal = true → step s = .next t → t.controlLegal = true

/-- R29: no step writes the definition store, the dispatch table or the catalogue. -/
def Obligations.DefinitionStoreIsNeverWritten : Prop :=
  ∀ s t : State, step s = .next t → t.params = s.params

/-! ## Interleaving -/

/-- R7, R38: an operation of a host agent, or a dispatch of the line agent, that is begun and then advanced step by step, with no other agent in
between, ends in the very state in which running it at once ends. The turns are the model's own form of which agent moves (log entry 4). -/
def Obligations.SteppedOperationAloneIsTheOperation : Prop :=
  ∀ (s t : State) (i : Instr),
    s.legal = true → s.fault = none → s.boot ≠ .pending → s.opens = [] → s.turns = [] →
    (∀ (a : Nat) (bytes buf : List Byte), decode (.host bytes) = .ok i →
      exec i { s with who := .host a, b := buf, picks := [] } = .next t →
      ∃ n, Sys2Proof.core.run (n + 1)
        { s with turns := .hostBegin a bytes buf [] :: List.replicate n (.advance (.host a) 0 []) } = .next t)
    ∧ (∀ bytes : List Byte, decode (.line bytes) = .ok i → exec i { s with who := .line, picks := [] } = .next t →
      ∃ n, Sys2Proof.core.run (n + 1) { s with turns := .rxBegin bytes :: List.replicate n (.advance .line 0 []) } = .next t)

/-- R64: one step of an operation in progress leaves every cell as it was, or leaves in it the value that a step of that operation writes. -/
def Obligations.OverlappedCellIsOldOrNew : Prop :=
  ∀ (s t : State) (a : Agent) (k : Nat) (picks : Picks) (o : OpenOp) (id : VarId),
    s.mem.wf = true → s.opens.find? (fun x => decide (x.agent = a)) = some o → advanceOp a k picks s = .next t →
    t.getVar id = s.getVar id
    ∨ (∃ v, Micro.store id v ∈ o.todo ∧ t.getVar id = v)
    ∨ (∃ src e, Micro.dec src e ∈ o.todo ∧ e.id = id
        ∧ t.getVar id = elementValue (match src with | .rx => s.rx | .b => o.buf) e)

/-- R64, R152: while COMPAT_SET_BITSET of one host agent is in progress, its writes made and not yet completed, COMPAT_GET_BITSET of another host
agent may return every combination of old and new cells: for every choice of pairs there are choices of the overlapped values with which exactly
the chosen pairs read new. That a turn carries those choices is the model's own form (log entries 4, 7). -/
def Obligations.EveryMixOfOldAndNewIsReachable : Prop :=
  ∀ (s : State) (a a' : Nat) (bits : Bitset) (buf buf' : List Byte) (chosen : List (Nat × Nat)),
    s.mem.wf = true → s.fault = none → s.boot ≠ .pending → s.opens = [] → s.past = [] → s.turns = [] → a ≠ a' →
    ∃ (bytes bytes' : List Byte) (picks : Picks) (t : State) (mix : Bitset),
      encode (.compatSetBitset bits) = .host bytes ∧ encode .compatGetBitset = .host bytes'
      ∧ Sys2Proof.core.run 122
          { s with turns := .hostBegin a bytes buf [] :: (List.replicate 120 (.advance (.host a) 0 []) ++ [.host a' bytes' buf' picks]) }
          = .next t
      ∧ t.replies.head? = some (.host a', .bitset mix)
      ∧ ∀ l r, 1 ≤ l → l < r → r ≤ 16 →
          mix.getLsbD (compatOff l r) =
            if (l, r) ∈ chosen then bits.getLsbD (compatOff l r) else s.getBit (compatId l r)

/-- R64, R110: a GET that overlaps operations in progress returns the cell's newest value or one of the older values that its agent has not passed,
and each of them for some choice, whatever the choices for other cells. -/
def Obligations.OverlappingGetReturnsOldOrNew : Prop :=
  ∀ (s : State) (id : VarId), inCatalog s.params id = true →
    (∃ (v : Half) (t : State), exec (.get id) s = .next t ∧ t.replies.head? = some (s.who, .value v)
      ∧ (v = s.getVar id ∨ ∃ e ∈ s.past, e.id = id ∧ s.who ∉ e.seen ∧ v = e.value))
    ∧ (∀ (picks : Picks) (v : Half), (v = s.getVar id ∨ ∃ e ∈ s.past, e.id = id ∧ s.who ∉ e.seen ∧ v = e.value) →
        ∃ (n : Nat) (t : State), exec (.get id) { s with picks := (id, n) :: picks } = .next t
          ∧ t.replies.head? = some (s.who, .value v))

/-- R65: once initialisation has ended, from every state with a canonical table, a step of whatever agent leaves of a cell's values that an agent may read, in the cell's order, those
from some place on, with values put in that the operation of this turn writes to the cell: no value that an agent could no longer read comes
back but by a new write. A GET returns one of those values, and takes every value before it from its agent; so the agent's next GET, with no
step between and whatever it chooses, returns that one or one behind it. That the values of a cell are a list, and that a turn chooses among
them, is the model's own form (log entry 7). -/
def Obligations.AgentsNeverReadBackwards : Prop :=
  (∀ (s t : State) (a : Agent) (id : VarId), s.mem.wf = true → s.boot ≠ .pending → step s = .next t →
    ∃ k, PutIn (fun v => (id, v) ∈ s.stepWrites) ((s.readable a id).drop k) (t.readable a id))
  ∧ (∀ (s t : State) (id : VarId), exec (.get id) s = .next t →
    ∃ i, i < (s.readable s.who id).length
      ∧ t.replies.head? = some (s.who, .value ((s.readable s.who id).getD i 0))
      ∧ t.readable s.who id = (s.readable s.who id).drop i
      ∧ ∀ (picks : Picks), ∃ (j : Nat) (u : State), i ≤ j ∧ j < (s.readable s.who id).length
          ∧ exec (.get id) { t with picks := picks } = .next u
          ∧ u.replies.head? = some (s.who, .value ((s.readable s.who id).getD j 0)))

/-- R65: once an operation has completed, no agent may read a value that precedes one of its writes; and in a legal state with no operation in progress
every read of every agent returns the newest value: the "quiescent snapshot". -/
def Obligations.CompletedWritesAreSeenByAll : Prop :=
  (∀ (s t : State) (a : Agent) (k : Nat) (picks : Picks) (o : OpenOp) (before after : List Superseded) (e : Superseded),
    s.opens.find? (fun x => decide (x.agent = a)) = some o → o.todo = [] → advanceOp a k picks s = .next t →
    s.past = before ++ [e] ++ after → e.writer = a →
    ∀ x ∈ t.past, x.id = e.id → x ∈ after)
  ∧ (∀ (s : State) (a : Agent) (picks : Picks) (id : VarId), s.legal = true → s.opens = [] →
      ({ s with who := a, picks := picks } : State).readVar id = s.getVar id)

/-- R66: a SET of a cell that operations in progress are writing leaves in the cell either its value or the one that stood there, every other cell
unchanged; both are possible where there is a write of an operation in progress that its agent has not read. -/
def Obligations.RacingWritesLeaveEitherValue : Prop :=
  ∀ (s : State) (id : VarId) (v : Half), s.mem.wf = true → inCatalog s.params id = true → v.toNat < 2 ^ typeWidth id.ty →
    (∃ t, exec (.set id v) s = .next t ∧ (t.getVar id = v ∨ t.getVar id = s.getVar id)
      ∧ ∀ id', id' ≠ id → t.getVar id' = s.getVar id')
    ∧ (∃ (picks : Picks) (t : State), exec (.set id v) { s with picks := picks } = .next t ∧ t.getVar id = v)
    ∧ (s.unseen id ≠ [] →
        ∃ (picks : Picks) (t : State), exec (.set id v) { s with picks := picks } = .next t ∧ t.getVar id = s.getVar id)
end

