-- ==== Sys2Proof/Laws/Memory.lean ====
section
/-! SUPPORT. The laws of the variable table: a write is read back, leaves every other cell alone, and keeps the canonical form, the
values' types and the catalogue. -/

namespace Sys2Proof.Laws

open Sys2Proof.Machine

theorem domain_code_lt (d : Domain) : d.code < 6 := by cases d <;> decide
theorem type_code_lt (t : VarType) : t.code < 3 := by cases t <;> decide
theorem domain_code_inj {a b : Domain} (h : a.code = b.code) : a = b := by
  cases a <;> cases b <;> first | rfl | exact absurd h (by decide)
theorem type_code_inj {a b : VarType} (h : a.code = b.code) : a = b := by
  cases a <;> cases b <;> first | rfl | exact absurd h (by decide)

/-- The order of the canonical form tells identities apart. -/
theorem varKey_inj {a b : VarId} (h : varKey a = varKey b) : a = b := by
  obtain ⟨da, ta, ia⟩ := a
  obtain ⟨db, tb, ib⟩ := b
  simp only [varKey] at h
  have h1 := domain_code_lt da
  have h2 := domain_code_lt db
  have h3 := type_code_lt ta
  have h4 := type_code_lt tb
  have hi : ia = ib := by omega
  have hd : da.code = db.code := by omega
  have ht : ta.code = tb.code := by omega
  rw [hi, domain_code_inj hd, type_code_inj ht]

@[simp] theorem get_nil (id : VarId) : Memory.get [] id = unlistedValue := rfl

theorem risesFrom_le {m : Memory} {a b : Nat} (h : a ≤ b) (hb : m.risesFrom b = true) : m.risesFrom a = true := by
  cases m with
  | nil => rfl
  | cons e rest =>
    obtain ⟨k, w⟩ := e
    simp only [Memory.risesFrom, Bool.and_eq_true, decide_eq_true_eq] at hb ⊢
    exact ⟨⟨by omega, hb.1.2⟩, hb.2⟩

/-- A cell below every entry is unlisted. -/
theorem get_of_below {m : Memory} {lo : Nat} {id : VarId} (h : m.risesFrom lo = true) (hid : varKey id < lo) :
    m.get id = unlistedValue := by
  induction m generalizing lo with
  | nil => rfl
  | cons e rest ih =>
    obtain ⟨k, w⟩ := e
    simp only [Memory.risesFrom, Bool.and_eq_true, decide_eq_true_eq] at h
    have hne : ¬ k = id := by rintro rfl; omega
    simp only [Memory.get, if_neg hne]
    exact ih h.2 (by omega)

/-- A write is read back. -/
theorem get_set_self_from {m : Memory} {lo : Nat} (id : VarId) (v : Half) (h : m.risesFrom lo = true) :
    (m.set id v).get id = v := by
  induction m generalizing lo with
  | nil =>
    by_cases hv : v = unlistedValue
    · simp [Memory.set, hv]
    · simp [Memory.set, hv, Memory.get]
  | cons e rest ih =>
    obtain ⟨k, w⟩ := e
    simp only [Memory.risesFrom, Bool.and_eq_true, decide_eq_true_eq] at h
    by_cases hlt : varKey id < varKey k
    · have hne : ¬ k = id := by rintro rfl; omega
      by_cases hv : v = unlistedValue
      · simp only [Memory.set, if_pos hlt, if_pos hv, Memory.get, if_neg hne]
        rw [get_of_below h.2 (by omega), hv]
      · simp [Memory.set, hlt, hv, Memory.get]
    · by_cases hk : k = id
      · subst hk
        by_cases hv : v = unlistedValue
        · simp only [Memory.set, if_neg hlt, if_pos hv, if_true]
          rw [get_of_below h.2 (by omega), hv]
        · simp [Memory.set, hv, Memory.get]
      · simp only [Memory.set, if_neg hlt, if_neg hk, Memory.get]
        exact ih h.2

/-- A write leaves every other cell alone. -/
theorem get_set_other {m : Memory} {id id' : VarId} (v : Half) (hne : id' ≠ id) : (m.set id v).get id' = m.get id' := by
  induction m with
  | nil =>
    by_cases hv : v = unlistedValue
    · simp [Memory.set, hv]
    · simp [Memory.set, hv, Memory.get, Ne.symm hne]
  | cons e rest ih =>
    obtain ⟨k, w⟩ := e
    simp only [Memory.set]
    split
    · split
      · rfl
      · simp [Memory.get, Ne.symm hne]
    · split
      · next hk =>
        subst hk
        split
        · simp [Memory.get, Ne.symm hne]
        · simp [Memory.get, Ne.symm hne]
      · simp only [Memory.get]
        split
        · rfl
        · exact ih

/-- A write keeps the keys rising. -/
theorem set_risesFrom {m : Memory} {lo : Nat} (id : VarId) (v : Half) (h : m.risesFrom lo = true) (hid : lo ≤ varKey id) :
    (m.set id v).risesFrom lo = true := by
  induction m generalizing lo with
  | nil =>
    by_cases hv : v = unlistedValue
    · simp [Memory.set, hv, Memory.risesFrom]
    · simp [Memory.set, hv, Memory.risesFrom, hid]
  | cons e rest ih =>
    obtain ⟨k, w⟩ := e
    have h' := h
    simp only [Memory.risesFrom, Bool.and_eq_true, decide_eq_true_eq] at h'
    simp only [Memory.set]
    split
    · next hlt =>
      split
      · exact h
      · next hv =>
        simp only [Memory.risesFrom, Bool.and_eq_true, decide_eq_true_eq]
        exact ⟨⟨hid, hv⟩, ⟨by omega, h'.1.2⟩, h'.2⟩
    · next hlt =>
      split
      · next hk =>
        subst hk
        split
        · exact risesFrom_le (by omega) h'.2
        · next hv =>
          simp only [Memory.risesFrom, Bool.and_eq_true, decide_eq_true_eq]
          exact ⟨⟨h'.1.1, hv⟩, h'.2⟩
      · next hk =>
        simp only [Memory.risesFrom, Bool.and_eq_true, decide_eq_true_eq]
        have : varKey id ≠ varKey k := fun he => hk (varKey_inj he).symm
        exact ⟨h'.1, ih h'.2 (by omega)⟩

/-- A write keeps the canonical form. -/
theorem set_wf {m : Memory} (id : VarId) (v : Half) (h : m.wf = true) : (m.set id v).wf = true :=
  set_risesFrom id v h (Nat.zero_le _)

/-- In canonical form, a write is read back. -/
theorem get_set_self {m : Memory} (id : VarId) (v : Half) (h : m.wf = true) : (m.set id v).get id = v :=
  get_set_self_from id v h

/-- Every entry after a write is the written one or one from before. -/
theorem mem_set {m : Memory} {id : VarId} {v : Half} {e : VarId × Half} (h : e ∈ m.set id v) : e = (id, v) ∨ e ∈ m := by
  induction m with
  | nil =>
    simp only [Memory.set] at h
    split at h <;> simp_all
  | cons x rest ih =>
    obtain ⟨k, w⟩ := x
    simp only [Memory.set] at h
    split at h
    · split at h <;> simp_all
    · split at h
      · split at h
        · exact .inr (List.mem_cons_of_mem _ h)
        · rcases List.mem_cons.mp h with h | h
          · exact .inl h
          · exact .inr (List.mem_cons_of_mem _ h)
      · rcases List.mem_cons.mp h with h | h
        · exact .inr (by simp [h])
        · rcases ih h with h | h
          · exact .inl h
          · exact .inr (List.mem_cons_of_mem _ h)

/-- A write of a value that fits keeps every value in its type. -/
theorem set_typed {m : Memory} {id : VarId} {v : Half} (hv : valueFits id.ty v = true) (h : m.typed = true) :
    (m.set id v).typed = true := by
  simp only [Memory.typed, List.all_eq_true] at h ⊢
  intro e he
  rcases mem_set he with rfl | he
  · exact hv
  · exact h e he

/-- A write to a catalogued cell stays within the catalogue. -/
theorem set_within {m : Memory} {catalog : List VarFamily} {id : VarId} {v : Half}
    (hid : catalogHas catalog id = true)
    (h : m.within catalog = true) : (m.set id v).within catalog = true := by
  simp only [Memory.within, List.all_eq_true] at h ⊢
  intro e he
  rcases mem_set he with rfl | he
  · exact hid
  · exact h e he

/-- In a typed table every cell, listed or not, reads as a value of its type. -/
theorem typed_get {m : Memory} (h : m.typed = true) (id : VarId) : valueFits id.ty (m.get id) = true := by
  induction m with
  | nil =>
    obtain ⟨d, t, i⟩ := id
    cases t <;> simp [Memory.get, valueFits, unlistedValue, typeWidth]
  | cons e rest ih =>
    obtain ⟨k, w⟩ := e
    simp only [Memory.typed, List.all_cons, Bool.and_eq_true] at h
    simp only [Memory.get]
    split
    · next hk => subst hk; exact h.1
    · exact ih h.2

/-- Two tables in canonical form that read the same at every cell are the same data. -/
theorem ext_from {m n : Memory} {lo lo' : Nat} (hm : m.risesFrom lo = true) (hn : n.risesFrom lo' = true)
    (h : ∀ id, m.get id = n.get id) : m = n := by
  induction m generalizing n lo lo' with
  | nil =>
    cases n with
    | nil => rfl
    | cons e rest =>
      obtain ⟨k, w⟩ := e
      simp only [Memory.risesFrom, Bool.and_eq_true, decide_eq_true_eq] at hn
      have := h k
      simp only [Memory.get, if_true] at this
      exact absurd this.symm hn.1.2
  | cons e rest ih =>
    obtain ⟨k, w⟩ := e
    have hm' := hm
    simp only [Memory.risesFrom, Bool.and_eq_true, decide_eq_true_eq] at hm'
    cases n with
    | nil =>
      have := h k
      simp only [Memory.get, if_true] at this
      exact absurd this hm'.1.2
    | cons e' rest' =>
      obtain ⟨k', w'⟩ := e'
      have hn' := hn
      simp only [Memory.risesFrom, Bool.and_eq_true, decide_eq_true_eq] at hn'
      have hkk : k = k' := by
        by_contra hne
        rcases Nat.lt_trichotomy (varKey k) (varKey k') with hl | he | hl
        · have := h k
          rw [get_of_below (m := (k', w') :: rest') (lo := varKey k') (by
            simp only [Memory.risesFrom, Bool.and_eq_true, decide_eq_true_eq]
            exact ⟨⟨Nat.le_refl _, hn'.1.2⟩, hn'.2⟩) hl] at this
          simp only [Memory.get, if_true] at this
          exact hm'.1.2 this
        · exact hne (varKey_inj he)
        · have := h k'
          rw [get_of_below (m := (k, w) :: rest) (lo := varKey k) (by
            simp only [Memory.risesFrom, Bool.and_eq_true, decide_eq_true_eq]
            exact ⟨⟨Nat.le_refl _, hm'.1.2⟩, hm'.2⟩) hl] at this
          simp only [Memory.get, if_true] at this
          exact hn'.1.2 this.symm
      subst hkk
      have hw : w = w' := by have := h k; simpa [Memory.get] using this
      subst hw
      congr 1
      refine ih hm'.2 hn'.2 fun id => ?_
      by_cases hid : k = id
      · subst hid
        rw [get_of_below hm'.2 (by omega), get_of_below hn'.2 (by omega)]
      · have := h id
        simpa [Memory.get, hid] using this

/-- Equal contents are equal data. -/
theorem memory_ext {m n : Memory} (hm : m.wf = true) (hn : n.wf = true) (h : ∀ id, m.get id = n.get id) : m = n :=
  ext_from hm hn h

end Sys2Proof.Laws
end

