-- ==== Sys2Proof/Laws/Compat.lean ====
section
/-! SUPPORT. The laws of the packer's arithmetic: which pairs there are, that the cells and the offsets of two pairs differ, and the hex
string as a number. -/

namespace Sys2Proof.Laws

open Sys2Proof.Machine

/-- The pairs of the packer's loops are the pairs (l, r) with 1 ≤ l < r ≤ 16 (R25, R151). -/
theorem mem_compatPairs {l r : Nat} : (l, r) ∈ compatPairs ↔ 1 ≤ l ∧ l < r ∧ r ≤ 16 := by
  simp only [compatPairs, List.mem_flatMap, List.mem_range, List.mem_map, Prod.mk.injEq]
  constructor
  · rintro ⟨i, hi, j, hj, rfl, rfl⟩
    omega
  · rintro ⟨h1, h2, h3⟩
    exact ⟨l - 1, by omega, r - l - 1, by omega, by omega, by omega⟩

/-- The offsets of the 120 pairs, in the order of the loops, are 0, 1, ..., 119 (R150). -/
theorem compatPairs_offsets : compatPairs.map (fun q => compatOff q.1 q.2) = List.range 120 := by decide

theorem compatPairs_length : compatPairs.length = 120 := by decide

/-- Different pairs have different offsets (R150). -/
theorem compatOff_inj {q q' : Nat × Nat} (h : q ∈ compatPairs) (h' : q' ∈ compatPairs)
    (he : compatOff q.1 q.2 = compatOff q'.1 q'.2) : q = q' := by
  have hn : (compatPairs.map fun q => compatOff q.1 q.2).Nodup := by rw [compatPairs_offsets]; exact List.nodup_range
  exact List.inj_on_of_nodup_map hn h h' he

/-- Every offset is below 120 (R150). -/
theorem compatOff_lt {q : Nat × Nat} (h : q ∈ compatPairs) : compatOff q.1 q.2 < 120 := by
  have : compatOff q.1 q.2 ∈ compatPairs.map fun q => compatOff q.1 q.2 := List.mem_map_of_mem h
  rw [compatPairs_offsets] at this
  exact List.mem_range.mp this

/-- Every offset below 120 is a pair's (R150). -/
theorem exists_compatOff {k : Nat} (h : k < 120) : ∃ q ∈ compatPairs, compatOff q.1 q.2 = k := by
  have : k ∈ compatPairs.map fun q => compatOff q.1 q.2 := by rw [compatPairs_offsets]; exact List.mem_range.mpr h
  exact List.mem_map.mp this

/-- Different pairs have different cells (R22, R25). -/
theorem compatId_inj {l r l' r' : Nat} (hr : r ≤ 16) (hr' : r' ≤ 16) (h : compatId l r = compatId l' r') : l = l' ∧ r = r' := by
  simp only [compatId, VarId.mk.injEq, true_and] at h
  omega

theorem compatPairs_nodup : compatPairs.Nodup := by
  have hn : (compatPairs.map fun q => compatOff q.1 q.2).Nodup := by rw [compatPairs_offsets]; exact List.nodup_range
  exact List.Nodup.of_map _ hn

theorem compatId_ne {q q' : Nat × Nat} (h : q ∈ compatPairs) (h' : q' ∈ compatPairs) (hne : q ≠ q') :
    compatId q.1 q.2 ≠ compatId q'.1 q'.2 := by
  obtain ⟨l, r⟩ := q
  obtain ⟨l', r'⟩ := q'
  rw [mem_compatPairs] at h h'
  intro he
  obtain ⟨rfl, rfl⟩ := compatId_inj h.2.2 h'.2.2 he
  exact hne rfl

/-! ## The hex string -/

theorem hexDigit_lt {c : Byte} {d : Nat} (h : hexDigit c = some d) : d < 16 := by
  simp only [hexDigit] at h
  split at h
  · simp only [Option.some.injEq] at h; omega
  · split at h
    · simp only [Option.some.injEq] at h; omega
    · split at h
      · simp only [Option.some.injEq] at h; omega
      · simp at h

theorem hexNibbles_length {str : List Byte} {ds : List Nat} (h : hexNibbles str = some ds) : ds.length = str.length := by
  induction str generalizing ds with
  | nil => simp [hexNibbles] at h; subst h; rfl
  | cons c cs ih =>
    simp only [hexNibbles] at h
    split at h
    · next d ds' _ hds =>
      simp only [Option.some.injEq] at h
      subst h
      simp [ih hds]
    · simp at h

/-- Character by character, the nibbles are the characters' values (R92). -/
theorem hexNibbles_get {str : List Byte} {ds : List Nat} (h : hexNibbles str = some ds) (c : Nat) (hc : c < str.length) :
    hexDigit str[c] = some (ds.getD c 0) := by
  induction str generalizing ds c with
  | nil => simp at hc
  | cons x xs ih =>
    simp only [hexNibbles] at h
    split at h
    · next d ds' hd hds =>
      simp only [Option.some.injEq] at h
      subst h
      cases c with
      | zero => simpa using hd
      | succ c => simpa using ih hds c (by simpa using hc)
    · simp at h

theorem nibblesNumber_append (ds : List Nat) (d : Nat) : nibblesNumber (ds ++ [d]) = nibblesNumber ds * 16 + d := by
  simp [nibblesNumber]

/-- Bit `4·(n-1-c) + j` of the number is bit `j` of the nibble of character `c` (R55, R153). -/
theorem testBit_nibblesNumber {ds : List Nat} (hd : ∀ d ∈ ds, d < 16) {c j : Nat} (hc : c < ds.length) (hj : j < 4) :
    (nibblesNumber ds).testBit (4 * (ds.length - 1 - c) + j) = (ds.getD c 0).testBit j := by
  induction ds using List.reverseRecOn generalizing c with
  | nil => simp at hc
  | append_singleton ds d ih =>
    rw [nibblesNumber_append]
    have hd' : d < 2 ^ 4 := by have := hd d (by simp); omega
    have h16 : nibblesNumber ds * 16 + d = 2 ^ 4 * nibblesNumber ds + d := by omega
    rw [h16]
    simp only [List.length_append, List.length_singleton] at hc ⊢
    by_cases hlast : c = ds.length
    · subst hlast
      have e : 4 * (ds.length + 1 - 1 - ds.length) + j = j := by omega
      rw [e, Nat.testBit_two_pow_mul_add _ hd']
      simp [hj, List.getD_eq_getElem?_getD]
    · have hc' : c < ds.length := by omega
      have e : 4 * (ds.length + 1 - 1 - c) + j = 4 + (4 * (ds.length - 1 - c) + j) := by omega
      rw [e, Nat.testBit_two_pow_mul_add _ hd', if_neg (by omega)]
      have e2 : 4 + (4 * (ds.length - 1 - c) + j) - 4 = 4 * (ds.length - 1 - c) + j := by omega
      rw [e2, ih (fun x hx => hd x (by simp [hx])) hc']
      simp [List.getD_eq_getElem?_getD, List.getElem?_append, hc']

theorem hexNibbles_lt {str : List Byte} {ds : List Nat} (h : hexNibbles str = some ds) : ∀ d ∈ ds, d < 16 := by
  induction str generalizing ds with
  | nil => simp [hexNibbles] at h; subst h; simp
  | cons c cs ih =>
    simp only [hexNibbles] at h
    split at h
    · next d ds' hd hds =>
      simp only [Option.some.injEq] at h
      subst h
      intro x hx
      rcases List.mem_cons.mp hx with rfl | hx
      · exact hexDigit_lt hd
      · exact ih hds x hx
    · simp at h

end Sys2Proof.Laws
end

