-- ==== Sys2Proof/Laws/Decode.lean ====
section
/-! SUPPORT. The laws of the byte strings that the decoder reads and the encoder writes: each operand layout is read back from its bytes,
and what is read as an operand has those bytes. -/

namespace Sys2Proof.Laws

/-- A number that fits is read back from its bytes (R101). -/
theorem leNat_leBytes (n v : Nat) (h : v < 256 ^ n) : leNat (leBytes n v) = v := by
  induction n generalizing v with
  | zero => simp [leBytes, leNat] at *; omega
  | succ n ih =>
    simp only [leBytes, leNat, BitVec.toNat_ofNat]
    rw [ih (v / 256) (by rw [Nat.pow_succ] at h; omega)]
    omega

/-- As many bytes as asked for. -/
theorem leBytes_length (n v : Nat) : (leBytes n v).length = n := by
  induction n generalizing v with
  | zero => rfl
  | succ n ih => simp [leBytes, ih]

/-- Bytes are read back from their number (R101). -/
theorem leBytes_leNat (l : List Byte) : leBytes l.length (leNat l) = l := by
  induction l with
  | nil => rfl
  | cons x xs ih =>
    have hx := x.isLt
    simp only [List.length_cons, leBytes, leNat]
    have e1 : BitVec.ofNat 8 (x.toNat + 256 * leNat xs) = x := by
      apply BitVec.eq_of_toNat_eq; simp [BitVec.toNat_ofNat]; omega
    have e2 : (x.toNat + 256 * leNat xs) / 256 = leNat xs := by omega
    rw [e1, e2, ih]

/-- The number of a byte string fits its bytes. -/
theorem leNat_lt (l : List Byte) : leNat l < 256 ^ l.length := by
  induction l with
  | nil => simp [leNat]
  | cons x xs ih =>
    have hx := x.isLt
    simp only [List.length_cons, leNat, Nat.pow_succ]; omega

/-- Taking what was put in front. -/
theorem takeBytes_append (l rest : List Byte) : takeBytes l.length (l ++ rest) = some (l, rest) := by
  simp [takeBytes]

/-- A string with a two-byte length is read back (R101). -/
theorem takeString16_enc (l : List Byte) (h : l.length < 65536) : takeString16 (leBytes 2 l.length ++ l) = some (l, []) := by
  have : leBytes 2 l.length = [BitVec.ofNat 8 l.length, BitVec.ofNat 8 (l.length / 256)] := rfl
  rw [this]
  simp only [List.cons_append, List.nil_append, takeString16]
  have e := leNat_leBytes 2 l.length (by simpa using h)
  rw [this] at e
  rw [e]
  simpa using takeBytes_append l []

/-- A string with a one-byte length is read back (R101). -/
theorem takeString8_enc (l : List Byte) (h : l.length < 256) : takeString8 (leBytes 1 l.length ++ l) = some (l, []) := by
  have : leBytes 1 l.length = [BitVec.ofNat 8 l.length] := rfl
  rw [this]
  simp only [List.cons_append, List.nil_append, takeString8]
  have e : (BitVec.ofNat 8 l.length).toNat = l.length := by simp; omega
  rw [e]
  simpa using takeBytes_append l []

/-- Sensor results are read back (R101). -/
theorem sensorResults_enc (r : List Bool) : sensorResults (r.map sensorByte) = .ok r := by
  induction r with
  | nil => rfl
  | cons x xs ih => cases x <;> simp [sensorResults, sensorByte, ih, Except.map]

/-- Domain codes are read back (R94). -/
theorem domainOfCode_code (d : Domain) : domainOfCode (BitVec.ofNat 8 d.code) = some d := by cases d <;> rfl
/-- Type codes are read back (R94). -/
theorem varTypeOfCode_code (d : VarType) : varTypeOfCode (BitVec.ofNat 8 d.code) = some d := by cases d <;> rfl

/-- An identity operand is read back (R101). -/
theorem decodeId_enc (id : VarId) (h : id.wf = true) (rest : List Byte) : decodeId (encodeId id ++ rest) = .ok (id, rest) := by
  obtain ⟨d, t, i⟩ := id
  simp only [VarId.wf, decide_eq_true_eq] at h
  have e := leNat_leBytes 2 i (by simpa using h)
  simp only [leBytes] at e
  simp only [encodeId, leBytes, List.cons_append, List.nil_append, decodeId, domainOfCode_code, varTypeOfCode_code, e]

/-- What reads as an identity is that identity's bytes and what follows (R101). -/
theorem decodeId_inv {l : List Byte} {id rest} (h : decodeId l = .ok (id, rest)) : l = encodeId id ++ rest := by
  match l with
  | d :: t :: lo :: hi :: r =>
    simp only [decodeId] at h
    split at h
    · rename_i dom ty hd ht
      simp only [Except.ok.injEq, Prod.mk.injEq] at h
      obtain ⟨rfl, rfl⟩ := h
      have h1 : BitVec.ofNat 8 dom.code = d := by
        unfold domainOfCode at hd; split at hd <;> simp at hd <;> subst hd <;> apply BitVec.eq_of_toNat_eq <;> simp_all [Domain.code]
      have h2 : BitVec.ofNat 8 ty.code = t := by
        unfold varTypeOfCode at ht; split at ht <;> simp at ht <;> subst ht <;> apply BitVec.eq_of_toNat_eq <;> simp_all [VarType.code]
      have := leBytes_leNat [lo, hi]
      simp only [List.length_cons, List.length_nil] at this
      simp [encodeId, h1, h2, this]
    · simp at h
    · simp at h
  | [] | [_] | [_,_] | [_,_,_] => simp [decodeId] at h

/-- What is taken off a byte string, put back. -/
theorem takeBytes_inv {n} {l a r : List Byte} (h : takeBytes n l = some (a, r)) : l = a ++ r ∧ a.length = n := by
  simp only [takeBytes] at h
  split at h
  · simp only [Option.some.injEq, Prod.mk.injEq] at h
    obtain ⟨rfl, rfl⟩ := h
    simp; omega
  · simp at h

/-- What reads as a string with a two-byte length is its length, its bytes and what follows. -/
theorem takeString16_inv {l a r : List Byte} (h : takeString16 l = some (a, r)) : l = leBytes 2 a.length ++ a ++ r := by
  match l with
  | lo :: hi :: rest =>
    simp only [takeString16] at h
    obtain ⟨rfl, e⟩ := takeBytes_inv h
    rw [e]
    have := leBytes_leNat [lo, hi]
    simp only [List.length_cons, List.length_nil] at this
    simp [this]
  | [] | [_] => simp [takeString16] at h

/-- What reads as a string with a one-byte length is its length, its bytes and what follows. -/
theorem takeString8_inv {l a r : List Byte} (h : takeString8 l = some (a, r)) : l = leBytes 1 a.length ++ a ++ r := by
  match l with
  | n :: rest =>
    simp only [takeString8] at h
    obtain ⟨rfl, e⟩ := takeBytes_inv h
    rw [e]
    simp [leBytes]
  | [] => simp [takeString8] at h

/-- What reads as sensor results is their bytes. -/
theorem sensorResults_inv {l : List Byte} {r} (h : sensorResults l = .ok r) : l = r.map sensorByte := by
  induction l generalizing r with
  | nil => simp [sensorResults] at h; subst h; rfl
  | cons x xs ih =>
    simp only [sensorResults] at h
    cases hx : sensorResults xs with
    | error e =>
      simp only [hx, Except.map] at h
      split at h
      · simp at h
      · split at h <;> simp at h
    | ok ys =>
      simp only [hx, Except.map] at h
      split at h
      · simp at h; subst h; simp_all [sensorByte]
      · split at h
        · simp at h; subst h; simp_all [sensorByte]
        · simp at h

/-- The frame that the type byte selects has that type byte (R80, R93). -/
theorem frameInstr_enc (a c t : Byte) (p) : encode (frameInstr a c t p) = .line (a :: c :: t :: p) := by
  have hc : ∀ n : Nat, t.toNat = n → t = BitVec.ofNat 8 n := by
    intro n hn; apply BitVec.eq_of_toNat_eq; have := t.isLt; simp; omega
  unfold frameInstr
  split <;> first | (rename_i h; rw [hc _ h]; rfl) | rfl

end Sys2Proof.Laws
end

