-- ==== Sys2Proof/Laws/Operands.lean ====
section
/-! SUPPORT. The laws of buffers and elements: what a byte, bit or word put into a buffer leaves at every byte, the length that no
encode changes, and what the elements of a definition do to the table and to a buffer. -/

namespace Sys2Proof.Laws

open Sys2Proof.Machine

/-! ## Bytes -/

@[simp] theorem putByte_length (buf : List Byte) (a : Nat) (v : Byte) : (putByte buf a v).length = buf.length := by
  simp [putByte]

theorem byteAt_of_length_le {buf : List Byte} {a : Nat} (h : buf.length ≤ a) : byteAt buf a = 0 := by
  simp [byteAt, List.getElem?_eq_none h]

/-- What stands at a byte after a byte was put. -/
theorem byteAt_putByte (buf : List Byte) (a a' : Nat) (v : Byte) :
    byteAt (putByte buf a v) a' = if a' = a ∧ a < buf.length then v else byteAt buf a' := by
  simp only [byteAt, putByte, List.getD_eq_getElem?_getD, List.getElem?_set]
  by_cases h : a = a'
  · subst h
    by_cases hl : a < buf.length
    · simp [hl]
    · simp [hl]
  · simp [h, Ne.symm h]

theorem byteAt_putByte_self {buf : List Byte} {a : Nat} (v : Byte) (h : a < buf.length) : byteAt (putByte buf a v) a = v := by
  simp [byteAt_putByte, h]

theorem byteAt_putByte_other (buf : List Byte) {a a' : Nat} (v : Byte) (h : a' ≠ a) :
    byteAt (putByte buf a v) a' = byteAt buf a' := by
  simp [byteAt_putByte, h]

/-- Two buffers of one length that agree at every byte are equal. -/
theorem buffer_ext {x y : List Byte} (hl : x.length = y.length) (h : ∀ a, a < x.length → byteAt x a = byteAt y a) : x = y := by
  apply List.ext_getElem hl
  intro i h1 h2
  have := h i h1
  simpa [byteAt, List.getD_eq_getElem?_getD, List.getElem?_eq_getElem h1, List.getElem?_eq_getElem h2] using this

theorem byteAt_take (buf : List Byte) (n a : Nat) (h : a < n) : byteAt (buf.take n) a = byteAt buf a := by
  simp [byteAt, List.getD_eq_getElem?_getD, h]

theorem byteAt_drop (buf : List Byte) (n a : Nat) : byteAt (buf.drop n) a = byteAt buf (n + a) := by
  simp [byteAt, List.getD_eq_getElem?_getD, List.getElem?_drop]

/-! ## Elements into a buffer -/

@[simp] theorem elementPut_length (buf : List Byte) (e : Element) (v : Half) : (elementPut buf e v).length = buf.length := by
  unfold elementPut
  split <;> simp [orBit, putWord]

/-- An element encode writes no byte outside the bytes it covers (R128). -/
theorem byteAt_elementPut_other (buf : List Byte) (e : Element) (v : Half) {a : Nat}
    (h : a < elementFirstByte e ∨ elementLastByte e < a) : byteAt (elementPut buf e v) a = byteAt buf a := by
  unfold elementPut
  cases hk : e.kind <;> simp only [elementFirstByte, elementLastByte, hk] at h ⊢
  · exact byteAt_putByte_other _ _ (by omega)
  · exact byteAt_putByte_other _ _ (by omega)
  · rw [putWord, byteAt_putByte_other _ _ (by omega), byteAt_putByte_other _ _ (by omega)]

/-- An element in bounds covers payload bytes of its frame (R58). -/
theorem inBounds_bytes {len : Nat} {e : Element} (h : elementInBounds len e = true) :
    3 ≤ elementFirstByte e ∧ elementFirstByte e ≤ elementLastByte e ∧ elementLastByte e < len := by
  unfold elementInBounds at h
  cases hk : e.kind <;> simp only [hk, Bool.and_eq_true, decide_eq_true_eq] at h <;> simp only [Config.hdrLen] at h <;>
    simp only [elementFirstByte, elementLastByte, hk] <;> omega

theorem inBounds_mono {len len' : Nat} {e : Element} (hl : len ≤ len') (h : elementInBounds len e = true) :
    elementInBounds len' e = true := by
  unfold elementInBounds at h ⊢
  cases hk : e.kind <;> simp only [hk, Bool.and_eq_true, decide_eq_true_eq] at h ⊢ <;> omega

/-! ## The header -/

@[simp] theorem fillFrame_length (buf : List Byte) (addr type : Byte) (len : Nat) : (fillFrame buf addr type len).length = buf.length := by
  simp [fillFrame]
  omega

/-- The bytes of a filled frame: the header, zeros up to the length, and the old bytes beyond it (R31, R131). -/
theorem byteAt_fillFrame (buf : List Byte) (addr type : Byte) {len : Nat} (h3 : 3 ≤ len) (hl : len ≤ buf.length) (a : Nat) :
    byteAt (fillFrame buf addr type len) a =
      if a = 0 then addr else if a = 1 then Config.ctl else if a = 2 then type else if a < len then 0 else byteAt buf a := by
  simp only [fillFrame, byteAt_putByte, putByte_length, List.length_append, List.length_replicate, List.length_drop]
  have e0 : min len buf.length = len := by omega
  rw [e0]
  by_cases h0 : a = 0
  · subst h0; simp; omega
  · by_cases h1 : a = 1
    · subst h1; simp; omega
    · by_cases h2 : a = 2
      · subst h2; simp; omega
      · simp only [h0, h1, h2, false_and, if_false]
        by_cases ha : a < len
        · simp [byteAt, List.getD_eq_getElem?_getD, List.getElem?_append, ha]
        · simp only [ha, if_false, byteAt, List.getD_eq_getElem?_getD, List.getElem?_append, List.length_replicate]
          rw [List.getElem?_drop]
          congr 2
          omega

/-! ## The elements of a definition -/

@[simp] theorem encodeElements_length (m : Memory) (es : List Element) (buf : List Byte) :
    (encodeElements m es buf).length = buf.length := by
  unfold encodeElements
  induction es generalizing buf with
  | nil => rfl
  | cons e es ih => simp [ih]

@[simp] theorem encodeFrame_length (m : Memory) (d : FrameDef) (buf : List Byte) : (encodeFrame m d buf).length = buf.length := by
  simp [encodeFrame]

/-- The elements of a definition leave the header and the bytes beyond its length alone (R128, R131). -/
theorem byteAt_encodeElements_other (m : Memory) {es : List Element} {len : Nat} (h : ∀ e ∈ es, elementInBounds len e = true)
    (buf : List Byte) {a : Nat} (ha : a < 3 ∨ len ≤ a) : byteAt (encodeElements m es buf) a = byteAt buf a := by
  unfold encodeElements
  induction es generalizing buf with
  | nil => rfl
  | cons e es ih =>
    simp only [List.foldl_cons]
    rw [ih (fun x hx => h x (List.mem_cons_of_mem _ hx))]
    have := inBounds_bytes (h e List.mem_cons_self)
    exact byteAt_elementPut_other _ _ _ (by omega)

/-- A frame that is encoded has its header, and the buffer beyond it is as before (R31, R81, R131). -/
theorem encodeFrame_outside (m : Memory) {d : FrameDef} (h3 : 3 ≤ d.len) (hb : ∀ e ∈ d.elems, elementInBounds d.len e = true)
    {buf : List Byte} (hl : d.len ≤ buf.length) {a : Nat} (ha : a < 3 ∨ d.len ≤ a) :
    byteAt (encodeFrame m d buf) a =
      if a = 0 then d.addr else if a = 1 then Config.ctl else if a = 2 then d.type else byteAt buf a := by
  rw [encodeFrame, byteAt_encodeElements_other m hb _ ha, byteAt_fillFrame _ _ _ h3 hl]
  have : ¬ (3 ≤ a ∧ a < d.len) := by omega
  split
  · rfl
  · split
    · rfl
    · split
      · rfl
      · rw [if_neg (by omega)]

@[simp] theorem decodeElements_nil (buf : List Byte) (m : Memory) : decodeElements buf [] m = m := rfl
@[simp] theorem decodeElements_cons (buf : List Byte) (e : Element) (es : List Element) (m : Memory) :
    decodeElements buf (e :: es) m = decodeElements buf es (m.set e.id (elementValue buf e)) := rfl

theorem decodeElements_append (buf : List Byte) (es fs : List Element) (m : Memory) :
    decodeElements buf (es ++ fs) m = decodeElements buf fs (decodeElements buf es m) := by
  simp [decodeElements]

theorem decodeElements_wf (buf : List Byte) (es : List Element) {m : Memory} (h : m.wf = true) :
    (decodeElements buf es m).wf = true := by
  induction es generalizing m with
  | nil => exact h
  | cons e es ih => exact ih (set_wf _ _ h)

/-- After decoding, a cell holds what the last element that names it read, and any other cell what it held (R126). -/
theorem get_decodeElements (buf : List Byte) (es : List Element) {m : Memory} (h : m.wf = true) (id : VarId) :
    (decodeElements buf es m).get id =
      match es.reverse.find? fun e => decide (e.id = id) with
      | some e => elementValue buf e
      | none => m.get id := by
  induction es using List.reverseRecOn with
  | nil => rfl
  | append_singleton es e ih =>
    rw [decodeElements_append, decodeElements_cons, decodeElements_nil, List.reverse_append, List.reverse_singleton,
      List.singleton_append, List.find?_cons]
    by_cases he : e.id = id
    · subst he
      simp [get_set_self _ _ (decodeElements_wf buf es h)]
    · rw [get_set_other _ (Ne.symm he), ih]
      simp [he]

/-- A decoded value fits the type its kind carries (R21, R86). -/
theorem elementValue_fits (buf : List Byte) (e : Element) : valueFits (kindType e.kind) (elementValue buf e) = true := by
  unfold elementValue
  cases e.kind
  · cases bitAt buf e.pos <;> rfl
  · have := (byteAt buf e.pos).isLt
    simp only [valueFits, kindType, typeWidth, decide_eq_true_eq, BitVec.toNat_setWidth]
    omega
  · exact decide_eq_true (wordAt buf e.pos).isLt

theorem halfOfBit_fits (v : Bool) : valueFits .b1 (halfOfBit v) = true := by cases v <;> decide

@[simp] theorem halfOfBit_bit (v : Bool) : (halfOfBit v).getLsbD 0 = v := by cases v <;> decide

/-! ## Bits -/

/-- What stands at a bit after a bit was ORed in (R121). -/
theorem bitAt_orBit (buf : List Byte) (pos p : Nat) (v : Bool) (h : pos < 8 * buf.length) :
    bitAt (orBit buf pos v) p = (bitAt buf p || (decide (p = pos) && v)) := by
  simp only [orBit, bitAt, byteAt_putByte]
  by_cases h : p / 8 = pos / 8
  · rw [if_pos ⟨h, by omega⟩, h]
    simp only [BitVec.getLsbD_or, BitVec.getLsbD_shiftLeft, BitVec.getLsbD_setWidth, BitVec.getLsbD_ofBool]
    congr 1
    by_cases hp : p = pos
    · subst hp; simp; omega
    · have hmod : p % 8 ≠ pos % 8 := by omega
      by_cases hlt : p % 8 < pos % 8
      · simp [hp, hlt]
      · have : p % 8 - pos % 8 ≠ 0 := by omega
        simp [hp, this]
  · have hp : p ≠ pos := by rintro rfl; exact h rfl
    simp [h, hp]

/-- A bit beyond the buffer is ORed nowhere. -/
theorem orBit_outside (buf : List Byte) (pos : Nat) (v : Bool) (h : ¬ pos < 8 * buf.length) : orBit buf pos v = buf := by
  unfold orBit putByte
  exact List.set_eq_of_length_le (by omega)

/-- A byte or a word element assigns every bit it covers (R123, R125). -/
theorem bitAt_elementPut_assign (buf : List Byte) {e : Element} (v : Half) {p : Nat} (hk : e.kind ≠ .bit)
    (hc : elementCovers e p = true) (hp : p < 8 * buf.length) :
    bitAt (elementPut buf e v) p = v.getLsbD (p - 8 * e.pos) := by
  have hlt : p / 8 < buf.length := by omega
  unfold elementCovers at hc
  unfold elementPut
  cases hk' : e.kind with
  | bit => exact absurd hk' hk
  | byte =>
    simp only [hk', decide_eq_true_eq] at hc
    have e1 : p - 8 * e.pos = p % 8 := by omega
    have e2 : p % 8 < 8 := by omega
    simp only [bitAt, byteAt_putByte, e1]
    rw [if_pos ⟨hc, by omega⟩]
    simp [e2]
  | word =>
    simp only [hk', Bool.or_eq_true, decide_eq_true_eq] at hc
    have e2 : p % 8 < 8 := by omega
    simp only [bitAt, putWord, byteAt_putByte, putByte_length]
    rcases hc with hc | hc
    · have e1 : p - 8 * e.pos = p % 8 := by omega
      rw [if_neg (by omega), if_pos ⟨hc, by omega⟩, e1]
      simp [e2]
    · have e1 : p - 8 * e.pos = 8 + p % 8 := by omega
      rw [if_pos ⟨hc, by omega⟩, e1]
      simp [e2]

/-- An element encode leaves every bit alone that it does not cover (R128). -/
theorem bitAt_elementPut_other (buf : List Byte) (e : Element) (v : Half) (p : Nat) (h : elementCovers e p = false) :
    bitAt (elementPut buf e v) p = bitAt buf p := by
  unfold elementCovers at h
  unfold elementPut
  cases hk : e.kind <;> simp only [hk] at h ⊢
  · simp only [decide_eq_false_iff_not] at h
    by_cases hb : e.pos < 8 * buf.length
    · rw [bitAt_orBit _ _ _ _ hb]
      simp [h]
    · rw [orBit_outside _ _ _ hb]
  · simp only [decide_eq_false_iff_not] at h
    simp [bitAt, byteAt_putByte, h]
  · simp only [Bool.or_eq_false_iff, decide_eq_false_iff_not] at h
    simp [bitAt, putWord, byteAt_putByte, h]

/-- A bit that no element covers is as before (R97). -/
theorem bitAt_encodeElements_other (m : Memory) (es : List Element) (buf : List Byte) (p : Nat)
    (h : ∀ e ∈ es, elementCovers e p = false) : bitAt (encodeElements m es buf) p = bitAt buf p := by
  unfold encodeElements
  induction es generalizing buf with
  | nil => rfl
  | cons e es ih =>
    rw [List.foldl_cons, ih _ fun x hx => h x (List.mem_cons_of_mem _ hx)]
    exact bitAt_elementPut_other _ _ _ _ (h e List.mem_cons_self)

/-- A bit of the buffer that only bit elements cover ends as the OR of their cells over what stood there (R121, R137). -/
theorem bitAt_encodeElements (m : Memory) (es : List Element) (buf : List Byte) (p : Nat) (hp : p < 8 * buf.length)
    (h : ∀ e ∈ es, elementCovers e p = true → e.kind = .bit) :
    bitAt (encodeElements m es buf) p = (bitAt buf p || es.any fun e => elementCovers e p && (m.get e.id).getLsbD 0) := by
  unfold encodeElements
  induction es generalizing buf with
  | nil => simp
  | cons e es ih =>
    rw [List.foldl_cons, ih _ (by simpa using hp) fun x hx => h x (List.mem_cons_of_mem _ hx), List.any_cons, ← Bool.or_assoc]
    congr 1
    by_cases hc : elementCovers e p = true
    · have hk := h e List.mem_cons_self hc
      have hpos : p = e.pos := by simpa [elementCovers, hk] using hc
      simp only [elementPut, hk]
      rw [bitAt_orBit _ _ _ _ (hpos ▸ hp), hc, hpos]
      simp
    · have hc : elementCovers e p = false := by simpa using hc
      rw [bitAt_elementPut_other _ _ _ _ hc, hc]
      simp

end Sys2Proof.Laws
end

