-- ==== Sys2Proof/Laws/Definitions.lean ====
section
/-! SUPPORT. What well-formed definitions give: the definition a type selects, the pair a type byte selects, and the length of the response
buffer. -/

namespace Sys2Proof.Laws

open Sys2Proof.Machine

/-- The definition that a type selects stands in the store and has that type (R82). -/
theorem frameOf_mem {p : Params} {t : Byte} {d : FrameDef} (h : frameOf p t = some d) : d ∈ p.frames ∧ d.type = t := by
  unfold frameOf at h
  exact ⟨List.mem_of_find?_eq_some h, by simpa using List.find?_some h⟩

/-- All the checks of R87, where the parameters pass them. -/
theorem paramsWf_checks {p : Params} (h : paramsWf p = true) :
    p.frames.all wfLen = true ∧ p.frames.all wfBounds = true ∧ p.frames.all wfKindType = true ∧ p.frames.all (wfId p) = true
      ∧ wfUnique p = true ∧ (dispatchTable p).all (wfPair p) = true := by
  simp only [paramsWf, decide_eq_true_eq] at h
  unfold failedCheck at h
  split at h
  · cases h
  · split at h
    · cases h
    · split at h
      · cases h
      · split at h
        · cases h
        · split at h
          · cases h
          · split at h
            · cases h
            · simp_all

/-- Well-formed parameters fail no check. -/
theorem failedCheck_none {p : Params} (h : paramsWf p = true) : failedCheck p = none := by simpa [paramsWf] using h

/-- A well-formed definition: its length, its elements' bounds, types and identities (R58, R86, R87). -/
theorem frameOf_wf {p : Params} {t : Byte} {d : FrameDef} (h : paramsWf p = true) (hd : frameOf p t = some d) :
    3 ≤ d.len ∧ d.len ≤ 256 ∧ (∀ e ∈ d.elems, elementInBounds d.len e = true)
      ∧ (∀ e ∈ d.elems, e.id.ty = kindType e.kind) ∧ (∀ e ∈ d.elems, inCatalog p e.id = true) := by
  obtain ⟨h1, h2, h3, h4, -, -⟩ := paramsWf_checks h
  obtain ⟨hm, -⟩ := frameOf_mem hd
  rw [List.all_eq_true] at h1 h2 h3 h4
  have a := h1 d hm
  have b := h2 d hm
  have c := h3 d hm
  have e := h4 d hm
  simp only [wfLen, Bool.and_eq_true, decide_eq_true_eq] at a
  simp only [Config.hdrLen] at a
  simp only [wfBounds, List.all_eq_true] at b
  simp only [wfKindType, List.all_eq_true, decide_eq_true_eq] at c
  simp only [wfId, List.all_eq_true, Bool.and_eq_true] at e
  exact ⟨a.1.1, a.1.2, b, c, fun x hx => (e x hx).2⟩

/-- The pair that a type byte selects: its definitions, their directions and types (R30, R87, R93, R160). -/
theorem pairOf_some {p : Params} {t : Byte} {c r : FrameDef} (h : paramsWf p = true) (hp : pairOf p t = some (c, r)) :
    frameOf p t = some c ∧ frameOf p (t + 128) = some r ∧ c.dir = .cmdRcvdBySecondary ∧ r.dir = .rspGenBySecondary
      ∧ c.type = t ∧ r.type = t + 128 ∧ t.toNat < 128 := by
  obtain ⟨-, -, -, -, -, h6⟩ := paramsWf_checks h
  unfold pairOf at hp
  split at hp
  · cases hp
  · next q hq =>
    have hqm := List.mem_of_find?_eq_some hq
    have hqt : q.1 = t := by simpa using List.find?_some hq
    have hw := List.all_eq_true.mp h6 q hqm
    split at hp
    · next c' r' hc hr =>
      simp only [Option.some.injEq, Prod.mk.injEq] at hp
      obtain ⟨rfl, rfl⟩ := hp
      simp only [wfPair, hc, hr, Bool.and_eq_true, decide_eq_true_eq] at hw
      obtain ⟨⟨w1, w2⟩, w3⟩ := hw
      have hlt := q.2.isLt
      have hq2 : q.2 = t + 128 := by
        apply BitVec.eq_of_toNat_eq
        rw [← hqt, BitVec.toNat_add]
        have : (128 : Byte).toNat = 128 := rfl
        omega
      rw [hqt] at hc w3
      rw [hq2] at hr
      exact ⟨hc, hr, w1, w2, (frameOf_mem hc).2, (frameOf_mem hr).2, by omega⟩
    · cases hp

/-- A type of 128 or more selects no pair (R96). -/
theorem pairOf_response {p : Params} {t : Byte} (h : paramsWf p = true) (ht : 128 ≤ t.toNat) : pairOf p t = none := by
  cases hp : pairOf p t with
  | none => rfl
  | some q =>
    obtain ⟨c, r⟩ := q
    have := (pairOf_some h hp).2.2.2.2.2.2
    omega

theorem foldl_max_le (ds : List FrameDef) (n : Nat) :
    n ≤ ds.foldl (fun n d => if d.dir = .rspGenBySecondary then max n d.len else n) n := by
  induction ds generalizing n with
  | nil => exact Nat.le_refl _
  | cons d ds ih =>
    refine Nat.le_trans ?_ (ih _)
    show n ≤ if _ then _ else _
    split
    · exact Nat.le_max_left _ _
    · exact Nat.le_refl _

/-- Every response fits the shared response buffer (R5, R31). -/
theorem len_le_respBufLen {p : Params} {d : FrameDef} (hd : d ∈ p.frames) (hdir : d.dir = .rspGenBySecondary) :
    d.len ≤ respBufLen p := by
  unfold respBufLen
  generalize 0 = n
  revert n
  generalize p.frames = ds at hd ⊢
  induction ds with
  | nil => cases hd
  | cons x ds ih =>
    intro n
    rw [List.foldl_cons]
    rcases List.mem_cons.mp hd with rfl | hd
    · rw [if_pos hdir]
      exact Nat.le_trans (Nat.le_max_right _ _) (foldl_max_le _ _)
    · exact ih hd _

end Sys2Proof.Laws
end

