-- ==== Sys2Proof/Laws/State.lean ====
section
/-! SUPPORT. One lemma per field per named update of the state: what the update leaves in that field. -/

namespace Sys2Proof.Laws

open Sys2Proof.Machine

/-! ## setVar -/

@[simp] theorem setVar_params (s : State) (id : VarId) (v : Half) : (s.setVar id v).params = s.params := rfl
@[simp] theorem setVar_cfg (s : State) (id : VarId) (v : Half) : (s.setVar id v).cfg = s.cfg := rfl
@[simp] theorem setVar_boot (s : State) (id : VarId) (v : Half) : (s.setVar id v).boot = s.boot := rfl
@[simp] theorem setVar_mem (s : State) (id : VarId) (v : Half) :
    (s.setVar id v).mem = if s.depth id = 0 then s.mem.set id v else s.mem := rfl
@[simp] theorem setVar_past (s : State) (id : VarId) (v : Half) :
    (s.setVar id v).past =
      if s.depth id = 0 then markSeen s.who id (s.unseen id).length s.past ++ [⟨id, s.getVar id, s.who, [s.who]⟩]
      else placeWrite s.who id v ((s.unseen id).length - s.depth id) s.past := rfl
@[simp] theorem setVar_picks (s : State) (id : VarId) (v : Half) : (s.setVar id v).picks = s.picks := rfl
@[simp] theorem setVar_freeCount (s : State) (id : VarId) (v : Half) : (s.setVar id v).freeCount = s.freeCount := rfl
@[simp] theorem setVar_tx (s : State) (id : VarId) (v : Half) : (s.setVar id v).tx = s.tx := rfl
@[simp] theorem setVar_rx (s : State) (id : VarId) (v : Half) : (s.setVar id v).rx = s.rx := rfl
@[simp] theorem setVar_b (s : State) (id : VarId) (v : Half) : (s.setVar id v).b = s.b := rfl
@[simp] theorem setVar_en (s : State) (id : VarId) (v : Half) : (s.setVar id v).en = s.en := rfl
@[simp] theorem setVar_ready (s : State) (id : VarId) (v : Half) : (s.setVar id v).ready = s.ready := rfl
@[simp] theorem setVar_fault (s : State) (id : VarId) (v : Half) : (s.setVar id v).fault = s.fault := rfl
@[simp] theorem setVar_loop (s : State) (id : VarId) (v : Half) : (s.setVar id v).loop = s.loop := rfl
@[simp] theorem setVar_atHead (s : State) (id : VarId) (v : Half) : (s.setVar id v).atHead = s.atHead := rfl
@[simp] theorem setVar_checkAtA (s : State) (id : VarId) (v : Half) : (s.setVar id v).checkAtA = s.checkAtA := rfl
@[simp] theorem setVar_respLen (s : State) (id : VarId) (v : Half) : (s.setVar id v).respLen = s.respLen := rfl
@[simp] theorem setVar_acc (s : State) (id : VarId) (v : Half) : (s.setVar id v).acc = s.acc := rfl
@[simp] theorem setVar_opens (s : State) (id : VarId) (v : Half) : (s.setVar id v).opens = s.opens := rfl
@[simp] theorem setVar_who (s : State) (id : VarId) (v : Half) : (s.setVar id v).who = s.who := rfl
@[simp] theorem setVar_turns (s : State) (id : VarId) (v : Half) : (s.setVar id v).turns = s.turns := rfl
@[simp] theorem setVar_replies (s : State) (id : VarId) (v : Half) : (s.setVar id v).replies = s.replies := rfl
@[simp] theorem setVar_events (s : State) (id : VarId) (v : Half) : (s.setVar id v).events = s.events := rfl
@[simp] theorem setVar_sent (s : State) (id : VarId) (v : Half) : (s.setVar id v).sent = s.sent := rfl

/-! ## seeVar -/

@[simp] theorem seeVar_params (s : State) (id : VarId) : (s.seeVar id).params = s.params := rfl
@[simp] theorem seeVar_cfg (s : State) (id : VarId) : (s.seeVar id).cfg = s.cfg := rfl
@[simp] theorem seeVar_boot (s : State) (id : VarId) : (s.seeVar id).boot = s.boot := rfl
@[simp] theorem seeVar_mem (s : State) (id : VarId) : (s.seeVar id).mem = s.mem := rfl
@[simp] theorem seeVar_tx (s : State) (id : VarId) : (s.seeVar id).tx = s.tx := rfl
@[simp] theorem seeVar_rx (s : State) (id : VarId) : (s.seeVar id).rx = s.rx := rfl
@[simp] theorem seeVar_b (s : State) (id : VarId) : (s.seeVar id).b = s.b := rfl
@[simp] theorem seeVar_en (s : State) (id : VarId) : (s.seeVar id).en = s.en := rfl
@[simp] theorem seeVar_ready (s : State) (id : VarId) : (s.seeVar id).ready = s.ready := rfl
@[simp] theorem seeVar_fault (s : State) (id : VarId) : (s.seeVar id).fault = s.fault := rfl
@[simp] theorem seeVar_loop (s : State) (id : VarId) : (s.seeVar id).loop = s.loop := rfl
@[simp] theorem seeVar_atHead (s : State) (id : VarId) : (s.seeVar id).atHead = s.atHead := rfl
@[simp] theorem seeVar_checkAtA (s : State) (id : VarId) : (s.seeVar id).checkAtA = s.checkAtA := rfl
@[simp] theorem seeVar_respLen (s : State) (id : VarId) : (s.seeVar id).respLen = s.respLen := rfl
@[simp] theorem seeVar_acc (s : State) (id : VarId) : (s.seeVar id).acc = s.acc := rfl
@[simp] theorem seeVar_opens (s : State) (id : VarId) : (s.seeVar id).opens = s.opens := rfl
@[simp] theorem seeVar_who (s : State) (id : VarId) : (s.seeVar id).who = s.who := rfl
@[simp] theorem seeVar_picks (s : State) (id : VarId) : (s.seeVar id).picks = s.picks := rfl
@[simp] theorem seeVar_freeCount (s : State) (id : VarId) : (s.seeVar id).freeCount = s.freeCount := rfl
@[simp] theorem seeVar_turns (s : State) (id : VarId) : (s.seeVar id).turns = s.turns := rfl
@[simp] theorem seeVar_replies (s : State) (id : VarId) : (s.seeVar id).replies = s.replies := rfl
@[simp] theorem seeVar_events (s : State) (id : VarId) : (s.seeVar id).events = s.events := rfl
@[simp] theorem seeVar_sent (s : State) (id : VarId) : (s.seeVar id).sent = s.sent := rfl
@[simp] theorem seeVar_past (s : State) (id : VarId) :
    (s.seeVar id).past = markSeen s.who id ((s.unseen id).length - s.depth id) s.past := rfl

/-! ## settle -/

@[simp] theorem settle_params (s : State) : s.settle.params = s.params := rfl
@[simp] theorem settle_cfg (s : State) : s.settle.cfg = s.cfg := rfl
@[simp] theorem settle_boot (s : State) : s.settle.boot = s.boot := rfl
@[simp] theorem settle_mem (s : State) : s.settle.mem = s.mem := rfl
@[simp] theorem settle_tx (s : State) : s.settle.tx = s.tx := rfl
@[simp] theorem settle_rx (s : State) : s.settle.rx = s.rx := rfl
@[simp] theorem settle_b (s : State) : s.settle.b = s.b := rfl
@[simp] theorem settle_en (s : State) : s.settle.en = s.en := rfl
@[simp] theorem settle_ready (s : State) : s.settle.ready = s.ready := rfl
@[simp] theorem settle_fault (s : State) : s.settle.fault = s.fault := rfl
@[simp] theorem settle_loop (s : State) : s.settle.loop = s.loop := rfl
@[simp] theorem settle_atHead (s : State) : s.settle.atHead = s.atHead := rfl
@[simp] theorem settle_checkAtA (s : State) : s.settle.checkAtA = s.checkAtA := rfl
@[simp] theorem settle_respLen (s : State) : s.settle.respLen = s.respLen := rfl
@[simp] theorem settle_acc (s : State) : s.settle.acc = s.acc := rfl
@[simp] theorem settle_opens (s : State) : s.settle.opens = s.opens := rfl
@[simp] theorem settle_who (s : State) : s.settle.who = s.who := rfl
@[simp] theorem settle_picks (s : State) : s.settle.picks = s.picks := rfl
@[simp] theorem settle_freeCount (s : State) : s.settle.freeCount = s.freeCount := rfl
@[simp] theorem settle_turns (s : State) : s.settle.turns = s.turns := rfl
@[simp] theorem settle_replies (s : State) : s.settle.replies = s.replies := rfl
@[simp] theorem settle_events (s : State) : s.settle.events = s.events := rfl
@[simp] theorem settle_sent (s : State) : s.settle.sent = s.sent := rfl
@[simp] theorem settle_past (s : State) : s.settle.past = settlePast s.who s.past := rfl

/-! ## reply -/

@[simp] theorem reply_params (s : State) (r : Reply) : (s.reply r).params = s.params := rfl
@[simp] theorem reply_cfg (s : State) (r : Reply) : (s.reply r).cfg = s.cfg := rfl
@[simp] theorem reply_boot (s : State) (r : Reply) : (s.reply r).boot = s.boot := rfl
@[simp] theorem reply_mem (s : State) (r : Reply) : (s.reply r).mem = s.mem := rfl
@[simp] theorem reply_past (s : State) (r : Reply) : (s.reply r).past = s.past := rfl
@[simp] theorem reply_picks (s : State) (r : Reply) : (s.reply r).picks = s.picks := rfl
@[simp] theorem reply_freeCount (s : State) (r : Reply) : (s.reply r).freeCount = s.freeCount := rfl
@[simp] theorem reply_tx (s : State) (r : Reply) : (s.reply r).tx = s.tx := rfl
@[simp] theorem reply_rx (s : State) (r : Reply) : (s.reply r).rx = s.rx := rfl
@[simp] theorem reply_b (s : State) (r : Reply) : (s.reply r).b = s.b := rfl
@[simp] theorem reply_en (s : State) (r : Reply) : (s.reply r).en = s.en := rfl
@[simp] theorem reply_ready (s : State) (r : Reply) : (s.reply r).ready = s.ready := rfl
@[simp] theorem reply_fault (s : State) (r : Reply) : (s.reply r).fault = s.fault := rfl
@[simp] theorem reply_loop (s : State) (r : Reply) : (s.reply r).loop = s.loop := rfl
@[simp] theorem reply_atHead (s : State) (r : Reply) : (s.reply r).atHead = s.atHead := rfl
@[simp] theorem reply_checkAtA (s : State) (r : Reply) : (s.reply r).checkAtA = s.checkAtA := rfl
@[simp] theorem reply_respLen (s : State) (r : Reply) : (s.reply r).respLen = s.respLen := rfl
@[simp] theorem reply_acc (s : State) (r : Reply) : (s.reply r).acc = s.acc := rfl
@[simp] theorem reply_opens (s : State) (r : Reply) : (s.reply r).opens = s.opens := rfl
@[simp] theorem reply_who (s : State) (r : Reply) : (s.reply r).who = s.who := rfl
@[simp] theorem reply_turns (s : State) (r : Reply) : (s.reply r).turns = s.turns := rfl
@[simp] theorem reply_replies (s : State) (r : Reply) : (s.reply r).replies = (s.who, r) :: s.replies := rfl
@[simp] theorem reply_events (s : State) (r : Reply) : (s.reply r).events = s.events := rfl
@[simp] theorem reply_sent (s : State) (r : Reply) : (s.reply r).sent = s.sent := rfl

/-! ## record -/

@[simp] theorem record_params (s : State) (e : LineEvent) : (s.record e).params = s.params := rfl
@[simp] theorem record_cfg (s : State) (e : LineEvent) : (s.record e).cfg = s.cfg := rfl
@[simp] theorem record_boot (s : State) (e : LineEvent) : (s.record e).boot = s.boot := rfl
@[simp] theorem record_mem (s : State) (e : LineEvent) : (s.record e).mem = s.mem := rfl
@[simp] theorem record_past (s : State) (e : LineEvent) : (s.record e).past = s.past := rfl
@[simp] theorem record_picks (s : State) (e : LineEvent) : (s.record e).picks = s.picks := rfl
@[simp] theorem record_freeCount (s : State) (e : LineEvent) : (s.record e).freeCount = s.freeCount := rfl
@[simp] theorem record_tx (s : State) (e : LineEvent) : (s.record e).tx = s.tx := rfl
@[simp] theorem record_rx (s : State) (e : LineEvent) : (s.record e).rx = s.rx := rfl
@[simp] theorem record_b (s : State) (e : LineEvent) : (s.record e).b = s.b := rfl
@[simp] theorem record_en (s : State) (e : LineEvent) : (s.record e).en = s.en := rfl
@[simp] theorem record_ready (s : State) (e : LineEvent) : (s.record e).ready = s.ready := rfl
@[simp] theorem record_fault (s : State) (e : LineEvent) : (s.record e).fault = s.fault := rfl
@[simp] theorem record_loop (s : State) (e : LineEvent) : (s.record e).loop = s.loop := rfl
@[simp] theorem record_atHead (s : State) (e : LineEvent) : (s.record e).atHead = s.atHead := rfl
@[simp] theorem record_checkAtA (s : State) (e : LineEvent) : (s.record e).checkAtA = s.checkAtA := rfl
@[simp] theorem record_respLen (s : State) (e : LineEvent) : (s.record e).respLen = s.respLen := rfl
@[simp] theorem record_acc (s : State) (e : LineEvent) : (s.record e).acc = s.acc := rfl
@[simp] theorem record_opens (s : State) (e : LineEvent) : (s.record e).opens = s.opens := rfl
@[simp] theorem record_who (s : State) (e : LineEvent) : (s.record e).who = s.who := rfl
@[simp] theorem record_turns (s : State) (e : LineEvent) : (s.record e).turns = s.turns := rfl
@[simp] theorem record_replies (s : State) (e : LineEvent) : (s.record e).replies = s.replies := rfl
@[simp] theorem record_events (s : State) (e : LineEvent) : (s.record e).events = e :: s.events := rfl
@[simp] theorem record_sent (s : State) (e : LineEvent) : (s.record e).sent = s.sent := rfl

/-! ## stopLine -/

@[simp] theorem stopLine_params (s : State) : s.stopLine.params = s.params := rfl
@[simp] theorem stopLine_cfg (s : State) : s.stopLine.cfg = s.cfg := rfl
@[simp] theorem stopLine_boot (s : State) : s.stopLine.boot = s.boot := rfl
@[simp] theorem stopLine_mem (s : State) : s.stopLine.mem = s.mem := rfl
@[simp] theorem stopLine_past (s : State) : s.stopLine.past = s.past := rfl
@[simp] theorem stopLine_picks (s : State) : s.stopLine.picks = s.picks := rfl
@[simp] theorem stopLine_freeCount (s : State) : s.stopLine.freeCount = s.freeCount := rfl
@[simp] theorem stopLine_tx (s : State) : s.stopLine.tx = s.tx := rfl
@[simp] theorem stopLine_rx (s : State) : s.stopLine.rx = s.rx := rfl
@[simp] theorem stopLine_b (s : State) : s.stopLine.b = s.b := rfl
@[simp] theorem stopLine_en (s : State) : s.stopLine.en = s.en := rfl
@[simp] theorem stopLine_ready (s : State) : s.stopLine.ready = s.ready := rfl
@[simp] theorem stopLine_fault (s : State) : s.stopLine.fault = s.fault := rfl
@[simp] theorem stopLine_loop (s : State) : s.stopLine.loop = .stopped := rfl
@[simp] theorem stopLine_atHead (s : State) : s.stopLine.atHead = false := rfl
@[simp] theorem stopLine_checkAtA (s : State) : s.stopLine.checkAtA = false := rfl
@[simp] theorem stopLine_respLen (s : State) : s.stopLine.respLen = s.respLen := rfl
@[simp] theorem stopLine_acc (s : State) : s.stopLine.acc = s.acc := rfl
@[simp] theorem stopLine_opens (s : State) : s.stopLine.opens = s.opens := rfl
@[simp] theorem stopLine_who (s : State) : s.stopLine.who = s.who := rfl
@[simp] theorem stopLine_turns (s : State) : s.stopLine.turns = s.turns := rfl
@[simp] theorem stopLine_replies (s : State) : s.stopLine.replies = s.replies := rfl
@[simp] theorem stopLine_events (s : State) : s.stopLine.events = s.events := rfl
@[simp] theorem stopLine_sent (s : State) : s.stopLine.sent = s.sent := rfl

/-! ## toHead -/

@[simp] theorem toHead_params (s : State) : s.toHead.params = s.params := rfl
@[simp] theorem toHead_cfg (s : State) : s.toHead.cfg = s.cfg := rfl
@[simp] theorem toHead_boot (s : State) : s.toHead.boot = s.boot := rfl
@[simp] theorem toHead_mem (s : State) : s.toHead.mem = s.mem := rfl
@[simp] theorem toHead_past (s : State) : s.toHead.past = s.past := rfl
@[simp] theorem toHead_picks (s : State) : s.toHead.picks = s.picks := rfl
@[simp] theorem toHead_freeCount (s : State) : s.toHead.freeCount = s.freeCount := rfl
@[simp] theorem toHead_tx (s : State) : s.toHead.tx = s.tx := rfl
@[simp] theorem toHead_rx (s : State) : s.toHead.rx = s.rx := rfl
@[simp] theorem toHead_b (s : State) : s.toHead.b = s.b := rfl
@[simp] theorem toHead_en (s : State) : s.toHead.en = s.en := rfl
@[simp] theorem toHead_ready (s : State) : s.toHead.ready = s.ready := rfl
@[simp] theorem toHead_fault (s : State) : s.toHead.fault = s.fault := rfl
@[simp] theorem toHead_loop (s : State) : s.toHead.loop = s.loop := rfl
@[simp] theorem toHead_atHead (s : State) : s.toHead.atHead = true := rfl
@[simp] theorem toHead_checkAtA (s : State) : s.toHead.checkAtA = false := rfl
@[simp] theorem toHead_respLen (s : State) : s.toHead.respLen = s.respLen := rfl
@[simp] theorem toHead_acc (s : State) : s.toHead.acc = s.acc := rfl
@[simp] theorem toHead_opens (s : State) : s.toHead.opens = s.opens := rfl
@[simp] theorem toHead_who (s : State) : s.toHead.who = s.who := rfl
@[simp] theorem toHead_turns (s : State) : s.toHead.turns = s.turns := rfl
@[simp] theorem toHead_replies (s : State) : s.toHead.replies = s.replies := rfl
@[simp] theorem toHead_events (s : State) : s.toHead.events = s.events := rfl
@[simp] theorem toHead_sent (s : State) : s.toHead.sent = s.sent := rfl

/-! ## startLineAgent -/

@[simp] theorem startLineAgent_params (s : State) : s.startLineAgent.params = s.params := rfl
@[simp] theorem startLineAgent_cfg (s : State) : s.startLineAgent.cfg = s.cfg := rfl
@[simp] theorem startLineAgent_boot (s : State) : s.startLineAgent.boot = s.boot := rfl
@[simp] theorem startLineAgent_mem (s : State) : s.startLineAgent.mem = s.mem := rfl
@[simp] theorem startLineAgent_past (s : State) : s.startLineAgent.past = s.past := rfl
@[simp] theorem startLineAgent_picks (s : State) : s.startLineAgent.picks = s.picks := rfl
@[simp] theorem startLineAgent_freeCount (s : State) : s.startLineAgent.freeCount = s.freeCount := rfl
@[simp] theorem startLineAgent_tx (s : State) : s.startLineAgent.tx = s.tx := rfl
@[simp] theorem startLineAgent_rx (s : State) : s.startLineAgent.rx = s.rx := rfl
@[simp] theorem startLineAgent_b (s : State) : s.startLineAgent.b = s.b := rfl
@[simp] theorem startLineAgent_en (s : State) : s.startLineAgent.en = true := rfl
@[simp] theorem startLineAgent_ready (s : State) : s.startLineAgent.ready = s.ready := rfl
@[simp] theorem startLineAgent_fault (s : State) : s.startLineAgent.fault = s.fault := rfl
@[simp] theorem startLineAgent_loop (s : State) : s.startLineAgent.loop = .reading := rfl
@[simp] theorem startLineAgent_atHead (s : State) : s.startLineAgent.atHead = true := rfl
@[simp] theorem startLineAgent_checkAtA (s : State) : s.startLineAgent.checkAtA = false := rfl
@[simp] theorem startLineAgent_respLen (s : State) : s.startLineAgent.respLen = s.respLen := rfl
@[simp] theorem startLineAgent_acc (s : State) : s.startLineAgent.acc = s.acc := rfl
@[simp] theorem startLineAgent_opens (s : State) : s.startLineAgent.opens = s.opens := rfl
@[simp] theorem startLineAgent_who (s : State) : s.startLineAgent.who = s.who := rfl
@[simp] theorem startLineAgent_turns (s : State) : s.startLineAgent.turns = s.turns := rfl
@[simp] theorem startLineAgent_replies (s : State) : s.startLineAgent.replies = s.replies := rfl
@[simp] theorem startLineAgent_events (s : State) : s.startLineAgent.events = s.events := rfl
@[simp] theorem startLineAgent_sent (s : State) : s.startLineAgent.sent = s.sent := rfl

/-! ## decodeElem -/

@[simp] theorem decodeElem_params (s : State) (src : DecBuf) (e : Element) : (s.decodeElem src e).params = s.params := rfl
@[simp] theorem decodeElem_cfg (s : State) (src : DecBuf) (e : Element) : (s.decodeElem src e).cfg = s.cfg := rfl
@[simp] theorem decodeElem_boot (s : State) (src : DecBuf) (e : Element) : (s.decodeElem src e).boot = s.boot := rfl
@[simp] theorem decodeElem_mem (s : State) (src : DecBuf) (e : Element) :
    (s.decodeElem src e).mem = if s.depth e.id = 0 then s.mem.set e.id (elementValue (s.decBuf src) e) else s.mem := rfl
@[simp] theorem decodeElem_picks (s : State) (src : DecBuf) (e : Element) : (s.decodeElem src e).picks = s.picks := rfl
@[simp] theorem decodeElem_freeCount (s : State) (src : DecBuf) (e : Element) : (s.decodeElem src e).freeCount = s.freeCount := rfl
@[simp] theorem decodeElem_tx (s : State) (src : DecBuf) (e : Element) : (s.decodeElem src e).tx = s.tx := rfl
@[simp] theorem decodeElem_rx (s : State) (src : DecBuf) (e : Element) : (s.decodeElem src e).rx = s.rx := rfl
@[simp] theorem decodeElem_b (s : State) (src : DecBuf) (e : Element) : (s.decodeElem src e).b = s.b := rfl
@[simp] theorem decodeElem_en (s : State) (src : DecBuf) (e : Element) : (s.decodeElem src e).en = s.en := rfl
@[simp] theorem decodeElem_ready (s : State) (src : DecBuf) (e : Element) : (s.decodeElem src e).ready = s.ready := rfl
@[simp] theorem decodeElem_fault (s : State) (src : DecBuf) (e : Element) : (s.decodeElem src e).fault = s.fault := rfl
@[simp] theorem decodeElem_loop (s : State) (src : DecBuf) (e : Element) : (s.decodeElem src e).loop = s.loop := rfl
@[simp] theorem decodeElem_atHead (s : State) (src : DecBuf) (e : Element) : (s.decodeElem src e).atHead = s.atHead := rfl
@[simp] theorem decodeElem_checkAtA (s : State) (src : DecBuf) (e : Element) : (s.decodeElem src e).checkAtA = s.checkAtA := rfl
@[simp] theorem decodeElem_respLen (s : State) (src : DecBuf) (e : Element) : (s.decodeElem src e).respLen = s.respLen := rfl
@[simp] theorem decodeElem_acc (s : State) (src : DecBuf) (e : Element) : (s.decodeElem src e).acc = s.acc := rfl
@[simp] theorem decodeElem_opens (s : State) (src : DecBuf) (e : Element) : (s.decodeElem src e).opens = s.opens := rfl
@[simp] theorem decodeElem_who (s : State) (src : DecBuf) (e : Element) : (s.decodeElem src e).who = s.who := rfl
@[simp] theorem decodeElem_turns (s : State) (src : DecBuf) (e : Element) : (s.decodeElem src e).turns = s.turns := rfl
@[simp] theorem decodeElem_replies (s : State) (src : DecBuf) (e : Element) : (s.decodeElem src e).replies = s.replies := rfl
@[simp] theorem decodeElem_events (s : State) (src : DecBuf) (e : Element) : (s.decodeElem src e).events = s.events := rfl
@[simp] theorem decodeElem_sent (s : State) (src : DecBuf) (e : Element) : (s.decodeElem src e).sent = s.sent := rfl

/-! ## setEncBuf -/

@[simp] theorem setEncBuf_params (s : State) (dst : EncBuf) (buf : List Byte) : (s.setEncBuf dst buf).params = s.params := by cases dst <;> rfl
@[simp] theorem setEncBuf_cfg (s : State) (dst : EncBuf) (buf : List Byte) : (s.setEncBuf dst buf).cfg = s.cfg := by cases dst <;> rfl
@[simp] theorem setEncBuf_boot (s : State) (dst : EncBuf) (buf : List Byte) : (s.setEncBuf dst buf).boot = s.boot := by cases dst <;> rfl
@[simp] theorem setEncBuf_mem (s : State) (dst : EncBuf) (buf : List Byte) : (s.setEncBuf dst buf).mem = s.mem := by cases dst <;> rfl
@[simp] theorem setEncBuf_past (s : State) (dst : EncBuf) (buf : List Byte) : (s.setEncBuf dst buf).past = s.past := by cases dst <;> rfl
@[simp] theorem setEncBuf_picks (s : State) (dst : EncBuf) (buf : List Byte) : (s.setEncBuf dst buf).picks = s.picks := by cases dst <;> rfl
@[simp] theorem setEncBuf_freeCount (s : State) (dst : EncBuf) (buf : List Byte) : (s.setEncBuf dst buf).freeCount = s.freeCount := by cases dst <;> rfl
@[simp] theorem setEncBuf_rx (s : State) (dst : EncBuf) (buf : List Byte) : (s.setEncBuf dst buf).rx = s.rx := by cases dst <;> rfl
@[simp] theorem setEncBuf_en (s : State) (dst : EncBuf) (buf : List Byte) : (s.setEncBuf dst buf).en = s.en := by cases dst <;> rfl
@[simp] theorem setEncBuf_ready (s : State) (dst : EncBuf) (buf : List Byte) : (s.setEncBuf dst buf).ready = s.ready := by cases dst <;> rfl
@[simp] theorem setEncBuf_fault (s : State) (dst : EncBuf) (buf : List Byte) : (s.setEncBuf dst buf).fault = s.fault := by cases dst <;> rfl
@[simp] theorem setEncBuf_loop (s : State) (dst : EncBuf) (buf : List Byte) : (s.setEncBuf dst buf).loop = s.loop := by cases dst <;> rfl
@[simp] theorem setEncBuf_atHead (s : State) (dst : EncBuf) (buf : List Byte) : (s.setEncBuf dst buf).atHead = s.atHead := by cases dst <;> rfl
@[simp] theorem setEncBuf_checkAtA (s : State) (dst : EncBuf) (buf : List Byte) : (s.setEncBuf dst buf).checkAtA = s.checkAtA := by cases dst <;> rfl
@[simp] theorem setEncBuf_respLen (s : State) (dst : EncBuf) (buf : List Byte) : (s.setEncBuf dst buf).respLen = s.respLen := by cases dst <;> rfl
@[simp] theorem setEncBuf_acc (s : State) (dst : EncBuf) (buf : List Byte) : (s.setEncBuf dst buf).acc = s.acc := by cases dst <;> rfl
@[simp] theorem setEncBuf_opens (s : State) (dst : EncBuf) (buf : List Byte) : (s.setEncBuf dst buf).opens = s.opens := by cases dst <;> rfl
@[simp] theorem setEncBuf_who (s : State) (dst : EncBuf) (buf : List Byte) : (s.setEncBuf dst buf).who = s.who := by cases dst <;> rfl
@[simp] theorem setEncBuf_turns (s : State) (dst : EncBuf) (buf : List Byte) : (s.setEncBuf dst buf).turns = s.turns := by cases dst <;> rfl
@[simp] theorem setEncBuf_replies (s : State) (dst : EncBuf) (buf : List Byte) : (s.setEncBuf dst buf).replies = s.replies := by cases dst <;> rfl
@[simp] theorem setEncBuf_events (s : State) (dst : EncBuf) (buf : List Byte) : (s.setEncBuf dst buf).events = s.events := by cases dst <;> rfl
@[simp] theorem setEncBuf_sent (s : State) (dst : EncBuf) (buf : List Byte) : (s.setEncBuf dst buf).sent = s.sent := by cases dst <;> rfl
@[simp] theorem setEncBuf_tx (s : State) (buf : List Byte) : s.setEncBuf .tx buf = { s with tx := buf } := rfl
@[simp] theorem setEncBuf_b (s : State) (buf : List Byte) : s.setEncBuf .b buf = { s with b := buf } := rfl
@[simp] theorem encBuf_tx (s : State) : s.encBuf .tx = s.tx := rfl
@[simp] theorem encBuf_b (s : State) : s.encBuf .b = s.b := rfl
@[simp] theorem decBuf_rx (s : State) : s.decBuf .rx = s.rx := rfl
@[simp] theorem decBuf_b (s : State) : s.decBuf .b = s.b := rfl

/-! ## hold -/

@[simp] theorem hold_params (s : State) (a : Agent) (todo : List Micro) (fin : Finish) : (s.hold a todo fin).params = s.params := rfl
@[simp] theorem hold_cfg (s : State) (a : Agent) (todo : List Micro) (fin : Finish) : (s.hold a todo fin).cfg = s.cfg := rfl
@[simp] theorem hold_boot (s : State) (a : Agent) (todo : List Micro) (fin : Finish) : (s.hold a todo fin).boot = s.boot := rfl
@[simp] theorem hold_mem (s : State) (a : Agent) (todo : List Micro) (fin : Finish) : (s.hold a todo fin).mem = s.mem := rfl
@[simp] theorem hold_past (s : State) (a : Agent) (todo : List Micro) (fin : Finish) : (s.hold a todo fin).past = s.past := rfl
@[simp] theorem hold_picks (s : State) (a : Agent) (todo : List Micro) (fin : Finish) : (s.hold a todo fin).picks = s.picks := rfl
@[simp] theorem hold_freeCount (s : State) (a : Agent) (todo : List Micro) (fin : Finish) : (s.hold a todo fin).freeCount = s.freeCount := rfl
@[simp] theorem hold_tx (s : State) (a : Agent) (todo : List Micro) (fin : Finish) : (s.hold a todo fin).tx = s.tx := rfl
@[simp] theorem hold_rx (s : State) (a : Agent) (todo : List Micro) (fin : Finish) : (s.hold a todo fin).rx = s.rx := rfl
@[simp] theorem hold_b (s : State) (a : Agent) (todo : List Micro) (fin : Finish) : (s.hold a todo fin).b = s.b := rfl
@[simp] theorem hold_en (s : State) (a : Agent) (todo : List Micro) (fin : Finish) : (s.hold a todo fin).en = s.en := rfl
@[simp] theorem hold_ready (s : State) (a : Agent) (todo : List Micro) (fin : Finish) : (s.hold a todo fin).ready = s.ready := rfl
@[simp] theorem hold_fault (s : State) (a : Agent) (todo : List Micro) (fin : Finish) : (s.hold a todo fin).fault = s.fault := rfl
@[simp] theorem hold_loop (s : State) (a : Agent) (todo : List Micro) (fin : Finish) : (s.hold a todo fin).loop = s.loop := rfl
@[simp] theorem hold_atHead (s : State) (a : Agent) (todo : List Micro) (fin : Finish) : (s.hold a todo fin).atHead = s.atHead := rfl
@[simp] theorem hold_checkAtA (s : State) (a : Agent) (todo : List Micro) (fin : Finish) : (s.hold a todo fin).checkAtA = s.checkAtA := rfl
@[simp] theorem hold_respLen (s : State) (a : Agent) (todo : List Micro) (fin : Finish) : (s.hold a todo fin).respLen = s.respLen := rfl
@[simp] theorem hold_acc (s : State) (a : Agent) (todo : List Micro) (fin : Finish) : (s.hold a todo fin).acc = s.acc := rfl
@[simp] theorem hold_who (s : State) (a : Agent) (todo : List Micro) (fin : Finish) : (s.hold a todo fin).who = s.who := rfl
@[simp] theorem hold_turns (s : State) (a : Agent) (todo : List Micro) (fin : Finish) : (s.hold a todo fin).turns = s.turns := rfl
@[simp] theorem hold_replies (s : State) (a : Agent) (todo : List Micro) (fin : Finish) : (s.hold a todo fin).replies = s.replies := rfl
@[simp] theorem hold_events (s : State) (a : Agent) (todo : List Micro) (fin : Finish) : (s.hold a todo fin).events = s.events := rfl
@[simp] theorem hold_sent (s : State) (a : Agent) (todo : List Micro) (fin : Finish) : (s.hold a todo fin).sent = s.sent := rfl
@[simp] theorem hold_opens (s : State) (a : Agent) (todo : List Micro) (fin : Finish) :
    (s.hold a todo fin).opens = s.opens ++ [⟨a, todo, fin, s.b, s.acc⟩] := rfl

/-! ## stepping -/

@[simp] theorem stepping_params (s : State) (o : OpenOp) (a : Agent) (picks : Picks) : (s.stepping o a picks).params = s.params := rfl
@[simp] theorem stepping_cfg (s : State) (o : OpenOp) (a : Agent) (picks : Picks) : (s.stepping o a picks).cfg = s.cfg := rfl
@[simp] theorem stepping_boot (s : State) (o : OpenOp) (a : Agent) (picks : Picks) : (s.stepping o a picks).boot = s.boot := rfl
@[simp] theorem stepping_mem (s : State) (o : OpenOp) (a : Agent) (picks : Picks) : (s.stepping o a picks).mem = s.mem := rfl
@[simp] theorem stepping_past (s : State) (o : OpenOp) (a : Agent) (picks : Picks) : (s.stepping o a picks).past = s.past := rfl
@[simp] theorem stepping_tx (s : State) (o : OpenOp) (a : Agent) (picks : Picks) : (s.stepping o a picks).tx = s.tx := rfl
@[simp] theorem stepping_rx (s : State) (o : OpenOp) (a : Agent) (picks : Picks) : (s.stepping o a picks).rx = s.rx := rfl
@[simp] theorem stepping_en (s : State) (o : OpenOp) (a : Agent) (picks : Picks) : (s.stepping o a picks).en = s.en := rfl
@[simp] theorem stepping_ready (s : State) (o : OpenOp) (a : Agent) (picks : Picks) : (s.stepping o a picks).ready = s.ready := rfl
@[simp] theorem stepping_fault (s : State) (o : OpenOp) (a : Agent) (picks : Picks) : (s.stepping o a picks).fault = s.fault := rfl
@[simp] theorem stepping_loop (s : State) (o : OpenOp) (a : Agent) (picks : Picks) : (s.stepping o a picks).loop = s.loop := rfl
@[simp] theorem stepping_atHead (s : State) (o : OpenOp) (a : Agent) (picks : Picks) : (s.stepping o a picks).atHead = s.atHead := rfl
@[simp] theorem stepping_checkAtA (s : State) (o : OpenOp) (a : Agent) (picks : Picks) : (s.stepping o a picks).checkAtA = s.checkAtA := rfl
@[simp] theorem stepping_respLen (s : State) (o : OpenOp) (a : Agent) (picks : Picks) : (s.stepping o a picks).respLen = s.respLen := rfl
@[simp] theorem stepping_turns (s : State) (o : OpenOp) (a : Agent) (picks : Picks) : (s.stepping o a picks).turns = s.turns := rfl
@[simp] theorem stepping_freeCount (s : State) (o : OpenOp) (a : Agent) (picks : Picks) : (s.stepping o a picks).freeCount = s.freeCount := rfl
@[simp] theorem stepping_replies (s : State) (o : OpenOp) (a : Agent) (picks : Picks) : (s.stepping o a picks).replies = s.replies := rfl
@[simp] theorem stepping_events (s : State) (o : OpenOp) (a : Agent) (picks : Picks) : (s.stepping o a picks).events = s.events := rfl
@[simp] theorem stepping_sent (s : State) (o : OpenOp) (a : Agent) (picks : Picks) : (s.stepping o a picks).sent = s.sent := rfl
@[simp] theorem stepping_b (s : State) (o : OpenOp) (a : Agent) (picks : Picks) :
    (s.stepping o a picks).b = o.buf := rfl
@[simp] theorem stepping_acc (s : State) (o : OpenOp) (a : Agent) (picks : Picks) :
    (s.stepping o a picks).acc = o.acc := rfl
@[simp] theorem stepping_who (s : State) (o : OpenOp) (a : Agent) (picks : Picks) :
    (s.stepping o a picks).who = a := rfl
@[simp] theorem stepping_picks (s : State) (o : OpenOp) (a : Agent) (picks : Picks) :
    (s.stepping o a picks).picks = picks := rfl
@[simp] theorem stepping_opens (s : State) (o : OpenOp) (a : Agent) (picks : Picks) :
    (s.stepping o a picks).opens = s.opens.filter fun x => !decide (x.agent = a) := rfl

/-! ## raiseFault -/

/-- The first fault is latched (R194). -/
theorem raiseFault_first {s : State} (f : Fault) (h : s.fault = none) : raiseFault f s = { s with fault := some f } := by
  simp [raiseFault, h]

/-- A later fault leaves the first one (R194). -/
theorem raiseFault_later {s : State} (f : Fault) {g : Fault} (h : s.fault = some g) : raiseFault f s = s := by
  simp [raiseFault, h]

@[simp] theorem raiseFault_params (s : State) (f : Fault) : (raiseFault f s).params = s.params := by unfold raiseFault; split <;> rfl
@[simp] theorem raiseFault_cfg (s : State) (f : Fault) : (raiseFault f s).cfg = s.cfg := by unfold raiseFault; split <;> rfl
@[simp] theorem raiseFault_boot (s : State) (f : Fault) : (raiseFault f s).boot = s.boot := by unfold raiseFault; split <;> rfl
@[simp] theorem raiseFault_mem (s : State) (f : Fault) : (raiseFault f s).mem = s.mem := by unfold raiseFault; split <;> rfl
@[simp] theorem raiseFault_past (s : State) (f : Fault) : (raiseFault f s).past = s.past := by unfold raiseFault; split <;> rfl
@[simp] theorem raiseFault_picks (s : State) (f : Fault) : (raiseFault f s).picks = s.picks := by unfold raiseFault; split <;> rfl
@[simp] theorem raiseFault_freeCount (s : State) (f : Fault) : (raiseFault f s).freeCount = s.freeCount := by unfold raiseFault; split <;> rfl
@[simp] theorem raiseFault_tx (s : State) (f : Fault) : (raiseFault f s).tx = s.tx := by unfold raiseFault; split <;> rfl
@[simp] theorem raiseFault_rx (s : State) (f : Fault) : (raiseFault f s).rx = s.rx := by unfold raiseFault; split <;> rfl
@[simp] theorem raiseFault_b (s : State) (f : Fault) : (raiseFault f s).b = s.b := by unfold raiseFault; split <;> rfl
@[simp] theorem raiseFault_en (s : State) (f : Fault) : (raiseFault f s).en = s.en := by unfold raiseFault; split <;> rfl
@[simp] theorem raiseFault_ready (s : State) (f : Fault) : (raiseFault f s).ready = s.ready := by unfold raiseFault; split <;> rfl
@[simp] theorem raiseFault_loop (s : State) (f : Fault) : (raiseFault f s).loop = s.loop := by unfold raiseFault; split <;> rfl
@[simp] theorem raiseFault_atHead (s : State) (f : Fault) : (raiseFault f s).atHead = s.atHead := by unfold raiseFault; split <;> rfl
@[simp] theorem raiseFault_checkAtA (s : State) (f : Fault) : (raiseFault f s).checkAtA = s.checkAtA := by unfold raiseFault; split <;> rfl
@[simp] theorem raiseFault_respLen (s : State) (f : Fault) : (raiseFault f s).respLen = s.respLen := by unfold raiseFault; split <;> rfl
@[simp] theorem raiseFault_acc (s : State) (f : Fault) : (raiseFault f s).acc = s.acc := by unfold raiseFault; split <;> rfl
@[simp] theorem raiseFault_opens (s : State) (f : Fault) : (raiseFault f s).opens = s.opens := by unfold raiseFault; split <;> rfl
@[simp] theorem raiseFault_who (s : State) (f : Fault) : (raiseFault f s).who = s.who := by unfold raiseFault; split <;> rfl
@[simp] theorem raiseFault_turns (s : State) (f : Fault) : (raiseFault f s).turns = s.turns := by unfold raiseFault; split <;> rfl
@[simp] theorem raiseFault_replies (s : State) (f : Fault) : (raiseFault f s).replies = s.replies := by unfold raiseFault; split <;> rfl
@[simp] theorem raiseFault_events (s : State) (f : Fault) : (raiseFault f s).events = s.events := by unfold raiseFault; split <;> rfl
@[simp] theorem raiseFault_sent (s : State) (f : Fault) : (raiseFault f s).sent = s.sent := by unfold raiseFault; split <;> rfl

end Sys2Proof.Laws
end

