-- ==== Sys2Proof/Laws/Past.lean ====
section
/-! SUPPORT. The order of one cell's values, said once: what a read returns and a write leaves at a depth, that neither changes the depth of any
access of the same turn, and what is left of the older values when an operation completes. -/

namespace Sys2Proof.Laws

open Sys2Proof.Machine

/-! ## Depths -/

theorem depth_le (s : State) (id : VarId) : s.depth id ≤ (s.unseen id).length := by
  unfold State.depth
  split
  · assumption
  · exact Nat.zero_le _

/-- With no choice for a cell its accesses stand at the end of its order. -/
theorem depth_of_pick {s : State} {id : VarId} (h : pickOf s.picks id = 0) : s.depth id = 0 := by
  simp [State.depth, h]

/-- With no older value left to read, the accesses stand at the end of the order. -/
theorem depth_of_unseen {s : State} {id : VarId} (h : s.unseen id = []) : s.depth id = 0 := by
  have := depth_le s id
  simpa [h] using this

theorem plain_of_picks {s : State} (h : s.picks = []) : s.plain := fun id => depth_of_pick (by simp [h, pickOf])

theorem plain_of_past {s : State} (h : s.past = []) : s.plain := fun id => depth_of_unseen (by simp [State.unseen, h])

/-- A plain read returns the cell's newest value. -/
theorem readVar_plain {s : State} {id : VarId} (h : s.depth id = 0) : s.readVar id = s.getVar id := by
  simp [State.readVar, oldValue, h]

/-- A read returns the newest value, or an older one that its agent has not passed (R64). -/
theorem readVar_cases (s : State) (id : VarId) : s.readVar id = s.getVar id ∨ ∃ e ∈ s.unseen id, s.readVar id = e.value := by
  unfold State.readVar oldValue
  cases h : (s.unseen id)[(s.unseen id).length - s.depth id]? with
  | none => exact .inl rfl
  | some e => exact .inr ⟨e, List.mem_of_getElem? h, rfl⟩

theorem mem_unseen {s : State} {id : VarId} {e : Superseded} : e ∈ s.unseen id ↔ e ∈ s.past ∧ e.id = id ∧ s.who ∉ e.seen := by
  simp [State.unseen]

/-! ## Marking what an agent has seen -/

/-- The entries of `id` that `who` has not seen. -/
def unseenOf (who : Agent) (id : VarId) (es : List Superseded) : List Superseded :=
  es.filter fun e => decide (e.id = id) && decide (who ∉ e.seen)

theorem unseen_eq (s : State) (id : VarId) : s.unseen id = unseenOf s.who id s.past := rfl

@[simp] theorem unseenOf_nil (who : Agent) (id : VarId) : unseenOf who id [] = [] := rfl

theorem unseenOf_cons (who : Agent) (id : VarId) (e : Superseded) (es : List Superseded) :
    unseenOf who id (e :: es) = if e.id = id ∧ who ∉ e.seen then e :: unseenOf who id es else unseenOf who id es := by
  by_cases h1 : e.id = id <;> by_cases h2 : who ∈ e.seen <;> simp [unseenOf, h1, h2]

@[simp] theorem unseenOf_append (who : Agent) (id : VarId) (es fs : List Superseded) :
    unseenOf who id (es ++ fs) = unseenOf who id es ++ unseenOf who id fs := by simp [unseenOf]

/-- Marking the `n` oldest leaves the others to read. -/
theorem unseenOf_markSeen (who : Agent) (id : VarId) (n : Nat) (es : List Superseded) :
    unseenOf who id (markSeen who id n es) = (unseenOf who id es).drop n := by
  induction es generalizing n with
  | nil => cases n <;> simp [markSeen]
  | cons e es ih =>
    cases n with
    | zero => simp [markSeen]
    | succ n =>
      by_cases h : e.id = id ∧ who ∉ e.seen
      · simp [markSeen, h, unseenOf_cons, ih]
      · simp only [markSeen, if_neg h, unseenOf_cons, ih]

/-- Marking one cell's entries leaves every other cell's. -/
theorem unseenOf_markSeen_other (who : Agent) {id id' : VarId} (hne : id' ≠ id) (n : Nat) (es : List Superseded) :
    unseenOf who id' (markSeen who id n es) = unseenOf who id' es := by
  induction es generalizing n with
  | nil => cases n <;> simp [markSeen]
  | cons e es ih =>
    cases n with
    | zero => simp [markSeen]
    | succ n =>
      by_cases h : e.id = id ∧ who ∉ e.seen
      · simp [markSeen, h, unseenOf_cons, ih, hne.symm]
      · simp only [markSeen, if_neg h, unseenOf_cons, ih]

/-- Placing a write among the entries of its cell. -/
theorem unseenOf_placeWrite (who : Agent) (id : VarId) (v : Half) (n : Nat) (es : List Superseded) :
    (unseenOf who id (placeWrite who id v n es)).map (·.value)
      = match (unseenOf who id es).drop n with
        | [] => []
        | _ :: rest => v :: rest.map (·.value) := by
  induction es generalizing n with
  | nil => cases n <;> simp [placeWrite]
  | cons e es ih =>
    by_cases h : e.id = id ∧ who ∉ e.seen
    · cases n with
      | zero => simp [placeWrite, h, unseenOf_cons]
      | succ n => simp [placeWrite, h, unseenOf_cons, ih]
    · simp only [placeWrite, if_neg h, unseenOf_cons, ih]

theorem unseenOf_placeWrite_other (who : Agent) {id id' : VarId} (hne : id' ≠ id) (v : Half) (n : Nat) (es : List Superseded) :
    unseenOf who id' (placeWrite who id v n es) = unseenOf who id' es := by
  induction es generalizing n with
  | nil => cases n <;> simp [placeWrite]
  | cons e es ih =>
    by_cases h : e.id = id ∧ who ∉ e.seen
    · cases n with
      | zero => simp [placeWrite, h, unseenOf_cons, hne.symm]
      | succ n => simp [placeWrite, h, unseenOf_cons, ih, hne.symm]
    · simp only [placeWrite, if_neg h, unseenOf_cons, ih]

/-! ## What an access leaves to read -/

/-- After a read, its agent may still read what it read and the newer values, and no older one (R65). -/
theorem seeVar_unseen (s : State) (id : VarId) : (s.seeVar id).unseen id = (s.unseen id).drop ((s.unseen id).length - s.depth id) := by
  rw [unseen_eq, seeVar_past, seeVar_who, unseenOf_markSeen, ← unseen_eq]

theorem seeVar_unseen_other (s : State) {id id' : VarId} (h : id' ≠ id) : (s.seeVar id).unseen id' = s.unseen id' := by
  rw [unseen_eq, seeVar_past, seeVar_who, unseenOf_markSeen_other _ h, ← unseen_eq]

/-- After a write, its agent may still read the written value and the newer ones, and no older one (R65). -/
theorem setVar_unseen_length (s : State) (id : VarId) (v : Half) : ((s.setVar id v).unseen id).length = s.depth id := by
  rw [unseen_eq, setVar_who, setVar_past]
  split
  · next h =>
    rw [unseenOf_append, unseenOf_markSeen, ← unseen_eq]
    simp [h, unseenOf]
  · next h =>
    have hl := depth_le s id
    have e := congrArg List.length (unseenOf_placeWrite s.who id v ((s.unseen id).length - s.depth id) s.past)
    rw [List.length_map, ← unseen_eq] at e
    rw [e]
    have hd : ((s.unseen id).drop ((s.unseen id).length - s.depth id)).length = s.depth id := by
      rw [List.length_drop]
      omega
    split
    · next hn =>
      rw [hn] at hd
      exact absurd hd.symm h
    · next hn =>
      rw [hn] at hd
      simpa using hd

theorem setVar_unseen_other (s : State) {id id' : VarId} (v : Half) (h : id' ≠ id) : (s.setVar id v).unseen id' = s.unseen id' := by
  rw [unseen_eq, setVar_who, setVar_past]
  split
  · rw [unseenOf_append, unseenOf_markSeen_other _ h, ← unseen_eq]
    simp [unseenOf, h.symm]
  · rw [unseenOf_placeWrite_other _ h, ← unseen_eq]

/-- A read does not change where any access of its turn stands. -/
@[simp] theorem seeVar_depth (s : State) (id id' : VarId) : (s.seeVar id).depth id' = s.depth id' := by
  by_cases h : id' = id
  · subst h
    have hl := depth_le s id'
    have e : ((s.seeVar id').unseen id').length = s.depth id' := by
      rw [seeVar_unseen, List.length_drop]
      omega
    have hp : pickOf (s.seeVar id').picks id' = pickOf s.picks id' := rfl
    unfold State.depth at e ⊢
    rw [hp, e]
    split <;> split <;> omega
  · unfold State.depth
    rw [seeVar_unseen_other s h, seeVar_picks]

/-- A write does not change where any access of its turn stands. -/
@[simp] theorem setVar_depth (s : State) (id : VarId) (v : Half) (id' : VarId) : (s.setVar id v).depth id' = s.depth id' := by
  by_cases h : id' = id
  · subst h
    have e := setVar_unseen_length s id' v
    unfold State.depth at e ⊢
    rw [setVar_picks, e]
    split <;> split <;> omega
  · unfold State.depth
    rw [setVar_unseen_other s v h, setVar_picks]

/-- Reading a cell that no older value is left of changes nothing. -/
theorem seeVar_of_unseen {s : State} {id : VarId} (h : s.unseen id = []) : s.seeVar id = s := by
  unfold State.seeVar
  rw [h]
  simp [markSeen]

/-- A read of one cell leaves what a read of another returns. -/
theorem readVar_seeVar_other (s : State) {id id' : VarId} (h : id' ≠ id) : (s.seeVar id).readVar id' = s.readVar id' := by
  unfold State.readVar
  rw [seeVar_unseen_other s h, seeVar_depth]
  rfl

theorem seeVar_plain {s : State} {id : VarId} (h : s.plain) : (s.seeVar id).plain := fun id' => by simp [h id']

theorem setVar_plain {s : State} {id : VarId} {v : Half} (h : s.plain) : (s.setVar id v).plain := fun id' => by simp [h id']

/-- Reading a cell twice in one turn gives one value (R126). -/
theorem readVar_seeVar (s : State) (id : VarId) : (s.seeVar id).readVar id = s.readVar id := by
  have hl := depth_le s id
  unfold State.readVar oldValue
  rw [seeVar_depth, seeVar_unseen, List.length_drop, List.getElem?_drop]
  have e : (s.unseen id).length - s.depth id + ((s.unseen id).length - ((s.unseen id).length - s.depth id) - s.depth id)
      = (s.unseen id).length - s.depth id := by omega
  rw [e]
  rfl

/-! ## Plain writes -/

theorem setVar_getVar_self {s : State} {id : VarId} (v : Half) (h : s.depth id = 0) (hm : s.mem.wf = true) :
    (s.setVar id v).getVar id = v := by
  rw [State.getVar, setVar_mem, if_pos h, get_set_self _ _ hm]

theorem setVar_getVar_other (s : State) {id id' : VarId} (v : Half) (h : id' ≠ id) : (s.setVar id v).getVar id' = s.getVar id' := by
  rw [State.getVar, setVar_mem]
  split
  · rw [get_set_other _ h]
    rfl
  · rfl

/-- A write keeps the table's canonical form. -/
theorem setVar_wf {s : State} {id : VarId} {v : Half} (h : s.mem.wf = true) : (s.setVar id v).mem.wf = true := by
  rw [setVar_mem]
  split
  · exact set_wf _ _ h
  · exact h

/-! ## Where the older values come from -/

/-- Marking changes no entry's cell, value or writer. -/
theorem mem_markSeen {who : Agent} {id : VarId} {n : Nat} {es : List Superseded} {e : Superseded} (h : e ∈ markSeen who id n es) :
    ∃ e' ∈ es, e.id = e'.id ∧ e.value = e'.value ∧ e.writer = e'.writer := by
  induction es generalizing n with
  | nil => cases n <;> simp [markSeen] at h
  | cons x es ih =>
    cases n with
    | zero => exact ⟨e, by simpa [markSeen] using h, rfl, rfl, rfl⟩
    | succ n =>
      simp only [markSeen] at h
      split at h
      · rcases List.mem_cons.mp h with rfl | h
        · exact ⟨x, List.mem_cons_self, rfl, rfl, rfl⟩
        · obtain ⟨e', h1, h2⟩ := ih h
          exact ⟨e', List.mem_cons_of_mem _ h1, h2⟩
      · rcases List.mem_cons.mp h with rfl | h
        · exact ⟨e, List.mem_cons_self, rfl, rfl, rfl⟩
        · obtain ⟨e', h1, h2⟩ := ih h
          exact ⟨e', List.mem_cons_of_mem _ h1, h2⟩

/-- An entry after a placed write has its cell and writer from an entry before, or is the placed write's own; its value is an entry's or the
written one. -/
theorem mem_placeWrite {who : Agent} {id : VarId} {v : Half} {n : Nat} {es : List Superseded} {e : Superseded}
    (h : e ∈ placeWrite who id v n es) :
    ∃ e' ∈ es, e.id = e'.id ∧ (e.value = e'.value ∨ (e.id = id ∧ e.value = v)) ∧ (e.writer = e'.writer ∨ e.writer = who) := by
  induction es generalizing n with
  | nil => cases n <;> simp [placeWrite] at h
  | cons x es ih =>
    simp only [placeWrite] at h
    split at h
    · next hx =>
      split at h
      · rcases List.mem_cons.mp h with rfl | h
        · exact ⟨x, List.mem_cons_self, hx.1.symm, .inl rfl, .inr rfl⟩
        · rcases List.mem_cons.mp h with rfl | h
          · exact ⟨x, List.mem_cons_self, rfl, .inr ⟨hx.1, rfl⟩, .inl rfl⟩
          · exact ⟨e, List.mem_cons_of_mem _ h, rfl, .inl rfl, .inl rfl⟩
      · rcases List.mem_cons.mp h with rfl | h
        · exact ⟨x, List.mem_cons_self, rfl, .inl rfl, .inl rfl⟩
        · obtain ⟨e', h1, h2⟩ := ih h
          exact ⟨e', List.mem_cons_of_mem _ h1, h2⟩
    · rcases List.mem_cons.mp h with rfl | h
      · exact ⟨e, List.mem_cons_self, rfl, .inl rfl, .inl rfl⟩
      · obtain ⟨e', h1, h2⟩ := ih h
        exact ⟨e', List.mem_cons_of_mem _ h1, h2⟩

theorem mem_seeVar_past {s : State} {id : VarId} {e : Superseded} (h : e ∈ (s.seeVar id).past) :
    ∃ e' ∈ s.past, e.id = e'.id ∧ e.value = e'.value ∧ e.writer = e'.writer := mem_markSeen h

/-- An older value after a write is an older one from before, the value the write superseded, or the written one. -/
theorem mem_setVar_past {s : State} {id : VarId} {v : Half} {e : Superseded} (h : e ∈ (s.setVar id v).past) :
    (∃ e' ∈ s.past, e.id = e'.id ∧ (e.value = e'.value ∨ (e.id = id ∧ e.value = v)) ∧ (e.writer = e'.writer ∨ e.writer = s.who))
      ∨ (e.id = id ∧ e.value = s.getVar id ∧ e.writer = s.who) := by
  rw [setVar_past] at h
  split at h
  · rcases List.mem_append.mp h with h | h
    · obtain ⟨e', h1, h2, h3, h4⟩ := mem_markSeen h
      exact .inl ⟨e', h1, h2, .inl h3, .inl h4⟩
    · rw [List.mem_singleton] at h
      subst h
      exact .inr ⟨rfl, rfl, rfl⟩
  · exact .inl (mem_placeWrite h)

/-! ## Completion -/

/-- What is left after a completion was there before, and is no write of the operation that completed (R65). -/
theorem mem_settlePast {who : Agent} {es : List Superseded} {e : Superseded} (h : e ∈ settlePast who es) : e ∈ es ∧ e.writer ≠ who := by
  induction es with
  | nil => cases h
  | cons x es ih =>
    simp only [settlePast] at h
    split at h
    · exact ⟨List.mem_cons_of_mem _ (ih h).1, (ih h).2⟩
    · next hx =>
      rcases List.mem_cons.mp h with rfl | h
      · exact ⟨List.mem_cons_self, fun hw => hx (.inl hw)⟩
      · exact ⟨List.mem_cons_of_mem _ (ih h).1, (ih h).2⟩

theorem settlePast_sublist (who : Agent) (es : List Superseded) : (settlePast who es).Sublist es := by
  induction es with
  | nil => exact .slnil
  | cons e es ih =>
    rw [settlePast]
    split
    · exact ih.cons e
    · exact ih.cons_cons e

/-- With fewer older values left, the accesses of a turn that stood at the ends of their cells' orders still do. -/
theorem plain_mono {s t : State} (hw : t.who = s.who) (hp : t.picks = s.picks) (hs : t.past.Sublist s.past) (h : s.plain) :
    t.plain := by
  intro id
  have hl : (t.unseen id).length ≤ (s.unseen id).length := by
    rw [unseen_eq, unseen_eq, hw]
    exact (hs.filter _).length_le
  have := h id
  unfold State.depth at this ⊢
  rw [hp]
  split at this <;> split <;> omega

/-- Where every older value was left by the operation that completes, none is left. -/
theorem settlePast_own {who : Agent} {es : List Superseded} (h : ∀ e ∈ es, e.writer = who) : settlePast who es = [] := by
  rw [List.eq_nil_iff_forall_not_mem]
  intro e he
  exact (mem_settlePast he).2 (h e (mem_settlePast he).1)

end Sys2Proof.Laws
end

