-- ==== Sys2Proof/Laws/Ops.lean ====
section
/-! SUPPORT. What the shared operations do, said once: runs of single-variable steps, the packer's reads and writes, the beginnings and
completions of operations. -/

namespace Sys2Proof.Laws

open Sys2Proof.Machine

/-! ## Runs of steps -/

@[simp] theorem runMicros_nil (s : State) : runMicros [] s = s := rfl
@[simp] theorem runMicros_cons (m : Micro) (ms : List Micro) (s : State) : runMicros (m :: ms) s = runMicros ms (runMicro m s) := rfl

theorem runMicros_append (ms ns : List Micro) (s : State) : runMicros (ms ++ ns) s = runMicros ns (runMicros ms s) := by
  induction ms generalizing s with
  | nil => rfl
  | cons m ms ih => simp [ih]

/-- A step does not change where any access of its turn stands. -/
@[simp] theorem runMicro_depth (m : Micro) (s : State) (id : VarId) : (runMicro m s).depth id = s.depth id := by
  cases m with
  | dec src e => exact setVar_depth s e.id _ id
  | fill dst addr type len => cases dst <;> rfl
  | enc dst e => cases dst <;> exact seeVar_depth s e.id id
  | put dst e v => cases dst <;> rfl
  | store k v => exact setVar_depth s k v id
  | load k slot => exact seeVar_depth s k id

theorem runMicro_plain {s : State} (m : Micro) (h : s.plain) : (runMicro m s).plain := fun id => by simp [h id]

theorem runMicros_plain {s : State} (ms : List Micro) (h : s.plain) : (runMicros ms s).plain := by
  induction ms generalizing s with
  | nil => exact h
  | cons m ms ih => exact ih (runMicro_plain m h)

/-- A plain write changes the table as `Memory.set` says, and what older values are left. -/
theorem setVar_plain_eq {s : State} {id : VarId} (v : Half) (h : s.depth id = 0) :
    s.setVar id v = { s with mem := s.mem.set id v, past := (s.setVar id v).past } := by
  simp only [State.setVar, h, if_true]

/-- The decodes of a definition, with plain accesses, change the table alone, as `decodeElements` says, and what older values are left. -/
theorem runMicros_decode (src : DecBuf) (es : List Element) {s : State} (h : s.plain) :
    ∃ past, runMicros (es.map (.dec src)) s = { s with mem := decodeElements (s.decBuf src) es s.mem, past := past } := by
  induction es generalizing s with
  | nil => exact ⟨s.past, rfl⟩
  | cons e es ih =>
    have hs : runMicro (.dec src e) s = s.setVar e.id (elementValue (s.decBuf src) e) := rfl
    obtain ⟨past, hp⟩ := ih (s := runMicro (.dec src e) s) (runMicro_plain _ h)
    refine ⟨past, ?_⟩
    rw [List.map_cons, runMicros_cons, hp, hs, setVar_plain_eq _ (h e.id)]
    cases src <;> rfl

/-- The encodes of a definition, with plain accesses, change their buffer alone, as `encodeElements` says, and what its agent may still read. -/
theorem runMicros_encode (dst : EncBuf) (es : List Element) {s : State} (h : s.plain) :
    ∃ past, runMicros (es.map (.enc dst)) s
      = { s.setEncBuf dst (encodeElements s.mem es (s.encBuf dst)) with past := past } := by
  induction es generalizing s with
  | nil => exact ⟨s.past, by cases dst <;> rfl⟩
  | cons e es ih =>
    have hs : runMicro (.enc dst e) s = (s.seeVar e.id).setEncBuf dst (elementPut (s.encBuf dst) e (s.getVar e.id)) := by
      rw [← readVar_plain (h e.id)]
      rfl
    obtain ⟨past, hp⟩ := ih (s := runMicro (.enc dst e) s) (runMicro_plain _ h)
    refine ⟨past, ?_⟩
    rw [List.map_cons, runMicros_cons, hp, hs]
    cases dst <;> rfl

/-- FRAME_ENCODE's steps change their buffer alone, as `encodeFrame` says (R131), and what its agent may still read. -/
theorem runMicros_encodeMicros (dst : EncBuf) (d : FrameDef) {s : State} (h : s.plain) :
    ∃ past, runMicros (encodeMicros dst d) s = { s.setEncBuf dst (encodeFrame s.mem d (s.encBuf dst)) with past := past } := by
  obtain ⟨past, hp⟩ := runMicros_encode dst d.elems (runMicro_plain (.fill dst d.addr d.type d.len) h)
  refine ⟨past, ?_⟩
  rw [encodeMicros, runMicros_cons, hp]
  cases dst <;> rfl

/-- A matched dispatch's steps: the table takes the command's values, and TX takes the response from that table (R161, R166). -/
theorem runMicros_dispatch (c r : FrameDef) {s : State} (h : s.plain) :
    ∃ past, runMicros (dispatchMicros c r) s =
      { s with mem := decodeElements s.rx c.elems s.mem, past := past,
               tx := encodeFrame (decodeElements s.rx c.elems s.mem) r s.tx } := by
  obtain ⟨p1, h1⟩ := runMicros_decode .rx c.elems h
  have hp := runMicros_plain (c.elems.map (.dec .rx)) h
  rw [h1] at hp
  obtain ⟨p2, h2⟩ := runMicros_encodeMicros .tx r hp
  refine ⟨p2, ?_⟩
  rw [dispatchMicros, runMicros_append, decodeMicros, h1, h2]
  rfl

/-- Every older value that steps leave was left before, by the same writer, or is a write of the agent whose turn it is. -/
theorem mem_runMicro_past {m : Micro} {s : State} {e : Superseded} (h : e ∈ (runMicro m s).past) :
    (∃ e' ∈ s.past, e.writer = e'.writer) ∨ e.writer = s.who := by
  have write : ∀ (id : VarId) (v : Half), e ∈ (s.setVar id v).past → (∃ e' ∈ s.past, e.writer = e'.writer) ∨ e.writer = s.who := by
    intro id v hw
    rcases mem_setVar_past hw with ⟨e', h1, -, -, h4⟩ | ⟨-, -, h3⟩
    · rcases h4 with h4 | h4
      · exact .inl ⟨e', h1, h4⟩
      · exact .inr h4
    · exact .inr h3
  have read : ∀ id : VarId, e ∈ (s.seeVar id).past → (∃ e' ∈ s.past, e.writer = e'.writer) ∨ e.writer = s.who := by
    intro id hw
    obtain ⟨e', h1, -, -, h4⟩ := mem_seeVar_past hw
    exact .inl ⟨e', h1, h4⟩
  cases m with
  | dec src x => exact write _ _ h
  | fill dst addr type len => cases dst <;> exact .inl ⟨e, h, rfl⟩
  | enc dst x => cases dst <;> exact read _ h
  | put dst x v => cases dst <;> exact .inl ⟨e, h, rfl⟩
  | store id v => exact write _ _ h
  | load id slot => exact read _ h

@[simp] theorem runMicro_who (m : Micro) (s : State) : (runMicro m s).who = s.who := by
  cases m <;> simp [runMicro, State.encodeElem]

@[simp] theorem runMicros_who (ms : List Micro) (s : State) : (runMicros ms s).who = s.who := by
  induction ms generalizing s with
  | nil => rfl
  | cons m ms ih => simp [ih]

theorem mem_runMicros_past {ms : List Micro} {s : State} {e : Superseded} (h : e ∈ (runMicros ms s).past) :
    (∃ e' ∈ s.past, e.writer = e'.writer) ∨ e.writer = s.who := by
  induction ms generalizing s with
  | nil => exact .inl ⟨e, h, rfl⟩
  | cons m ms ih =>
    rcases ih h with ⟨e', h1, h2⟩ | h1
    · rw [h2]
      exact mem_runMicro_past h1
    · exact .inr (by simpa using h1)

/-- A completion settles what its operation wrote (R65). -/
theorem finishOp_past (fin : Finish) (s : State) : (finishOp fin s).past = settlePast s.who s.past := by cases fin <;> rfl

@[simp] theorem finishOp_who (fin : Finish) (s : State) : (finishOp fin s).who = s.who := by cases fin <;> rfl
@[simp] theorem finishOp_picks (fin : Finish) (s : State) : (finishOp fin s).picks = s.picks := by cases fin <;> rfl

/-- A completion leaves the accesses of its turn at the ends of their cells' orders. -/
theorem finishOp_plain {fin : Finish} {s : State} (h : s.plain) : (finishOp fin s).plain :=
  plain_mono (finishOp_who fin s) (finishOp_picks fin s) (by rw [finishOp_past]; exact settlePast_sublist s.who s.past) h

/-- An operation run from beginning to end while no other is in progress leaves no older value to read: the "quiescent snapshot" (R65). -/
theorem finishOp_runMicros_past (fin : Finish) (ms : List Micro) {s : State} (h : s.past = []) :
    (finishOp fin (runMicros ms s)).past = [] := by
  rw [finishOp_past]
  refine settlePast_own fun e he => ?_
  rcases mem_runMicros_past he with ⟨e', h1, -⟩ | h1
  · rw [h] at h1
    cases h1
  · rw [runMicros_who]
    exact h1

/-! ## The packer's steps -/

/-- Plain writes of cells change the table alone, and what older values are left. -/
theorem runMicros_stores (ws : List (VarId × Half)) {s : State} (h : s.plain) :
    ∃ past, runMicros (ws.map fun w => .store w.1 w.2) s
      = { s with mem := ws.foldl (fun m w => m.set w.1 w.2) s.mem, past := past } := by
  induction ws generalizing s with
  | nil => exact ⟨s.past, rfl⟩
  | cons w ws ih =>
    have hs : runMicro (.store w.1 w.2) s = s.setVar w.1 w.2 := rfl
    obtain ⟨past, hp⟩ := ih (s := runMicro (.store w.1 w.2) s) (runMicro_plain _ h)
    refine ⟨past, ?_⟩
    rw [List.map_cons, runMicros_cons, hp, hs, setVar_plain_eq _ (h w.1)]
    rfl

theorem foldl_set_wf (ws : List (VarId × Half)) {m : Memory} (h : m.wf = true) :
    (ws.foldl (fun m w => m.set w.1 w.2) m).wf = true := by
  induction ws generalizing m with
  | nil => exact h
  | cons w ws ih => exact ih (set_wf _ _ h)

/-- A cell that none of the writes names is as before. -/
theorem get_foldl_set_other (ws : List (VarId × Half)) (m : Memory) {id : VarId} (h : ∀ w ∈ ws, w.1 ≠ id) :
    (ws.foldl (fun m w => m.set w.1 w.2) m).get id = m.get id := by
  induction ws generalizing m with
  | nil => rfl
  | cons w ws ih =>
    rw [List.foldl_cons, ih _ fun x hx => h x (List.mem_cons_of_mem _ hx)]
    exact get_set_other _ (h w List.mem_cons_self).symm

/-- A cell that one of the writes names, and no other does, holds what that one wrote. -/
theorem get_foldl_set_mem {ws : List (VarId × Half)} (hn : (ws.map (·.1)).Nodup) {m : Memory} (hm : m.wf = true) {w : VarId × Half}
    (hw : w ∈ ws) : (ws.foldl (fun m w => m.set w.1 w.2) m).get w.1 = w.2 := by
  induction ws generalizing m with
  | nil => cases hw
  | cons x ws ih =>
    rw [List.map_cons, List.nodup_cons] at hn
    rw [List.foldl_cons]
    rcases List.mem_cons.mp hw with rfl | hw
    · rw [get_foldl_set_other _ _ (fun y hy he => hn.1 (List.mem_map.mpr ⟨y, hy, he⟩)), get_set_self _ _ hm]
    · exact ih hn.2 (set_wf _ _ hm) hw

/-- The writes of a compatibility bitset, as (cell, value) pairs. -/
def compatWrites (bits : Bitset) : List (VarId × Half) :=
  compatPairs.map fun q => (compatId q.1 q.2, halfOfBit (bits.getLsbD (compatOff q.1 q.2)))

theorem compatStores_eq (bits : Bitset) : compatStores bits = (compatWrites bits).map fun w => .store w.1 w.2 := by
  simp [compatStores, compatWrites]

theorem compatWrites_nodup (bits : Bitset) : ((compatWrites bits).map (·.1)).Nodup := by
  rw [compatWrites, List.map_map]
  refine List.Nodup.map_on ?_ compatPairs_nodup
  intro q hq q' hq' he
  by_contra hne
  exact compatId_ne hq hq' hne he

theorem compatTable_eq (bits : Bitset) (m : Memory) :
    compatTable bits m = (compatWrites bits).foldl (fun m w => m.set w.1 w.2) m := by
  unfold compatTable compatWrites
  rw [List.foldl_map]

/-- COMPAT_SET_BITSET's steps, with plain accesses, change the table alone (R151), and what older values are left. -/
theorem runMicros_compatStores (bits : Bitset) {s : State} (h : s.plain) :
    ∃ past, runMicros (compatStores bits) s = { s with mem := compatTable bits s.mem, past := past } := by
  rw [compatStores_eq, compatTable_eq]
  exact runMicros_stores (compatWrites bits) h

theorem compatTable_wf (bits : Bitset) {m : Memory} (h : m.wf = true) : (compatTable bits m).wf = true := by
  rw [compatTable_eq]
  exact foldl_set_wf (compatWrites bits) h

/-- After COMPAT_SET_BITSET every pair's cell holds its bit (R151). -/
theorem get_compatTable_pair (bits : Bitset) {m : Memory} (h : m.wf = true) {l r : Nat} (hp : (l, r) ∈ compatPairs) :
    (compatTable bits m).get (compatId l r) = halfOfBit (bits.getLsbD (compatOff l r)) := by
  have hw : (compatId l r, halfOfBit (bits.getLsbD (compatOff l r))) ∈ compatWrites bits := by
    rw [compatWrites, List.mem_map]
    exact ⟨(l, r), hp, rfl⟩
  have hn := compatWrites_nodup bits
  rw [compatTable_eq]
  generalize compatWrites bits = ws at hw hn
  exact get_foldl_set_mem hn h hw

/-- COMPAT_SET_BITSET leaves every other cell alone (R151). -/
theorem get_compatTable_other (bits : Bitset) (m : Memory) {id : VarId} (h : ∀ l r, (l, r) ∈ compatPairs → compatId l r ≠ id) :
    (compatTable bits m).get id = m.get id := by
  rw [compatTable_eq]
  refine get_foldl_set_other _ _ fun w hw => ?_
  rw [compatWrites, List.mem_map] at hw
  obtain ⟨q, hq, rfl⟩ := hw
  exact h q.1 q.2 hq

/-- The bits of a bitset after one of them was set. -/
theorem getLsbD_setSlot (acc : Bitset) (slot : Nat) (v : Bool) (k : Nat) (hs : slot < 120) :
    (setSlot acc slot v).getLsbD k = if k = slot then v else acc.getLsbD k := by
  simp only [setSlot, BitVec.getLsbD_or, BitVec.getLsbD_and, BitVec.getLsbD_not, BitVec.getLsbD_shiftLeft, BitVec.getLsbD_one,
    BitVec.getLsbD_setWidth]
  by_cases hk : k = slot
  · subst hk
    cases v <;> simp [hs]
  · by_cases hlt : k < slot
    · have : ¬ (slot ≤ k) := by omega
      by_cases hk120 : k < 120
      · simp [hk, hlt, hk120]
      · omega
    · have h1 : k - slot ≠ 0 := by omega
      by_cases hk120 : k < 120
      · have hof : (BitVec.ofBool v).getLsbD (k - slot) = false := by
          simp [BitVec.getLsbD_ofBool, h1]
        simp [hk, hlt, hk120, h1, hof]
      · have := BitVec.getLsbD_of_ge acc k (by omega)
        simp [hk, hk120, this]

/-- Plain reads into a result change the result alone, and what their agent may still read. -/
theorem runMicros_loads (ls : List (VarId × Nat)) {s : State} (h : s.plain) :
    ∃ past, runMicros (ls.map fun l => .load l.1 l.2) s =
      { s with acc := ls.foldl (fun acc l => setSlot acc l.2 (s.getBit l.1)) s.acc, past := past } := by
  induction ls generalizing s with
  | nil => exact ⟨s.past, rfl⟩
  | cons l ls ih =>
    have hs : runMicro (.load l.1 l.2) s = { s.seeVar l.1 with acc := setSlot s.acc l.2 (s.getBit l.1) } := by
      rw [State.getBit, ← readVar_plain (h l.1)]
      rfl
    obtain ⟨past, hp⟩ := ih (s := runMicro (.load l.1 l.2) s) (runMicro_plain _ h)
    refine ⟨past, ?_⟩
    rw [List.map_cons, runMicros_cons, hp, hs]
    rfl

/-- After the reads, the bit of a read's slot is the cell it read, where every slot has one cell. -/
theorem getLsbD_foldl_setSlot (f : VarId → Bool) {ls : List (VarId × Nat)} (hn : (ls.map (·.2)).Nodup) (h120 : ∀ l ∈ ls, l.2 < 120)
    (acc : Bitset) {l : VarId × Nat} (hl : l ∈ ls) :
    (ls.foldl (fun acc l => setSlot acc l.2 (f l.1)) acc).getLsbD l.2 = f l.1 := by
  have other : ∀ (ls : List (VarId × Nat)) (acc : Bitset) (k : Nat), (∀ x ∈ ls, x.2 < 120) → (∀ x ∈ ls, x.2 ≠ k) →
      (ls.foldl (fun acc l => setSlot acc l.2 (f l.1)) acc).getLsbD k = acc.getLsbD k := by
    intro ls
    induction ls with
    | nil => intros; rfl
    | cons x xs ih =>
      intro acc k h1 h2
      rw [List.foldl_cons, ih _ _ (fun y hy => h1 y (List.mem_cons_of_mem _ hy)) (fun y hy => h2 y (List.mem_cons_of_mem _ hy)),
        getLsbD_setSlot _ _ _ _ (h1 x List.mem_cons_self), if_neg (h2 x List.mem_cons_self).symm]
  induction ls generalizing acc with
  | nil => cases hl
  | cons x xs ih =>
    rw [List.map_cons, List.nodup_cons] at hn
    rw [List.foldl_cons]
    rcases List.mem_cons.mp hl with rfl | hl
    · rw [other _ _ _ (fun y hy => h120 y (List.mem_cons_of_mem _ hy)) (fun y hy he => hn.1 (List.mem_map.mpr ⟨y, hy, he⟩)),
        getLsbD_setSlot _ _ _ _ (h120 l List.mem_cons_self), if_pos rfl]
    · exact ih hn.2 (fun y hy => h120 y (List.mem_cons_of_mem _ hy)) _ hl

/-- The reads of COMPAT_GET_BITSET, as (cell, slot) pairs. -/
def compatReads : List (VarId × Nat) := compatPairs.map fun q => (compatId q.1 q.2, compatOff q.1 q.2)

/-- COMPAT_GET_BITSET's steps, with plain accesses, change the result alone, whose bit of every pair is the pair's cell (R152), and what their
agent may still read. -/
theorem runMicros_compatLoads {s : State} (h : s.plain) :
    ∃ (b : Bitset) (past : List Superseded), runMicros compatLoads s = { s with acc := b, past := past } ∧
      ∀ l r, (l, r) ∈ compatPairs → b.getLsbD (compatOff l r) = s.getBit (compatId l r) := by
  have e : compatLoads = compatReads.map fun l => .load l.1 l.2 := by simp [compatLoads, compatReads]
  obtain ⟨past, hp⟩ := runMicros_loads compatReads h
  refine ⟨_, past, by rw [e, hp], fun l r hp => ?_⟩
  have hm : (compatId l r, compatOff l r) ∈ compatReads := by
    rw [compatReads, List.mem_map]
    exact ⟨(l, r), hp, rfl⟩
  refine getLsbD_foldl_setSlot s.getBit ?_ ?_ _ hm
  · have : compatReads.map (·.2) = compatPairs.map fun q => compatOff q.1 q.2 := by simp [compatReads]
    rw [this, compatPairs_offsets]
    exact List.nodup_range
  · intro x hx
    rw [compatReads, List.mem_map] at hx
    obtain ⟨q, hq, rfl⟩ := hx
    exact compatOff_lt hq

/-! ## Whole operations -/

@[simp] theorem runStarted_ended (o : Result) : runStarted (.ended o) = o := rfl
@[simp] theorem runStarted_going (s : State) (todo : List Micro) (fin : Finish) :
    runStarted (.going s todo fin) = .next (finishOp fin (runMicros todo s)) := rfl
@[simp] theorem holdStarted_ended (a : Agent) (o : Result) : holdStarted a (.ended o) = o := rfl
@[simp] theorem holdStarted_going (a : Agent) (s : State) (todo : List Micro) (fin : Finish) :
    holdStarted a (.going s todo fin) = .next (s.hold a todo fin) := rfl
@[simp] theorem holdRest_next (a : Agent) (todo : List Micro) (fin : Finish) (s : State) :
    holdRest a todo fin (.next s) = .next (s.hold a todo fin) := rfl
@[simp] theorem holdRest_refused (a : Agent) (todo : List Micro) (fin : Finish) (r : Refusal) :
    holdRest a todo fin (.refused r) = .refused r := rfl

end Sys2Proof.Laws
end

