-- ==== Sys2Proof/Laws/Starts.lean ====
section
/-! SUPPORT. How each operation of several variables begins, case by case: one lemma for each way it can. -/

namespace Sys2Proof.Laws

open Sys2Proof.Machine

/-! ## FRAME_DECODE and FRAME_ENCODE (R130, R131, R132) -/

theorem startFrameDecode_going {s : State} {t : Byte} {bytes : List Byte} {d : FrameDef} (hd : frameOf s.params t = some d)
    (hdir : isReceived d.dir = true) (h3 : 3 ≤ bytes.length) (hl : d.len ≤ bytes.length) :
    startFrameDecode t bytes s = .going { s with b := bytes } (decodeMicros .b d) .replyOk := by
  have h3' : ¬ bytes.length < Config.hdrLen := Nat.not_lt.mpr h3
  have hl' : ¬ bytes.length < d.len := Nat.not_lt.mpr hl
  simp [startFrameDecode, hd, hdir, h3', hl']

theorem startFrameDecode_runt {s : State} {t : Byte} {bytes : List Byte} {d : FrameDef} (hd : frameOf s.params t = some d)
    (hdir : isReceived d.dir = true) (h3 : bytes.length < 3) :
    startFrameDecode t bytes s = .ended (.next (raiseFault (.runtFrame bytes.length) s)) := by
  have h3' : bytes.length < Config.hdrLen := h3
  simp [startFrameDecode, hd, hdir, h3']

theorem startFrameDecode_short {s : State} {t : Byte} {bytes : List Byte} {d : FrameDef} (hd : frameOf s.params t = some d)
    (hdir : isReceived d.dir = true) (h3 : 3 ≤ bytes.length) (hl : bytes.length < d.len) :
    startFrameDecode t bytes s = .ended (.next (raiseFault (.shortFrame t bytes.length) s)) := by
  have h3' : ¬ bytes.length < Config.hdrLen := Nat.not_lt.mpr h3
  simp [startFrameDecode, hd, hdir, h3', hl, (frameOf_mem hd).2]

theorem startFrameDecode_direction {s : State} {t : Byte} (bytes : List Byte) {d : FrameDef} (hd : frameOf s.params t = some d)
    (hdir : isReceived d.dir = false) : startFrameDecode t bytes s = .ended (.refused .badDirection) := by
  simp [startFrameDecode, hd, hdir]

theorem startFrameEncode_going {s : State} {t : Byte} {d : FrameDef} (hd : frameOf s.params t = some d)
    (hdir : isGenerated d.dir = true) (hl : s.b.length = d.len) :
    startFrameEncode t s = .going s (encodeMicros .b d) .replyFrame := by
  simp [startFrameEncode, hd, hdir, hl]

theorem startFrameEncode_direction {s : State} {t : Byte} {d : FrameDef} (hd : frameOf s.params t = some d)
    (hdir : isGenerated d.dir = false) : startFrameEncode t s = .ended (.refused .badDirection) := by
  simp [startFrameEncode, hd, hdir]

/-! ## SET, LS_INDICATION and DET_CALL_OR (R111, R180, R181) -/

theorem startSet_going {s : State} {id : VarId} {v : Half} (hc : inCatalog s.params id = true) (hv : valueFits id.ty v = true) :
    startSet id v s = .going s [.store id v] .replyOk := by
  simp [startSet, hc, hv]

theorem startLsIndication_going {s : State} {c : Byte} (h1 : 1 ≤ c.toNat) (h2 : c.toNat ≤ 16)
    (hg : inCatalog s.params (lsGreenId s.params c.toNat) = true) (hy : inCatalog s.params (lsYellowId s.params c.toNat) = true)
    (hr : inCatalog s.params (lsRedId s.params c.toNat) = true) :
    startLsIndication c s = .going { s with acc := 0 }
      [.load (lsGreenId s.params c.toNat) 0, .load (lsYellowId s.params c.toNat) 1, .load (lsRedId s.params c.toNat) 2]
      .replyIndication := by
  have h : 1 ≤ c.toNat ∧ c.toNat ≤ Config.nch := ⟨h1, h2⟩
  simp only [startLsIndication, if_pos h, hg, hy, hr, Bool.and_self, if_true]

theorem startDetCallOr_going {s : State} {d : Byte} {results : List Bool} (h1 : 1 ≤ d.toNat) (h2 : d.toNat ≤ 64)
    (hc : inCatalog s.params (detCallId s.params d.toNat) = true) (hm : results.length = detCount s.cfg d.toNat) :
    startDetCallOr d results s = .going s [.store (detCallId s.params d.toNat) (halfOfBit (results.any id))] .replyOk := by
  have h : 1 ≤ d.toNat ∧ d.toNat ≤ Config.ndet := ⟨h1, h2⟩
  rw [startDetCallOr, if_pos h, if_neg (by simp [hc]), if_pos hm]

theorem startDetCallOr_free {s : State} {d : Byte} {results : List Bool} (h1 : 1 ≤ d.toNat) (h2 : d.toNat ≤ 64)
    (hc : inCatalog s.params (detCallId s.params d.toNat) = true) (hm : results.length ≠ detCount s.cfg d.toNat) :
    startDetCallOr d results s = .going { s with freeCount := s.freeCount + 1 }
      [.store (detCallId s.params d.toNat) (halfOfBit (Config.freeCall s.freeCount))] .replyOk := by
  have h : 1 ≤ d.toNat ∧ d.toNat ≤ Config.ndet := ⟨h1, h2⟩
  rw [startDetCallOr, if_pos h, if_neg (by simp [hc]), if_neg hm]

/-! ## DISPATCH (R161, R162, R163, R170, R196) -/

theorem startDispatch_concurrent {s : State} (bytes : List Byte) (h : s.en = true ∨ s.loop ≠ .stopped ∨ s.dispatchOpen = true) :
    startDispatch bytes s = .ended (.next (raiseFault .concurrentDispatch s)) := by
  have : (s.en || decide (s.loop ≠ .stopped) || s.dispatchOpen) = true := by
    rcases h with h | h | h <;> simp [h]
  rw [startDispatch, if_pos this]

theorem startDispatch_free {s : State} (bytes : List Byte) (he : s.en = false) (hl : s.loop = .stopped)
    (ho : s.dispatchOpen = false) :
    startDispatch bytes s =
      if bytes.length < 3 then .ended (.next (raiseFault (.runtFrame bytes.length) s))
      else match pairOf s.params (byteAt bytes 2) with
        | none => .ended (.next (s.reply (.dispatched false 0)))
        | some (c, r) =>
          if bytes.length < c.len then .ended (.next (raiseFault (.shortFrame c.type bytes.length) s))
          else .going { s with rx := bytes } (dispatchMicros c r) (.replyDispatched r.len) := by
  have : ¬ (s.en || decide (s.loop ≠ .stopped) || s.dispatchOpen) = true := by simp [he, hl, ho]
  rw [startDispatch, if_neg this]
  rfl

theorem startLine_idle {s : State} (frame : List Byte) (h : s.listening = false) : startLine frame s = .ended (.next s) := by
  simp [startLine, h]

theorem startLine_stops {s : State} (frame : List Byte) (h : s.listening = true) (ha : s.checkAtA = true) (he : s.en = false) :
    startLine frame s = .ended (.next s.stopLine) := by
  simp [startLine, h, ha, he]

/-- A frame that finds the line agent in RxRead, in an iteration that does not end at A, with no host dispatch in progress. -/
theorem startLine_serving {s : State} (frame : List Byte) (h : s.listening = true) (ha : s.checkAtA = false ∨ s.en = true)
    (ho : s.dispatchOpen = false) :
    startLine frame s =
      if frame.length < 3 then .ended (.next (raiseFault (.runtFrame frame.length) { s with loop := .dispatching }))
      else match pairOf s.params (byteAt frame 2) with
        | none => .ended (.next (({ s with loop := .dispatching } : State).record .noMatch).toHead)
        | some (c, r) =>
          if frame.length < c.len then
            .ended (.next (raiseFault (.shortFrame c.type frame.length) { s with loop := .dispatching }))
          else .going { s with loop := .dispatching, rx := frame } (dispatchMicros c r) (.transmit r.len) := by
  have h2 : (s.checkAtA && !s.en) = false := by rcases ha with h | h <;> simp [h]
  have h3 : State.dispatchOpen { s with loop := .dispatching } = false := ho
  unfold startLine
  rw [h, h2]
  simp only [Bool.not_true, Bool.false_eq_true, if_false, h3]
  rfl

end Sys2Proof.Laws
end

