-- ==== Sys2Proof/Laws/Exec.lean ====
section
/-! SUPPORT. What the meanings are, by the way they are carried: every frame of the line port is one dispatch of the line agent, and every
element descriptor is one element operation. -/

namespace Sys2Proof.Laws

open Sys2Proof.Machine

/-- A frame of the line port is run by the line agent's dispatch of its bytes (R161, R167). -/
theorem exec_of_line {i : Instr} {bytes : List Byte} (h : encode i = .line bytes) (s : State) :
    exec i s = runStarted (startLine bytes s) := by
  cases i <;> simp only [encode, Encoded.line.injEq, reduceCtorEq] at h <;> subst h <;> rfl

/-- A descriptor that is decoded is one element decode (R120, R122, R124). -/
theorem exec_of_decElem {i : Instr} {src : DecBuf} {e : Element} (h : decode (.decElem src e.kind.code e.id e.pos) = .ok i) (s : State) :
    exec i s = decodeElement src e s := by
  obtain ⟨k, id, pos⟩ := e
  cases k <;> simp only [decode, decodeDescriptor, ElemKind.code, Except.ok.injEq] at h <;> subst h <;> rfl

/-- A descriptor that is encoded is one element encode (R121, R123, R125). -/
theorem exec_of_encElem {i : Instr} {dst : EncBuf} {e : Element} (h : decode (.encElem dst e.kind.code e.id e.pos) = .ok i) (s : State) :
    exec i s = encodeElement dst e s := by
  obtain ⟨k, id, pos⟩ := e
  cases k <;> simp only [decode, encodeDescriptor, ElemKind.code, Except.ok.injEq] at h <;> subst h <;> rfl

/-- Every descriptor of the three kinds decodes (R86). -/
theorem decElem_decodes (src : DecBuf) (e : Element) : ∃ i, decode (.decElem src e.kind.code e.id e.pos) = .ok i := by
  obtain ⟨k, id, pos⟩ := e
  cases k <;> exact ⟨_, rfl⟩

/-- Every descriptor of the three kinds decodes (R86). -/
theorem encElem_decodes (dst : EncBuf) (e : Element) : ∃ i, decode (.encElem dst e.kind.code e.id e.pos) = .ok i := by
  obtain ⟨k, id, pos⟩ := e
  cases k <;> exact ⟨_, rfl⟩

/-- An element decode that passes its checks is its one cell write (R128). -/
theorem decodeElement_ok {s : State} {src : DecBuf} {e : Element} (h1 : e.id.ty = kindType e.kind)
    (h2 : inCatalog s.params e.id = true) (h3 : elementInBounds (s.decBuf src).length e = true) :
    decodeElement src e s = .next (s.decodeElem src e) := by
  simp [decodeElement, elementFails, h1, h2, h3]

/-- An element encode that passes its checks is its one cell read, into its buffer (R128). -/
theorem encodeElement_ok {s : State} {dst : EncBuf} {e : Element} (h1 : e.id.ty = kindType e.kind)
    (h2 : inCatalog s.params e.id = true) (h3 : elementInBounds (s.encBuf dst).length e = true) :
    encodeElement dst e s = .next (s.encodeElem dst e) := by
  simp [encodeElement, elementFails, h1, h2, h3]

/-- An element decode answers its one cell write of a value in the cell's type, or is refused (R87, R128, R192). -/
theorem decodeElement_cases {s t : State} {src : DecBuf} {e : Element} (h : decodeElement src e s = .next t) :
    t = s.decodeElem src e ∧ e.id.ty = kindType e.kind ∧ inCatalog s.params e.id = true := by
  unfold decodeElement at h
  split at h
  · cases h
  · next hf =>
    cases h
    unfold elementFails at hf
    split at hf
    · cases hf
    · next h1 =>
      split at hf
      · cases hf
      · next h2 => exact ⟨rfl, not_not.mp h1, by simpa using h2⟩

/-- An element encode answers its one cell read, into its buffer, or is refused (R87, R128, R192). -/
theorem encodeElement_cases {s t : State} {dst : EncBuf} {e : Element} (h : encodeElement dst e s = .next t) :
    t = s.encodeElem dst e := by
  unfold encodeElement at h
  split at h <;> cases h
  rfl

end Sys2Proof.Laws
end

