-- ==== Sys2Proof/Laws/Order.lean ====
section
/-! SUPPORT. What each cell access and a completion do to the values that an agent may still read: some of the oldest go, and a written value
is put in (R65). -/

namespace Sys2Proof.Laws

open Sys2Proof.Machine

/-! ## Lists with values put in -/

theorem putIn_refl (new : Half → Prop) (xs : List Half) : PutIn new xs xs := by
  induction xs with
  | nil => exact .nil
  | cons x xs ih => exact .keep ih

theorem putIn_trans {new : Half → Prop} {xs ys zs : List Half} (h : PutIn new xs ys) (h' : PutIn new ys zs) : PutIn new xs zs := by
  induction h' generalizing xs with
  | nil => exact h
  | keep _ ih =>
    cases h with
    | keep h => exact .keep (ih h)
    | put hv h => exact .put hv (ih h)
  | put hv _ ih => exact .put hv (ih h)

theorem putIn_mono {new new' : Half → Prop} {xs ys : List Half} (hn : ∀ v, new v → new' v) (h : PutIn new xs ys) : PutIn new' xs ys := by
  induction h with
  | nil => exact .nil
  | keep _ ih => exact .keep ih
  | put hv _ ih => exact .put (hn _ hv) ih

theorem putIn_drop {new : Half → Prop} {xs ys : List Half} (h : PutIn new xs ys) (n : Nat) : ∃ k, PutIn new (xs.drop k) (ys.drop n) := by
  induction h generalizing n with
  | nil => exact ⟨0, by simpa using PutIn.nil⟩
  | keep h ih =>
    cases n with
    | zero => exact ⟨0, .keep h⟩
    | succ n =>
      obtain ⟨k, h⟩ := ih n
      exact ⟨k + 1, h⟩
  | put hv h ih =>
    cases n with
    | zero => exact ⟨0, .put hv h⟩
    | succ n => exact ih n

theorem putIn_append {new : Half → Prop} {xs ys : List Half} (h : PutIn new xs ys) (zs : List Half) : PutIn new (xs ++ zs) (ys ++ zs) := by
  induction h with
  | nil => exact putIn_refl new zs
  | keep _ ih => exact .keep ih
  | put hv _ ih => exact .put hv ih

/-- The second list is what is left of the first once some of its oldest values have gone, with new values put in. -/
def Advances (new : Half → Prop) (before after : List Half) : Prop := ∃ k, PutIn new (before.drop k) after

theorem advances_refl (new : Half → Prop) (xs : List Half) : Advances new xs xs := ⟨0, putIn_refl new xs⟩

theorem advances_drop (new : Half → Prop) (xs : List Half) (k : Nat) : Advances new xs (xs.drop k) := ⟨k, putIn_refl new _⟩

theorem advances_trans {new : Half → Prop} {xs ys zs : List Half} (h : Advances new xs ys) (h' : Advances new ys zs) :
    Advances new xs zs := by
  obtain ⟨k, h⟩ := h
  obtain ⟨n, h'⟩ := h'
  obtain ⟨j, h⟩ := putIn_drop h n
  exact ⟨k + j, by rw [← List.drop_drop]; exact putIn_trans h h'⟩

theorem advances_mono {new new' : Half → Prop} {xs ys : List Half} (hn : ∀ v, new v → new' v) (h : Advances new xs ys) :
    Advances new' xs ys := by
  obtain ⟨k, h⟩ := h
  exact ⟨k, putIn_mono hn h⟩

/-! ## What an agent may still read -/

theorem readable_eq (s : State) (a : Agent) (id : VarId) :
    s.readable a id = (unseenOf a id s.past).map (·.value) ++ [s.getVar id] := rfl

/-- It depends on the table and the older values alone. -/
theorem readable_congr {s t : State} (hm : t.mem = s.mem) (hp : t.past = s.past) (a : Agent) (id : VarId) :
    t.readable a id = s.readable a id := by rw [readable_eq, readable_eq, hp, State.getVar, State.getVar, hm]

/-- What one agent has read takes nothing from another. -/
theorem unseenOf_markSeen_agent {a who : Agent} (ha : a ≠ who) (id id' : VarId) (n : Nat) (es : List Superseded) :
    (unseenOf a id' (markSeen who id n es)).map (·.value) = (unseenOf a id' es).map (·.value) := by
  induction es generalizing n with
  | nil => cases n <;> simp [markSeen]
  | cons e es ih =>
    cases n with
    | zero => simp [markSeen]
    | succ n =>
      by_cases h : e.id = id ∧ who ∉ e.seen
      · simp only [markSeen, if_pos h, unseenOf_cons, List.mem_cons, ha, false_or]
        split <;> simp [ih]
      · simp only [markSeen, if_neg h, unseenOf_cons]
        split <;> simp [ih]

/-- A placed write of another agent is put in where this agent has not passed it, and else shows it nothing. -/
theorem unseenOf_placeWrite_agent {a who : Agent} (ha : a ≠ who) (id : VarId) (v : Half) (n : Nat) (es : List Superseded) :
    PutIn (· = v) ((unseenOf a id es).map (·.value)) ((unseenOf a id (placeWrite who id v n es)).map (·.value)) := by
  induction es generalizing n with
  | nil => cases n <;> exact .nil
  | cons e es ih =>
    by_cases h : e.id = id ∧ who ∉ e.seen
    · cases n with
      | zero =>
        rw [placeWrite, if_pos h]
        by_cases h' : a ∈ e.seen
        · simp only [unseenOf_cons, h.1, List.mem_cons, h', ha]
          simpa using putIn_refl _ _
        · simp only [unseenOf_cons, h.1, List.mem_cons, h', ha]
          simp only [or_self, not_false_eq_true, and_self, if_true, List.map_cons]
          exact .keep (.put rfl (putIn_refl _ _))
      | succ n =>
        simp only [placeWrite, if_pos h, unseenOf_cons, List.mem_cons, ha, false_or]
        split
        · exact .keep (ih n)
        · exact ih n
    · simp only [placeWrite, if_neg h, unseenOf_cons]
      split
      · exact .keep (ih n)
      · exact ih n

/-- A read lets its own agent read nothing older again (R65), and changes nothing for another. -/
theorem readable_seeVar_self (s : State) (id : VarId) :
    (s.seeVar id).readable s.who id = (s.readable s.who id).drop ((s.unseen id).length - s.depth id) := by
  have := seeVar_unseen s id
  rw [unseen_eq, seeVar_who] at this
  rw [readable_eq, readable_eq, this, ← unseen_eq, List.drop_append_of_le_length (by simp), List.map_drop]
  rfl

theorem readable_seeVar_other (s : State) {a : Agent} {id id' : VarId} (h : a ≠ s.who ∨ id' ≠ id) :
    (s.seeVar id).readable a id' = s.readable a id' := by
  rw [readable_eq, readable_eq, seeVar_past]
  by_cases hi : id' = id
  · rw [unseenOf_markSeen_agent (h.resolve_right (not_not.mpr hi))]
    rfl
  · by_cases ha : a = s.who
    · rw [ha, unseenOf_markSeen_other _ hi]
      rfl
    · rw [unseenOf_markSeen_agent ha]
      rfl

theorem readable_seeVar (new : Half → Prop) (s : State) (a : Agent) (id id' : VarId) :
    Advances new (s.readable a id') ((s.seeVar id).readable a id') := by
  by_cases h : a = s.who ∧ id' = id
  · obtain ⟨rfl, rfl⟩ := h
    rw [readable_seeVar_self]
    exact advances_drop _ _ _
  · rw [readable_seeVar_other s (by tauto)]
    exact advances_refl _ _

/-- A write of another cell changes nothing. -/
theorem readable_setVar_other (s : State) (a : Agent) {id id' : VarId} (v : Half) (h : id' ≠ id) :
    (s.setVar id v).readable a id' = s.readable a id' := by
  have hp : (unseenOf a id' (s.setVar id v).past).map (·.value) = (unseenOf a id' s.past).map (·.value) := by
    rw [setVar_past]
    split
    · rw [unseenOf_append, List.map_append]
      have : unseenOf a id' [⟨id, s.getVar id, s.who, [s.who]⟩] = [] := by simp [unseenOf, h.symm]
      rw [this]
      by_cases ha : a = s.who
      · rw [ha, unseenOf_markSeen_other _ h]
        simp
      · rw [unseenOf_markSeen_agent ha]
        simp
    · exact placed a s.who v h _ s.past
  rw [readable_eq, readable_eq, hp, setVar_getVar_other s v h]
where
  placed (a who : Agent) (v : Half) {id id' : VarId} (h : id' ≠ id) (n : Nat) (es : List Superseded) :
      (unseenOf a id' (placeWrite who id v n es)).map (·.value) = (unseenOf a id' es).map (·.value) := by
    induction es generalizing n with
    | nil => cases n <;> simp [placeWrite]
    | cons e es ih =>
      by_cases hx : e.id = id ∧ who ∉ e.seen
      · have he : e.id ≠ id' := fun k => h (k.symm.trans hx.1)
        cases n with
        | zero => simp [placeWrite, hx, unseenOf_cons, h.symm]
        | succ n => simp [placeWrite, hx, unseenOf_cons, ih, h.symm]
      · simp only [placeWrite, if_neg hx, unseenOf_cons]
        split <;> simp [ih]

/-- A write puts its value in, and lets its own agent read nothing older than it (R65, R66). -/
theorem readable_setVar {s : State} (hm : s.mem.wf = true) (a : Agent) (id : VarId) (v : Half) :
    Advances (· = v) (s.readable a id) ((s.setVar id v).readable a id) := by
  by_cases hd : s.depth id = 0
  · have hg := setVar_getVar_self v hd hm
    by_cases ha : a = s.who
    · refine ⟨(s.readable a id).length, ?_⟩
      subst ha
      have : unseenOf s.who id (s.setVar id v).past = [] := by
        have := setVar_unseen_length s id v
        rw [hd, List.length_eq_zero_iff, unseen_eq, setVar_who] at this
        exact this
      rw [readable_eq (s.setVar id v), this, hg, List.drop_length]
      exact .put rfl .nil
    · refine ⟨0, ?_⟩
      rw [readable_eq, readable_eq, hg, setVar_past, if_pos hd, unseenOf_append, List.map_append, unseenOf_markSeen_agent ha]
      have : unseenOf a id [⟨id, s.getVar id, s.who, [s.who]⟩] = [⟨id, s.getVar id, s.who, [s.who]⟩] := by simp [unseenOf, ha]
      rw [this, List.append_assoc, List.drop_zero]
      generalize (unseenOf a id s.past).map (·.value) = xs
      induction xs with
      | nil => exact .keep (.put rfl .nil)
      | cons x xs ih => exact .keep ih
  · have hg : (s.setVar id v).getVar id = s.getVar id := by rw [State.getVar, setVar_mem, if_neg hd]; rfl
    rw [readable_eq, readable_eq, hg, setVar_past, if_neg hd]
    by_cases ha : a = s.who
    · subst ha
      refine ⟨(s.unseen id).length - s.depth id + 1, ?_⟩
      rw [unseenOf_placeWrite, ← unseen_eq]
      have hl := depth_le s id
      rw [List.drop_append_of_le_length (by rw [List.length_map]; omega)]
      refine putIn_append ?_ _
      cases hx : (s.unseen id).drop ((s.unseen id).length - s.depth id) with
      | nil =>
        have := congrArg List.length hx
        rw [List.length_drop, List.length_nil] at this
        omega
      | cons e rest =>
        rw [← List.map_drop, ← List.drop_drop, hx]
        exact .put rfl (putIn_refl _ _)
    · exact ⟨0, putIn_append (unseenOf_placeWrite_agent ha id v _ _) _⟩

/-- A completion takes the oldest values from every agent (R65). -/
theorem unseenOf_settlePast (a who : Agent) (id : VarId) (es : List Superseded) :
    ∃ k, unseenOf a id (settlePast who es) = (unseenOf a id es).drop k := by
  induction es with
  | nil => exact ⟨0, rfl⟩
  | cons e es ih =>
    obtain ⟨k, ih⟩ := ih
    rw [settlePast]
    split
    · rw [unseenOf_cons]
      split
      · exact ⟨k + 1, ih⟩
      · exact ⟨k, ih⟩
    · next hx =>
      rw [unseenOf_cons, unseenOf_cons]
      split
      · next he =>
        refine ⟨0, ?_⟩
        rw [List.drop_zero, kept a id es fun x hm hi hw => hx (.inr ?_)]
        rw [List.any_eq_true]
        exact ⟨x, hm, by simp [hw, hi, he.1]⟩
      · exact ⟨k, ih⟩
where
  kept (a : Agent) (id : VarId) (es : List Superseded) (h : ∀ x ∈ es, x.id = id → x.writer ≠ who) :
      unseenOf a id (settlePast who es) = unseenOf a id es := by
    induction es with
    | nil => rfl
    | cons e es ih =>
      have ih := ih fun x hm => h x (List.mem_cons_of_mem _ hm)
      rw [settlePast]
      split
      · next hx =>
        have : e.id ≠ id := by
          intro he
          rcases hx with hx | hx
          · exact h e List.mem_cons_self he hx
          · obtain ⟨x, hm, hx⟩ := List.any_eq_true.mp hx
            simp only [Bool.and_eq_true, decide_eq_true_eq] at hx
            exact h x (List.mem_cons_of_mem _ hm) (hx.2.trans he) hx.1
        rw [ih, unseenOf_cons, if_neg fun hh => this hh.1]
      · rw [unseenOf_cons, unseenOf_cons, ih]

theorem readable_settle (new : Half → Prop) (s : State) (a : Agent) (id : VarId) :
    Advances new (s.readable a id) (s.settle.readable a id) := by
  obtain ⟨k, h⟩ := unseenOf_settlePast a s.who id s.past
  refine ⟨min k (unseenOf a id s.past).length, ?_⟩
  rw [readable_eq, readable_eq, settle_past, h, List.drop_append_of_le_length (by simp)]
  have : (unseenOf a id s.past).drop k = (unseenOf a id s.past).drop (min k (unseenOf a id s.past).length) := by
    rcases Nat.le_total k (unseenOf a id s.past).length with hk | hk
    · rw [Nat.min_eq_left hk]
    · rw [Nat.min_eq_right hk, List.drop_length, List.drop_eq_nil_of_le hk]
  rw [this, List.map_drop]
  exact putIn_refl _ _

end Sys2Proof.Laws
end

