-- ==== Sys2Proof/Laws/Turns.lean ====
section
/-! SUPPORT. What a step and a turn are, said once: the step of a healthy state that has been initialised is its next turn, and the first
remaining step of an operation in progress. -/

namespace Sys2Proof.Laws

open Sys2Proof.Machine

/-- Once initialisation is over and no fault is latched, the step is the next turn (R7). -/
theorem step_of_turn {s : State} {t : Turn} {rest : List Turn} (hf : s.fault = none) (hb : s.boot ≠ .pending)
    (ht : s.turns = t :: rest) : step s = takeTurn t s { s with turns := rest } := by
  simp only [step, takeStep, hf]
  cases hb' : s.boot <;> simp_all

/-- Where no turn is left no agent moves (R239). -/
theorem step_idle {s : State} (hf : s.fault = none) (hb : s.boot ≠ .pending) (ht : s.turns = []) : step s = .next s := by
  simp only [step, takeStep, hf]
  cases hb' : s.boot <;> simp_all

/-- Before initialisation the step is initialisation (R222). -/
theorem step_of_pending {s : State} (hf : s.fault = none) (hb : s.boot = .pending) : step s = execInit s := by
  simp [step, takeStep, hf, hb]

/-- A latched fault is answered (R194). -/
theorem step_of_fault {s : State} {f : Fault} (h : s.fault = some f) : step s = .fault f := by
  simp [step, takeStep, h]

/-- The first remaining step is never read ahead of its turn. -/
@[simp] theorem aheadCell_zero (todo : List Micro) : aheadCell 0 todo = none := by
  unfold aheadCell
  split <;> simp

@[simp] theorem aheadCell_nil (k : Nat) : aheadCell k [] = none := rfl

/-- The first remaining step may always be taken first. -/
@[simp] theorem chooseMicro_zero (todo : List Micro) : chooseMicro 0 todo = 0 := by
  unfold chooseMicro
  split <;> simp

/-- The first step of an operation in progress: the step in its agent's own state, and the rest left in progress. -/
theorem advanceOp_first {s : State} {a : Agent} {picks : Picks} {o : OpenOp} {m : Micro} {todo : List Micro}
    (h : s.opens.find? (fun x => decide (x.agent = a)) = some o) (ht : o.todo = m :: todo) :
    advanceOp a 0 picks s =
      holdRest a (stepsAfter m (s.stepping o a picks) todo) o.fin (execMicro m (s.stepping o a picks)) := by
  simp only [advanceOp, h, aheadCell_zero, chooseMicro_zero, ht, List.getElem?_cons_zero, List.eraseIdx_zero, List.tail_cons]

/-- An operation in progress with no step left is completed. -/
theorem advanceOp_last {s : State} {a : Agent} {picks : Picks} {o : OpenOp} (k : Nat)
    (h : s.opens.find? (fun x => decide (x.agent = a)) = some o) (ht : o.todo = []) :
    advanceOp a k picks s = .next (finishOp o.fin (s.stepping o a picks)) := by
  simp only [advanceOp, h, ht, aheadCell_nil, List.getElem?_nil]

/-- What an agent's advance can do: nothing, where it has no operation in progress; read a cell ahead for its encode elements; complete its
operation; or take one of the remaining steps. -/
theorem advanceOp_cases {s t : State} {a : Agent} {k : Nat} {picks : Picks} (h : advanceOp a k picks s = .next t) :
    (s.opens.find? (fun x => decide (x.agent = a)) = none ∧ t = s)
    ∨ ∃ o, s.opens.find? (fun x => decide (x.agent = a)) = some o
        ∧ ((∃ id, t = ((s.stepping o a picks).seeVar id).hold a (o.todo.map (shareRead id ((s.stepping o a picks).readVar id))) o.fin)
          ∨ t = finishOp o.fin (s.stepping o a picks)
          ∨ ∃ (j : Nat) (m : Micro) (u : State), o.todo[j]? = some m ∧ execMicro m (s.stepping o a picks) = .next u
              ∧ t = u.hold a (stepsAfter m (s.stepping o a picks) (o.todo.eraseIdx j)) o.fin) := by
  unfold advanceOp at h
  split at h
  · next hf => exact .inl ⟨hf, by cases h; rfl⟩
  · next o hf =>
    refine .inr ⟨o, hf, ?_⟩
    dsimp only at h
    split at h
    · next id _ => exact .inl ⟨id, by cases h; rfl⟩
    · split at h
      · exact .inr (.inl (by cases h; rfl))
      · next m hm =>
        refine .inr (.inr ⟨chooseMicro k o.todo, m, ?_⟩)
        cases hx : execMicro m (s.stepping o a picks) with
        | next u =>
          rw [hx] at h
          cases h
          exact ⟨u, hm, rfl, rfl⟩
        | fault r => rw [hx] at h; cases h
        | refused r => rw [hx] at h; cases h

/-! ## Beginning an operation -/

/-- An instruction that begins with several steps is, run at once, all of them and its completion (R7). -/
theorem exec_of_start {i : Instr} {s : State} {st : Started} (h : startOf i s = some st) : exec i s = runStarted st := by
  cases i <;> simp only [startOf, Option.some.injEq, reduceCtorEq] at h <;> subst h <;> rfl

/-- A frame of the line port begins the line agent's dispatch (R167). -/
theorem startOf_line {i : Instr} {bytes : List Byte} (h : encode i = .line bytes) (s : State) :
    startOf i s = some (startLine bytes s) := by
  cases i <;> simp only [encode, Encoded.line.injEq, reduceCtorEq] at h <;> subst h <;> rfl

/-- Beginning an instruction of several steps. -/
theorem beginInstr_of_start {i : Instr} {s : State} {st : Started} (h : startOf i s = some st) :
    beginInstr i s = holdStarted s.who st := by
  simp only [beginInstr, h]

/-- Beginning an instruction of one step is running it. -/
theorem beginInstr_of_none {i : Instr} {s : State} (h : startOf i s = none) : beginInstr i s = exec i s := by
  simp only [beginInstr, h]

end Sys2Proof.Laws
end

