-- ==== Sys2Proof/Tests/Slice0.lean ====
section
/-! SUPPORT. The model's own tests: the well-formedness smoke, words written out from the spec's encodings, single steps on the worked
examples and vectors of spec/95_test_vectors.md, and the witnesses of the statements' hypotheses. -/

namespace Sys2Proof.Tests

open Sys2Proof.Machine Sys2Proof.Laws

set_option Elab.async false

/-! ## Ill-formed terms are refused (R58, R86, R87, R101) -/

theorem test_wf_unmatched_of_a_table_type : (Instr.unmatchedType 0x10 0x83 0x03 []).wf = false := by decide
theorem test_wf_runt_of_three_bytes : (Instr.runtFrame [0x10, 0x83, 0x03]).wf = false := by decide
theorem test_wf_bit_of_a_byte_cell : (Instr.bitDecode .rx ⟨.ioi, .u8, 1⟩ 24).wf = false := by decide
theorem test_wf_bit_in_the_header : (Instr.bitEncode .tx ⟨.ioi, .b1, 1⟩ 23).wf = false := by decide
theorem test_wf_byte_of_a_bit_cell : (Instr.byteDecode .rx ⟨.ioi, .b1, 1⟩ 4).wf = false := by decide
theorem test_wf_byte_in_the_header : (Instr.byteEncode .tx ⟨.ioi, .u8, 1⟩ 2).wf = false := by decide
theorem test_wf_word_of_a_byte_cell : (Instr.wordDecode .rx ⟨.ioi, .u8, 1⟩ 4).wf = false := by decide
theorem test_wf_word_in_the_header : (Instr.wordEncode .tx ⟨.ioi, .u16, 1⟩ 2).wf = false := by decide
theorem test_wf_get_of_a_wide_index : (Instr.get ⟨.cu, .b1, 65536⟩).wf = false := by decide
theorem test_wf_set_of_a_wide_index : (Instr.set ⟨.cu, .b1, 65536⟩ 0).wf = false := by decide
theorem test_wf_frame_decode_of_a_long_string (bytes : List Byte) (h : bytes.length = 65536) :
    (Instr.frameDecode 0 bytes).wf = false := by simp [Instr.wf, h]
theorem test_wf_dispatch_of_a_long_string (bytes : List Byte) (h : bytes.length = 65536) :
    (Instr.dispatch bytes).wf = false := by simp [Instr.wf, h]
theorem test_wf_hex_of_a_long_string : (Instr.compatSetHex (List.replicate 256 0x30)).wf = false := by
  decide +kernel
theorem test_wf_det_call_of_many_results : (Instr.detCallOr 1 (List.replicate 256 false)).wf = false := by
  decide +kernel

/-! ## The test instance of spec/95_test_vectors.md 2.0 -/

/-- The payload of `X_CMD`. -/
def xElems : List Element :=
  [⟨.bit, ⟨.ioi, .b1, 1⟩, 24⟩, ⟨.bit, ⟨.ioi, .b1, 2⟩, 31⟩, ⟨.byte, ⟨.ioi, .u8, 1⟩, 4⟩, ⟨.word, ⟨.ioi, .u16, 1⟩, 5⟩,
   ⟨.bit, ⟨.ioi, .b1, 3⟩, 56⟩, ⟨.bit, ⟨.ioi, .b1, 3⟩, 57⟩]

/-- `X_CMD`. -/
def xCmd : FrameDef := ⟨0x10, 0x70, 8, .cmdRcvdBySecondary, xElems⟩
/-- `X_RSP`. -/
def xRsp : FrameDef := ⟨0x10, 0xF0, 8, .rspGenBySecondary, xElems ++ [⟨.bit, ⟨.ioi, .b1, 2⟩, 24⟩]⟩
/-- `Y_RSP`. -/
def yRsp : FrameDef :=
  ⟨0x10, 0xF1, 5, .rspGenBySecondary, [⟨.bit, ⟨.ioi, .b1, 1⟩, 33⟩, ⟨.byte, ⟨.ioi, .u8, 1⟩, 4⟩, ⟨.bit, ⟨.ioi, .b1, 2⟩, 32⟩]⟩

/-- The parameters of the test instance. -/
def testParams : Params :=
  { instanceParams with
    catalog := instanceCatalog ++ [⟨.ioi, .b1, 1, 3⟩, ⟨.ioi, .u8, 1, 1⟩, ⟨.ioi, .u16, 1, 1⟩]
    frames := instanceFrames ++ [xCmd, xRsp, yRsp]
    extraPairs := [(0x70, 0xF0)] }

/-- After a good initialisation, every cell 0, the loop stopped. -/
def idle : State := { State.resetWith testParams instanceCfg with boot := .done, ready := true, who := .host 0 }

/-- The line agent in RxRead, in an iteration that checked at H. -/
def reading : State := { idle with en := true, loop := .reading, who := .line }

/-- What an outcome returned last. -/
def replyOf : Result → Option Reply
  | .next t => t.replies.head?.map (·.2)
  | _ => none

/-- A cell after an outcome. -/
def cellOf (id : VarId) : Result → Option Half
  | .next t => some (t.getVar id)
  | _ => none

/-- The first bytes of TX after an outcome. -/
def txOf (n : Nat) : Result → Option (List Byte)
  | .next t => some (t.tx.take n)
  | _ => none

/-- The fault an outcome latched. -/
def faultOf : Result → Option Fault
  | .next t => t.fault
  | _ => none

/-- The refusal an outcome is. -/
def refusalOf : Result → Option Refusal
  | .refused r => some r
  | _ => none

/-- With no operation in progress no access can come before a write. -/
theorem idle_plain : idle.plain := plain_of_past rfl
theorem reading_plain : reading.plain := plain_of_past rfl

theorem test_instance_admissible : paramsAdmissible instanceParams = true := by decide +kernel
theorem test_params_admissible : paramsAdmissible testParams = true := by decide +kernel

/-! ## Words written out from the encodings

The type byte of a frame is written bit by bit as the opcode table has it (R80, R85); a host-port operation is its code (R94) and its
operands in the layout of R101; an element is its descriptor (R86). -/

/-- R85: the encodings `aaaaaaaa cccccccc tttttttt` of the table. -/
theorem test_decode_command_frames :
    decode (.line [0x10, 0x83, 0b00000000, 0xC3]) = .ok (.cmdT0 0x10 0x83 [0xC3])
    ∧ decode (.line [0x10, 0x83, 0b00000001, 0xC3]) = .ok (.cmdT1 0x10 0x83 [0xC3])
    ∧ decode (.line [0x10, 0x83, 0b00000011, 0xC3]) = .ok (.cmdT3 0x10 0x83 [0xC3])
    ∧ decode (.line [0x10, 0x83, 0b00001001, 0xC3]) = .ok (.cmdT9 0x10 0x83 [0xC3])
    ∧ decode (.line [0x10, 0x83, 0b00001010, 0xC3]) = .ok (.cmdT10 0x10 0x83 [0xC3])
    ∧ decode (.line [0x10, 0x83, 0b00001011, 0xC3]) = .ok (.cmdT11 0x10 0x83 [0xC3])
    ∧ decode (.line [0x10, 0x83, 0b00001100, 0xC3]) = .ok (.cmdT12 0x10 0x83 [0xC3])
    ∧ decode (.line [0x10, 0x83, 0b00001101, 0xC3]) = .ok (.cmdT13 0x10 0x83 [0xC3])
    ∧ decode (.line [0x10, 0x83, 0b00010100, 0xC3]) = .ok (.cmdT20 0x10 0x83 [0xC3])
    ∧ decode (.line [0x10, 0x83, 0b00010101, 0xC3]) = .ok (.cmdT21 0x10 0x83 [0xC3])
    ∧ decode (.line [0x10, 0x83, 0b00010110, 0xC3]) = .ok (.cmdT22 0x10 0x83 [0xC3])
    ∧ decode (.line [0x10, 0x83, 0b00010111, 0xC3]) = .ok (.cmdT23 0x10 0x83 [0xC3])
    ∧ decode (.line [0x10, 0x83, 0b00011000, 0xC3]) = .ok (.cmdT24 0x10 0x83 [0xC3])
    ∧ decode (.line [0x10, 0x83, 0b00011001, 0xC3]) = .ok (.cmdT25 0x10 0x83 [0xC3])
    ∧ decode (.line [0x10, 0x83, 0b00011010, 0xC3]) = .ok (.cmdT26 0x10 0x83 [0xC3])
    ∧ decode (.line [0x10, 0x83, 0b00011011, 0xC3]) = .ok (.cmdT27 0x10 0x83 [0xC3]) := by decide

/-- R85, R96: the encodings `aaaaaaaa cccccccc tttttttt` of the table. -/
theorem test_decode_response_frames :
    decode (.line [0x10, 0x83, 0b10000001, 0xC3]) = .ok (.rspT129 0x10 0x83 [0xC3])
    ∧ decode (.line [0x10, 0x83, 0b10000011, 0xC3]) = .ok (.rspT131 0x10 0x83 [0xC3])
    ∧ decode (.line [0x10, 0x83, 0b10001010, 0xC3]) = .ok (.rspT138 0x10 0x83 [0xC3])
    ∧ decode (.line [0x10, 0x83, 0b10001011, 0xC3]) = .ok (.rspT139 0x10 0x83 [0xC3])
    ∧ decode (.line [0x10, 0x83, 0b10001100, 0xC3]) = .ok (.rspT140 0x10 0x83 [0xC3])
    ∧ decode (.line [0x10, 0x83, 0b10001101, 0xC3]) = .ok (.rspT141 0x10 0x83 [0xC3])
    ∧ decode (.line [0x10, 0x83, 0b10010100, 0xC3]) = .ok (.rspT148 0x10 0x83 [0xC3])
    ∧ decode (.line [0x10, 0x83, 0b10010101, 0xC3]) = .ok (.rspT149 0x10 0x83 [0xC3])
    ∧ decode (.line [0x10, 0x83, 0b10010110, 0xC3]) = .ok (.rspT150 0x10 0x83 [0xC3])
    ∧ decode (.line [0x10, 0x83, 0b10010111, 0xC3]) = .ok (.rspT151 0x10 0x83 [0xC3])
    ∧ decode (.line [0x10, 0x83, 0b10011000, 0xC3]) = .ok (.rspT152 0x10 0x83 [0xC3])
    ∧ decode (.line [0x10, 0x83, 0b10011001, 0xC3]) = .ok (.rspT153 0x10 0x83 [0xC3])
    ∧ decode (.line [0x10, 0x83, 0b10011010, 0xC3]) = .ok (.rspT154 0x10 0x83 [0xC3])
    ∧ decode (.line [0x10, 0x83, 0b10011011, 0xC3]) = .ok (.rspT155 0x10 0x83 [0xC3]) := by decide

/-- R81, R95, R163: a type outside the table, with an address and a control byte of its own; byte strings of 0, 1 and 2 bytes. -/
theorem test_decode_other_frames :
    decode (.line [0xFF, 0x00, 0b00000111, 0x01]) = .ok (.unmatchedType 0xFF 0x00 0x07 [0x01])
    ∧ decode (.line [0x10, 0x83, 0b10000000]) = .ok (.unmatchedType 0x10 0x83 0x80 [])
    ∧ decode (.line []) = .ok (.runtFrame [])
    ∧ decode (.line [0x10]) = .ok (.runtFrame [0x10])
    ∧ decode (.line [0x10, 0x83]) = .ok (.runtFrame [0x10, 0x83]) := by decide

/-- R86: kind codes 0, 1 and 2, on the decode side and on the encode side. -/
theorem test_decode_elements :
    decode (.decElem .rx 0 ⟨.ioi, .b1, 1⟩ 24) = .ok (.bitDecode .rx ⟨.ioi, .b1, 1⟩ 24)
    ∧ decode (.encElem .tx 0 ⟨.ioi, .b1, 1⟩ 24) = .ok (.bitEncode .tx ⟨.ioi, .b1, 1⟩ 24)
    ∧ decode (.decElem .b 1 ⟨.ioi, .u8, 1⟩ 4) = .ok (.byteDecode .b ⟨.ioi, .u8, 1⟩ 4)
    ∧ decode (.encElem .b 1 ⟨.ioi, .u8, 1⟩ 4) = .ok (.byteEncode .b ⟨.ioi, .u8, 1⟩ 4)
    ∧ decode (.decElem .rx 2 ⟨.ioi, .u16, 1⟩ 5) = .ok (.wordDecode .rx ⟨.ioi, .u16, 1⟩ 5)
    ∧ decode (.encElem .tx 2 ⟨.ioi, .u16, 1⟩ 5) = .ok (.wordEncode .tx ⟨.ioi, .u16, 1⟩ 5)
    ∧ decode (.decElem .rx 3 ⟨.ioi, .u16, 1⟩ 5) = .error (.badKindCode 3) := by decide

/-- R94, R101, with the encodings of spec/95_test_vectors.md (VT2, VT4, FD3, FD6, DS1, DS11, DS16, WA2, `LSIND 4`). -/
theorem test_decode_host_operations :
    decode (.host [0x01, 0x01, 0x00, 0x05, 0x01]) = .ok (.get ⟨.mmu, .b1, 0x0105⟩)
    ∧ decode (.host [0x02, 0x02, 0x02, 0x01, 0x00, 0xEF, 0xBE]) = .ok (.set ⟨.ioi, .u16, 1⟩ 0xBEEF)
    ∧ decode (.host [0x03, 0x70, 0x08, 0x00, 0x10, 0x83, 0x70, 0x00, 0xA5, 0x34, 0x12, 0x02])
        = .ok (.frameDecode 0x70 [0x10, 0x83, 0x70, 0x00, 0xA5, 0x34, 0x12, 0x02])
    ∧ decode (.host [0x04, 0xF0]) = .ok (.frameEncode 0xF0)
    ∧ decode (.host [0x05, 0x03, 0x00, 0x10, 0x83, 0x03]) = .ok (.dispatch [0x10, 0x83, 0x03])
    ∧ decode (.host [0x10, 0x18, 0x02, 0xA6, 0x00, 0x23, 0xB0, 0x02, 0x02, 0x28, 0x20, 0xA0, 0x20, 0x10, 0x00, 0x00])
        = .ok (.compatSetBitset 0x00001020A020280202B02300A60218)
    ∧ decode (.host [0x11]) = .ok .compatGetBitset
    ∧ decode (.host [0x12, 0x02, 0x30, 0x31]) = .ok (.compatSetHex [0x30, 0x31])
    ∧ decode (.host [0x13]) = .ok .compatZero
    ∧ decode (.host [0x14]) = .ok .compatDefault
    ∧ decode (.host [0x20, 0x04]) = .ok (.lsIndication 4)
    ∧ decode (.host [0x21, 0x07, 0x02, 0x00, 0x01]) = .ok (.detCallOr 7 [false, true])
    ∧ decode (.host [0x30, 0x00, 0x01]) = .ok (.csrWrite 0 1)
    ∧ decode (.host [0x31, 0x01]) = .ok (.csrRead 1) := by decide

/-- What the host port rejects, by name (R86, R94, R101). -/
theorem test_decode_rejections :
    decode (.host []) = .error .empty
    ∧ decode (.host [0x06]) = .error (.unknownOperation 0x06)
    ∧ decode (.host [0x01, 0x01, 0x00, 0x05]) = .error .truncated
    ∧ decode (.host [0x13, 0x00]) = .error .trailing
    ∧ decode (.host [0x01, 0x06, 0x00, 0x05, 0x01]) = .error (.badDomainCode 6)
    ∧ decode (.host [0x01, 0x01, 0x03, 0x05, 0x01]) = .error (.badTypeCode 3)
    ∧ decode (.host [0x21, 0x07, 0x01, 0x02]) = .error (.badSensorByte 2) := by decide

/-- The six domain codes (R94). -/
theorem test_decode_domains :
    [0, 1, 2, 3, 4, 5].map domainOfCode = [some .cu, some .mmu, some .ioi, some .ioo, some .biu, some .bc] := by decide

/-! ## Definitions that fail a check of R87 -/

/-- The test instance with one more definition. -/
def withFrame (d : FrameDef) : Params := { testParams with frames := d :: testParams.frames }

theorem test_wf_len : failedCheck (withFrame ⟨0, 0x60, 2, .cmdRcvdBySecondary, []⟩) = some .len := by decide +kernel
theorem test_wf_len_top : failedCheck (withFrame ⟨0, 0x60, 257, .cmdRcvdBySecondary, []⟩) = some .len := by decide +kernel
/-- R5, R87: `FrameLen(3)` is 3, `FrameLen(131)` is 23. -/
theorem test_wf_len_fixed :
    failedCheck (withFrame ⟨0x10, 3, 4, .cmdRcvdBySecondary, []⟩) = some .len
    ∧ failedCheck (withFrame ⟨0x10, 131, 22, .rspGenBySecondary, []⟩) = some .len
    ∧ ([0, 1, 3, 9, 131, 129, 10].map fixedFrameLen) = [some 16, some 3, some 3, some 12, some 23, none, none] := by decide +kernel
theorem test_wf_bounds_header : failedCheck (withFrame ⟨0, 0x60, 4, .cmdRcvdBySecondary, [⟨.bit, ⟨.ioi, .b1, 1⟩, 23⟩]⟩) = some .bounds := by
  decide +kernel
theorem test_wf_bounds_word : failedCheck (withFrame ⟨0, 0x60, 8, .cmdRcvdBySecondary, [⟨.word, ⟨.ioi, .u16, 1⟩, 7⟩]⟩) = some .bounds := by
  decide +kernel
theorem test_wf_kind_type : failedCheck (withFrame ⟨0, 0x60, 8, .cmdRcvdBySecondary, [⟨.byte, ⟨.ioi, .b1, 1⟩, 4⟩]⟩) = some .kindType := by
  decide +kernel
theorem test_wf_id : failedCheck (withFrame ⟨0, 0x60, 8, .cmdRcvdBySecondary, [⟨.bit, ⟨.ioi, .b1, 4⟩, 24⟩]⟩) = some .id := by decide +kernel
theorem test_wf_unique : failedCheck { testParams with extraPairs := [(0x70, 0xF0), (0x01, 0x81)] } = some .unique := by decide +kernel
theorem test_wf_pair : failedCheck { testParams with extraPairs := [(0x70, 0xF1)] } = some .pair := by decide +kernel

/-- R24, R25, R26: a catalogue without the phase states, without a detector's call, without a pair's cell, is not admissible; one that lists
`MMU.b1[0x0201]` still names no cell there. -/
theorem test_catalogue_constraints :
    catalogHoldsFamilies { instanceParams with phaseStates := ⟨.ioi, .u8, 1, 2⟩ } = false
    ∧ catalogHoldsFamilies { instanceParams with dateTime := [] } = false
    ∧ bindingsHeld { instanceParams with detCallDom := .ioi } = false
    ∧ bindingsHeld { instanceParams with catalog := instanceCatalog.drop 1 } = false
    ∧ inCatalog { instanceParams with catalog := ⟨.mmu, .b1, 0x0201, 0x0201⟩ :: instanceCatalog } ⟨.mmu, .b1, 0x0201⟩ = false
    ∧ familiesDistinct { instanceParams with lsYellowDom := .cu } = false := by decide +kernel

/-- R127, R134: the two bits of a driver stand at two positions. -/
theorem test_type0_needs_two_positions :
    type0Layout { instanceParams with
      frames := ⟨0x10, 0, 16, .cmdRcvdBySecondary, (instanceType0.set 1 (bitElem ⟨.cu, .b1, 1⟩ 24))⟩ :: instanceFrames } = false := by
  decide +kernel

/-! ## Single steps on the spec's examples and vectors -/

/-- `idle` with some cells. -/
def idleWith (m : Memory) : State := { idle with mem := m }

/-- The state of the element vectors: six bytes `S[0..]` with `S[3] = 0xFE`, `S[4] = 0x34`, `S[5] = 0x20`, in RX, TX and B. -/
def elementState (m : Memory) (buf : List Byte) : State := { idle with mem := m, rx := buf, tx := buf, b := buf }

/-- The pair (1,2) On (W2). -/
def pair12 : Memory := [(compatId 1 2, 1)]

/-- "00001020A020280202B02300A60218" (W1). -/
def w1String : List Byte :=
  [0x30, 0x30, 0x30, 0x30, 0x31, 0x30, 0x32, 0x30, 0x41, 0x30, 0x32, 0x30, 0x32, 0x38, 0x30, 0x32, 0x30, 0x32, 0x42, 0x30, 0x32, 0x33,
   0x30, 0x30, 0x41, 0x36, 0x30, 0x32, 0x31, 0x38]

/-! ### Frames of the line port -/

/-- W2, P3: a type-3 request with the pair (1,2) On is answered by 23 bytes `10 83 83 01 00 ..`. -/
theorem test_cmdT3_answers :
    txOf 23 (step { reading with mem := pair12, turns := [.rx [0x10, 0x83, 0x03] []] }) = some ([0x10, 0x83, 0x83, 0x01] ++ List.replicate 19 0) := by
  decide +kernel

/-- DS2, DS3: neither the address, nor the control byte, nor extra bytes matter. -/
theorem test_cmdT3_header_is_not_examined :
    txOf 5 (exec (.cmdT3 0xFF 0x00 [0xAA, 0xBB]) { reading with mem := pair12 }) = some [0x10, 0x83, 0x83, 0x01, 0x00] := by decide +kernel

/-- R30, R136: the pair (1, 129). -/
theorem test_cmdT1_answers : txOf 4 (exec (.cmdT1 0x10 0x83 []) reading) = some [0x10, 0x83, 0x81, 0x00] := by decide +kernel

/-- R30: every BIU and detector command is answered by the type 128 above its own. -/
theorem test_biu_commands_answer :
    ([.cmdT10 0 0x83 [], .cmdT11 0 0x83 [], .cmdT12 0 0x83 [], .cmdT13 0 0x83 [], .cmdT20 0 0x83 [], .cmdT21 0 0x83 [], .cmdT22 0 0x83 [],
      .cmdT23 0 0x83 [], .cmdT24 0 0x83 [], .cmdT25 0 0x83 [], .cmdT26 0 0x83 [], .cmdT27 0 0x83 []].map
        fun i => txOf 3 (exec i reading)) =
    ([138, 139, 140, 141, 148, 149, 150, 151, 152, 153, 154, 155] : List Byte).map fun t => some [0x00, 0x83, t] := by decide +kernel

/-- The line agent recorded NOMATCH and nothing else happened to TX. -/
def isNoMatch (r : Result) : Bool :=
  match r with
  | .next t => decide (t.events = [.noMatch]) && decide (t.tx = reading.tx) && decide (t.mem = reading.mem)
  | _ => false

/-- R30, R162: types 0 and 9 select no pair where `ExtraPairs` has none. -/
theorem test_cmdT0_cmdT9_no_match :
    isNoMatch (exec (.cmdT0 0x10 0x83 (List.replicate 13 0xFF)) reading) = true
    ∧ isNoMatch (exec (.cmdT9 0xFF 0x83 (List.replicate 9 0xFF)) reading) = true := by decide +kernel

/-- DS5: the 14 response types select no pair. -/
theorem test_responses_no_match : ((responseForms 0x10 0x83 [0xFF]).all fun f => isNoMatch (exec f.1 reading)) = true := by decide +kernel

/-- DS4, EX2: a type outside the table. -/
theorem test_unmatchedType_no_match : isNoMatch (exec (.unmatchedType 0x10 0x83 0x07 []) reading) = true := by decide +kernel

/-- DS7, FD3: the type that `ExtraPairs` pairs. -/
theorem test_unmatchedType_extra_pair :
    txOf 8 (exec (.unmatchedType 0x10 0x83 0x70 [0x00, 0xA5, 0x34, 0x12, 0x02]) reading)
      = some [0x10, 0x83, 0xF0, 0x00, 0xA5, 0x34, 0x12, 0x03] := by decide +kernel

/-- DS8: a matched frame that is too short. -/
theorem test_unmatchedType_short :
    faultOf (exec (.unmatchedType 0x10 0x83 0x70 [0x00]) reading) = some (.shortFrame 0x70 4) := by decide +kernel

/-- DS6: FCODE 1, STATUS 0x13. -/
theorem test_runtFrame_faults :
    faultOf (exec (.runtFrame [0x10, 0x83]) reading) = some (.runtFrame 2)
    ∧ { reading with fault := some (.runtFrame 2) }.statusReg = 0x13 := by decide +kernel

/-! ### Elements -/

/-- EC1-EC4. -/
theorem test_bitDecode :
    cellOf ⟨.ioi, .b1, 1⟩ (exec (.bitDecode .rx ⟨.ioi, .b1, 1⟩ 45) (elementState [] [0, 0, 0, 0xFE, 0, 0x20])) = some 1
    ∧ cellOf ⟨.ioi, .b1, 1⟩ (exec (.bitDecode .rx ⟨.ioi, .b1, 1⟩ 44) (elementState [(⟨.ioi, .b1, 1⟩, 1)] [0, 0, 0, 0xFE, 0, 0x20])) = some 0
    ∧ cellOf ⟨.ioi, .b1, 1⟩ (exec (.bitDecode .b ⟨.ioi, .b1, 1⟩ 24) (elementState [(⟨.ioi, .b1, 1⟩, 1)] [0, 0, 0, 0xFE])) = some 0
    ∧ cellOf ⟨.ioi, .b1, 1⟩ (exec (.bitDecode .b ⟨.ioi, .b1, 1⟩ 31) (elementState [] [0, 0, 0, 0x80])) = some 1 := by decide +kernel

/-- EC5-EC7: OR never clears. -/
theorem test_bitEncode :
    txOf 4 (exec (.bitEncode .tx ⟨.ioi, .b1, 1⟩ 24) (elementState [(⟨.ioi, .b1, 1⟩, 1)] [0, 0, 0, 0])) = some [0, 0, 0, 0x01]
    ∧ txOf 4 (exec (.bitEncode .tx ⟨.ioi, .b1, 1⟩ 24) (elementState [] [0, 0, 0, 0x01])) = some [0, 0, 0, 0x01]
    ∧ txOf 5 (exec (.bitEncode .tx ⟨.ioi, .b1, 1⟩ 39) (elementState [(⟨.ioi, .b1, 1⟩, 1)] [0, 0, 0, 0, 0x40])) = some [0, 0, 0, 0, 0xC0] := by
  decide +kernel

/-- EC8, EC9. -/
theorem test_byteDecode :
    cellOf ⟨.ioi, .u8, 1⟩ (exec (.byteDecode .rx ⟨.ioi, .u8, 1⟩ 6) (elementState [] [0, 0, 0, 0, 0, 0, 0xA5])) = some 0xA5
    ∧ cellOf ⟨.ioi, .u8, 1⟩ (exec (.byteDecode .rx ⟨.ioi, .u8, 1⟩ 3) (elementState [(⟨.ioi, .u8, 1⟩, 9)] [0, 0, 0, 0])) = some 0 := by
  decide +kernel

/-- EC10: assignment. -/
theorem test_byteEncode :
    txOf 8 (exec (.byteEncode .tx ⟨.ioi, .u8, 1⟩ 7) (elementState [(⟨.ioi, .u8, 1⟩, 0x3C)] [0, 0, 0, 0, 0, 0, 0, 0x81]))
      = some [0, 0, 0, 0, 0, 0, 0, 0x3C] := by decide +kernel

/-- EC11, EC12: an odd position is legal. -/
theorem test_wordDecode :
    cellOf ⟨.ioi, .u16, 1⟩ (exec (.wordDecode .rx ⟨.ioi, .u16, 1⟩ 4) (elementState [] [0, 0, 0, 0, 0x34, 0x12])) = some 0x1234
    ∧ cellOf ⟨.ioi, .u16, 1⟩ (exec (.wordDecode .rx ⟨.ioi, .u16, 1⟩ 5) (elementState [] [0, 0, 0, 0, 0, 0xFF, 0])) = some 0x00FF := by
  decide +kernel

/-- EC13, EC14. -/
theorem test_wordEncode :
    txOf 11 (exec (.wordEncode .tx ⟨.ioi, .u16, 1⟩ 9) (elementState [(⟨.ioi, .u16, 1⟩, 0xABCD)] (List.replicate 11 0)))
      = some [0, 0, 0, 0, 0, 0, 0, 0, 0, 0xCD, 0xAB]
    ∧ txOf 5 (exec (.wordEncode .tx ⟨.ioi, .u16, 1⟩ 3) (elementState [] [0, 0, 0, 0xFF, 0xFF])) = some [0, 0, 0, 0, 0] := by decide +kernel

/-- EC18, EC19. -/
theorem test_elements_refused :
    refusalOf (exec (.bitDecode .rx ⟨.ioi, .b1, 1⟩ 23) (elementState [] [0, 0, 0, 0])) = some (.badElement .bounds)
    ∧ refusalOf (exec (.wordDecode .rx ⟨.ioi, .u16, 1⟩ 3) (elementState [] [0, 0, 0, 0])) = some (.badElement .bounds)
    ∧ refusalOf (exec (.byteDecode .rx ⟨.ioi, .b1, 1⟩ 3) (elementState [] [0, 0, 0, 0])) = some (.badElement .kindType) := by decide +kernel

/-! ### The variable table -/

/-- VT1, VT8-VT10. -/
theorem test_get :
    replyOf (exec (.get (compatId 1 2)) idle) = some (.value 0)
    ∧ replyOf (exec (.get (compatId 1 5)) (idleWith [(compatId 1 5, 1)])) = some (.value 1)
    ∧ ([0x0201, 0x0111, 0x0101].map fun n => refusalOf (exec (.get ⟨.mmu, .b1, n⟩) idle)) = [some .badId, some .badId, some .badId] := by
  decide +kernel

/-- VT2, VT4, VT6, VT7, by the words of the spec. -/
theorem test_set :
    cellOf (compatId 1 5) (step { idle with turns := [.host 0 [0x02, 0x01, 0x00, 0x05, 0x01, 0x01, 0x00] [] []] }) = some 1
    ∧ cellOf ⟨.ioi, .u16, 1⟩ (step { idle with turns := [.host 0 [0x02, 0x02, 0x02, 0x01, 0x00, 0xEF, 0xBE] [] []] }) = some 0xBEEF
    ∧ refusalOf (exec (.set (compatId 1 2) 2) idle) = some .badValue
    ∧ refusalOf (exec (.set ⟨.ioi, .u8, 1⟩ 0x100) idle) = some .badValue
    ∧ refusalOf (exec (.set (compatId 2 1) 2) idle) = some .badId := by decide +kernel

/-! ### Frames of the host port -/

/-- FD3, FD8: the last element that names a cell wins; the header is not read. -/
theorem test_frameDecode :
    ([⟨.ioi, .b1, 1⟩, ⟨.ioi, .b1, 2⟩, ⟨.ioi, .u8, 1⟩, ⟨.ioi, .u16, 1⟩, ⟨.ioi, .b1, 3⟩].map fun id =>
      cellOf id (exec (.frameDecode 0x70 [0x10, 0x83, 0x70, 0x00, 0xA5, 0x34, 0x12, 0x02]) idle))
        = [some 0, some 0, some 0xA5, some 0x1234, some 1]
    ∧ ([⟨.ioi, .b1, 1⟩, ⟨.ioi, .b1, 2⟩].map fun id =>
      cellOf id (exec (.frameDecode 0x70 [0xFF, 0x00, 0x70, 0x01, 0x00, 0x00, 0x00, 0x00, 0xEE]) idle)) = [some 1, some 0] := by decide +kernel

/-- FD4, FD5, FD12. -/
theorem test_frameDecode_stops :
    faultOf (exec (.frameDecode 0x70 [0x10, 0x83, 0x70, 0, 0, 0, 0]) idle) = some (.shortFrame 0x70 7)
    ∧ faultOf (exec (.frameDecode 0x70 [0x10, 0x83]) idle) = some (.runtFrame 2)
    ∧ refusalOf (exec (.frameDecode 0xF0 (List.replicate 8 0)) idle) = some .badDirection := by decide +kernel

/-- FD7, FD9, FD10. -/
theorem test_frameEncode :
    replyOf (exec (.frameEncode 0xF0)
      { idleWith [(⟨.ioi, .b1, 1⟩, 0), (⟨.ioi, .u8, 1⟩, 0x5A), (⟨.ioi, .u16, 1⟩, 1), (⟨.ioi, .b1, 2⟩, 1), (⟨.ioi, .b1, 3⟩, 1)]
        with b := List.replicate 8 0xFF }) = some (.frame [0x10, 0x83, 0xF0, 0x81, 0x5A, 0x01, 0x00, 0x03])
    ∧ replyOf (exec (.frameEncode 0xF1)
      { idleWith [(⟨.ioi, .b1, 1⟩, 1), (⟨.ioi, .u8, 1⟩, 0x40), (⟨.ioi, .b1, 2⟩, 1)] with b := List.replicate 5 0xFF })
        = some (.frame [0x10, 0x83, 0xF1, 0x00, 0x41])
    ∧ replyOf (exec (.frameEncode 0xF1) { idleWith [(⟨.ioi, .b1, 1⟩, 1)] with b := List.replicate 5 0xFF })
        = some (.frame [0x10, 0x83, 0xF1, 0x00, 0x00]) := by decide +kernel

/-- FD13, FD14. -/
theorem test_frameEncode_refused :
    refusalOf (exec (.frameEncode 0x70) { idle with b := List.replicate 8 0 }) = some .badDirection
    ∧ refusalOf (exec (.frameEncode 0xF0) { idle with b := List.replicate 7 0 }) = some .badBuffer := by decide +kernel

/-- DS1, DS4. -/
theorem test_dispatch :
    txOf 23 (exec (.dispatch [0x10, 0x83, 0x03]) (idleWith pair12)) = some ([0x10, 0x83, 0x83, 0x01] ++ List.replicate 19 0)
    ∧ replyOf (exec (.dispatch [0x10, 0x83, 0x03]) (idleWith pair12)) = some (.dispatched true 23)
    ∧ replyOf (exec (.dispatch [0x10, 0x83, 0x07]) idle) = some (.dispatched false 0) := by decide +kernel

/-- DS6, DS8, DS15, EX1. -/
theorem test_dispatch_faults :
    faultOf (exec (.dispatch [0x10, 0x83]) idle) = some (.runtFrame 2)
    ∧ faultOf (exec (.dispatch [0x10, 0x83, 0x70, 0x00]) idle) = some (.shortFrame 0x70 4)
    ∧ faultOf (exec (.dispatch [0x10, 0x83]) reading) = some .concurrentDispatch := by decide +kernel

/-! ### The packer -/

/-- CP1-CP4: the cells of bits 0, 14, 15 and 119. -/
theorem test_compatSetBitset :
    ([(0, compatId 1 2), (14, compatId 1 16), (15, compatId 2 3), (119, compatId 15 16)].map fun (q : Nat × VarId) =>
      match exec (.compatSetBitset (1#120 <<< q.1)) idle with
      | .next t => decide (t.mem = [(q.2, 1)])
      | _ => false) = [true, true, true, true] := by decide +kernel

/-- CP1, CP4, and P1 step 6's direction: cells into bits. -/
theorem test_compatGetBitset :
    replyOf (exec .compatGetBitset (idleWith [(compatId 1 2, 1), (compatId 15 16, 1)])) = some (.bitset (1#120 <<< 119 ||| 1#120)) := by
  decide +kernel

/-- W1. -/
theorem test_compatSetHex :
    ([compatId 1 5, compatId 1 6, compatId 1 2, compatId 10 12].map fun id => cellOf id (exec (.compatSetHex w1String) idle))
      = [some 1, some 1, some 0, some 1]
    ∧ hexBitset w1String = some 0x00001020A020280202B02300A60218 := by decide +kernel

/-- CP11-CP14, W5: rejection changes no cell. -/
theorem test_compatSetHex_rejects :
    ([0x30 :: w1String, [], w1String.set 29 0x47, w1String.set 0 0x20, w1String.take 29].map fun str =>
      (replyOf (exec (.compatSetHex str) (idleWith pair12)), cellOf (compatId 1 2) (exec (.compatSetHex str) (idleWith pair12))))
      = List.replicate 5 (some .hexReject, some 1) := by decide +kernel

/-- CP15, CP16. -/
theorem test_compatZero_compatDefault :
    cellOf (compatId 1 2) (exec .compatZero (idleWith pair12)) = some 0
    ∧ cellOf (compatId 1 16) (exec .compatDefault { idle with params := { testParams with defaultCompat := 1#120 <<< 14 } }) = some 1 := by
  decide +kernel

/-! ### The wiring adapter, control and status -/

/-- WA1, for channel 4 of the instance: green in CU, yellow in IOO, red in BC. -/
theorem test_lsIndication :
    ([[], [(⟨.cu, .b1, 4⟩, 1)], [(⟨.ioo, .b1, 4⟩, 1)], [(⟨.bc, .b1, 4⟩, 1)], [(⟨.cu, .b1, 4⟩, 1), (⟨.ioo, .b1, 4⟩, 1)],
      [(⟨.cu, .b1, 4⟩, 1), (⟨.bc, .b1, 4⟩, 1)], [(⟨.ioo, .b1, 4⟩, 1), (⟨.bc, .b1, 4⟩, 1)],
      [(⟨.cu, .b1, 4⟩, 1), (⟨.ioo, .b1, 4⟩, 1), (⟨.bc, .b1, 4⟩, 1)]].map fun m => replyOf (exec (.lsIndication 4) (idleWith m)))
      = [some (.indication .blank), some (.indication .green), some (.indication .yellow), some (.indication .red),
         some (.indication .blank), some (.indication .blank), some (.indication .blank), some (.indication .blank)] := by decide +kernel

/-- WA2-WA7, each with as many sensors as it has results (R33), and that another number of results completes too (note 12). -/
theorem test_detCallOr :
    cellOf ⟨.biu, .b1, 7⟩ (exec (.detCallOr 7 [false, true]) idle) = some 1
    ∧ cellOf ⟨.biu, .b1, 7⟩ (exec (.detCallOr 7 []) { idleWith [(⟨.biu, .b1, 7⟩, 1)] with cfg := { instanceCfg with detWire := [] } }) = some 0
    ∧ cellOf ⟨.biu, .b1, 64⟩ (exec (.detCallOr 64 [true]) idle) = some 1
    ∧ replyOf (exec (.detCallOr 7 [true]) idle) = some .ok
    ∧ refusalOf (exec (.detCallOr 65 [true]) idle) = some .badOperand
    ∧ refusalOf (exec (.detCallOr 0 [true]) idle) = some .badOperand
    ∧ refusalOf (exec (.lsIndication 17) idle) = some .badOperand
    ∧ refusalOf (exec (.lsIndication 0) idle) = some .badOperand := by decide +kernel

/-- DS10-DS12, DS14, EX4. -/
theorem test_csrWrite :
    replyOf (exec (.csrWrite 0 1) { idle with ready := false }) = some .notReady
    ∧ (match exec (.csrWrite 0 1) idle with | .next t => t.en && decide (t.loop = .reading) | _ => false) = true
    ∧ exec (.csrWrite 0 1) reading = .next (reading.reply .ok)
    ∧ (match exec (.csrWrite 0 0xFE) reading with | .next t => t.en | _ => true) = false := by
  refine ⟨by decide +kernel, by decide +kernel, rfl, by decide +kernel⟩

/-- DS13: FCODE 4; and a write of STATUS is refused. -/
theorem test_csrWrite_stops :
    faultOf (exec (.csrWrite 0 1) { reading with en := false }) = some .restartRace
    ∧ faultCode .restartRace = 4
    ∧ refusalOf (exec (.csrWrite 1 1) idle) = some .badRegister := by decide +kernel

/-- DS16, DS17. -/
theorem test_csrRead :
    replyOf (step { idle with turns := [.host 0 [0x31, 0x01] [] []] }) = some (.register 0x01)
    ∧ replyOf (exec (.csrRead 0) reading) = some (.register 0x01)
    ∧ refusalOf (exec (.csrRead 2) idle) = some .badRegister := by decide +kernel

/-! ### Initialisation and the loop -/

/-- Before initialisation, with a configuration. -/
def booting (c : Cfg) : State := State.resetWith { testParams with defaultCompat := 1#120 <<< 14 } c

/-- The READY flag after an outcome. -/
def readyOf : Result → Option Bool
  | .next t => some t.ready
  | _ => none

/-- RS1-RS5. -/
theorem test_init :
    cellOf (compatId 1 5) (step (booting { instanceCfg with compat := some w1String })) = some 1
    ∧ cellOf (compatId 1 16) (step (booting { instanceCfg with compat := some (w1String.take 29) })) = some 1
    ∧ cellOf (compatId 1 16) (step (booting instanceCfg)) = some 1
    ∧ readyOf (step (booting instanceCfg)) = some true
    ∧ readyOf (step (booting { instanceCfg with transportOpens := false })) = some false
    ∧ cellOf (compatId 1 16) (step (booting { instanceCfg with transportOpens := false })) = some 1
    ∧ readyOf (step (booting { instanceCfg with wiringOk := false })) = some false
    ∧ cellOf (compatId 1 16) (step (booting { instanceCfg with wiringOk := false })) = some 0 := by decide +kernel

/-- R26, R192, R223: a definition that fails a check, and an adapter binding outside the catalogue, build no block. -/
theorem test_init_refuses :
    refusalOf (step (State.resetWith (withFrame ⟨0x10, 3, 4, .cmdRcvdBySecondary, []⟩) instanceCfg)) = some (.badElement .len)
    ∧ refusalOf (step (State.resetWith { testParams with detCallDom := .ioi } instanceCfg)) = some .badId := by decide +kernel

/-- P3 step 5: after EN = 0 a frame is still answered in an iteration that checked at H, and dropped in one that checks at A. -/
theorem test_shutdown_race :
    txOf 4 (step { reading with en := false, mem := pair12, turns := [.rx [0x10, 0x83, 0x03] []] }) = some [0x10, 0x83, 0x83, 0x01]
    ∧ (match step { reading with en := false, checkAtA := true, mem := pair12, turns := [.rx [0x10, 0x83, 0x03] []] } with
        | .next t => decide (t.loop = .stopped) && decide (t.tx = reading.tx) && decide (t.sent = [])
        | _ => false) = true := by decide +kernel

/-- DS18: both continuations. -/
theorem test_transport_error :
    (match step { reading with turns := [.rxError 5 false] } with
      | .next t => decide (t.events = [.transportError .read 5]) && decide (t.loop = .reading) && t.atHead && t.en
      | _ => false) = true
    ∧ (match step { reading with turns := [.rxError 5 true] } with
      | .next t => decide (t.events = [.transportError .read 5]) && decide (t.loop = .stopped) && t.en
      | _ => false) = true := by decide +kernel

/-- R40, R220: reset, and no step after a fault (R194). -/
theorem test_reset_and_fault :
    State.reset.getVar (compatId 1 2) = 0 ∧ State.reset.statusReg = 0 ∧ State.reset.ctrlReg = 0 ∧ State.reset.tx = List.replicate 23 0
    ∧ (match step { idle with fault := some .restartRace } with | .fault f => decide (f = .restartRace) | _ => false) = true := by
  decide +kernel

/-! ## Witnesses: states and operands that meet the hypotheses of the statements

Each is for the statement it is named after; where a statement has several clauses, each clause has its values, at the ends of its
ranges. -/

theorem witness_DecodeOfEncodeIsTheInstruction :
    ([.cmdT0 0 0 [], .rspT155 0xFF 0xFF [0xFF], .unmatchedType 0 0 2 [], .unmatchedType 0 0 255 [], .runtFrame [], .runtFrame [0, 0],
      .bitDecode .b ⟨.bc, .b1, 65535⟩ 24, .bitEncode .tx ⟨.cu, .b1, 0⟩ 24, .byteDecode .rx ⟨.ioi, .u8, 1⟩ 3, .byteEncode .b ⟨.ioi, .u8, 1⟩ 3,
      .wordDecode .rx ⟨.ioi, .u16, 1⟩ 3, .wordEncode .tx ⟨.ioi, .u16, 1⟩ 3, .get ⟨.bc, .u16, 65535⟩, .set ⟨.cu, .b1, 0⟩ 0xFFFF,
      .frameDecode 255 [], .dispatch [0], .compatSetHex (List.replicate 255 0), .detCallOr 255 (List.replicate 255 true)].all Instr.wf)
      = true := by decide +kernel

theorem witness_EncodeOfDecodeIsTheEncoding :
    decode (.host [0x21, 0xFF, 0x01, 0x01]) = .ok (.detCallOr 255 [true])
    ∧ decode (.line [0xFF, 0xFF, 0xFF]) = .ok (.unmatchedType 0xFF 0xFF 0xFF []) := by decide

/-- Host agent 0 is about to issue COMPAT_ZERO. -/
def hostTurn : State := { idle with turns := [.host 0 [0x13] [0xAA] []] }

theorem witness_StepRunsTheHostOperation :
    hostTurn.fault = none ∧ hostTurn.boot ≠ .pending ∧ hostTurn.turns = .host 0 [0x13] [0xAA] [] :: [] ∧ hostTurn.busy (.host 0) = false
    ∧ decode (.host [0x13]) = .ok .compatZero := by decide +kernel

theorem witness_StepRunsTheDeliveredFrame :
    let s := { reading with turns := [.rx [0x10, 0x83, 0x03] []] }
    s.fault = none ∧ s.boot ≠ .pending ∧ s.turns = .rx [0x10, 0x83, 0x03] [] :: []
    ∧ decode (.line [0x10, 0x83, 0x03]) = .ok (.cmdT3 0x10 0x83 []) := by decide +kernel

/-- An operation of host agent 1 in progress, with these steps to do. -/
def inProgress (todo : List Micro) : OpenOp := ⟨.host 1, todo, .replyOk, [0, 0, 0, 0x81], 0⟩

/-- It is the next to move. -/
def advancing (todo : List Micro) : State := { idle with opens := [inProgress todo], turns := [.advance (.host 1) 0 []] }

/-- The state in which its step runs. -/
def ownState (todo : List Micro) : State :=
  ({ advancing todo with turns := [] } : State).stepping (inProgress todo) (.host 1) []

theorem witness_StepRunsTheElementOfAnOperation :
    (∀ todo, (advancing todo).opens.find? (fun x => decide (x.agent = .host 1)) = some (inProgress todo))
    ∧ decode (.decElem .b 0 ⟨.ioi, .b1, 1⟩ 24) = .ok (.bitDecode .b ⟨.ioi, .b1, 1⟩ 24)
    ∧ (∃ t, exec (.bitDecode .b ⟨.ioi, .b1, 1⟩ 24) (ownState [.dec .b ⟨.bit, ⟨.ioi, .b1, 1⟩, 24⟩]) = .next t)
    ∧ decode (.encElem .b 1 ⟨.ioi, .u8, 1⟩ 3) = .ok (.byteEncode .b ⟨.ioi, .u8, 1⟩ 3)
    ∧ (∃ t, exec (.byteEncode .b ⟨.ioi, .u8, 1⟩ 3) (ownState [.enc .b ⟨.byte, ⟨.ioi, .u8, 1⟩, 3⟩]) = .next t)
    ∧ (advancing []).fault = none ∧ (advancing []).boot ≠ .pending :=
  ⟨fun _ => by simp [advancing, inProgress], rfl, ⟨_, rfl⟩, rfl, ⟨_, rfl⟩, rfl, by decide +kernel⟩

theorem witness_FaultLatchKeepsTheFirstFault :
    idle.fault = none ∧ { idle with fault := some (.runtFrame 0) }.fault = some (.runtFrame 0) := by decide +kernel

theorem witness_InitAppliesTheConfiguration :
    (booting instanceCfg).fault = none ∧ (booting instanceCfg).boot = .pending ∧ paramsWf (booting instanceCfg).params = true
    ∧ bindingsHeld (booting instanceCfg).params = true
    ∧ (booting instanceCfg).mem.wf = true ∧ (booting instanceCfg).cfg.wiringOk = true ∧ (booting instanceCfg).cfg.compat = none
    ∧ hexBitset (w1String.take 29) = none ∧ (hexBitset w1String).isSome = true
    ∧ (compatPairs.head? = some (1, 2) ∧ compatPairs.getLast? = some (15, 16)) := by decide +kernel

theorem witness_InitRefusesOrAborts :
    failedCheck (State.resetWith { testParams with extraPairs := [(0x70, 0xF1)] } instanceCfg).params = some .pair
    ∧ (State.resetWith testParams instanceCfg).boot = .pending ∧ (State.resetWith testParams instanceCfg).fault = none
    ∧ paramsWf testParams = true ∧ bindingsHeld testParams = true
    ∧ paramsWf { testParams with detCallDom := .ioi } = true ∧ bindingsHeld { testParams with detCallDom := .ioi } = false
    ∧ (booting { instanceCfg with wiringOk := false }).cfg.wiringOk = false := by decide +kernel

theorem witness_GetReturnsTheCell :
    inCatalog idle.params ⟨.cu, .b1, 0⟩ = true ∧ inCatalog idle.params ⟨.cu, .b1, 16⟩ = true
    ∧ (idleWith [(⟨.cu, .b1, 16⟩, 1)]).mem.typed = true ∧ idle.depth ⟨.cu, .b1, 16⟩ = 0 ∧ idle.past = [] := by decide +kernel

theorem witness_SetWritesTheCell :
    idle.mem.wf = true ∧ idle.depth ⟨.ioi, .b1, 3⟩ = 0 ∧ inCatalog idle.params ⟨.ioi, .b1, 3⟩ = true ∧ (1 : Half).toNat < 2 ^ typeWidth .b1
    ∧ inCatalog idle.params ⟨.ioi, .u16, 1⟩ = true ∧ (0xFFFF : Half).toNat < 2 ^ typeWidth .u16
    ∧ inCatalog idle.params ⟨.ioi, .u8, 1⟩ = true ∧ (0xFF : Half).toNat < 2 ^ typeWidth .u8 := by decide +kernel

theorem witness_IllegalOperandsAreRefused :
    inCatalog idle.params ⟨.cu, .b1, 17⟩ = false ∧ inCatalog idle.params ⟨.ioi, .u8, 1⟩ = true ∧ 2 ^ typeWidth .u8 ≤ (0x100 : Half).toNat
    ∧ (0 : Byte).toNat = 0 ∧ 16 < (17 : Byte).toNat ∧ 64 < (65 : Byte).toNat
    ∧ (let p := { testParams with catalog := testParams.catalog.eraseIdx 15, lsGreenDom := .bc, lsRedDom := .cu }
       inCatalog p (lsGreenId p 16) = true ∧ inCatalog p (lsRedId p 16) = false)
    ∧ (let p := { testParams with detCallDom := .ioi }
       inCatalog p (detCallId p 1) = true ∧ inCatalog p (detCallId p 64) = false)
    ∧ inCatalog idle.params (detCallId idle.params 7) = true
    ∧ ([true] : List Bool).length ≠ (idle.cfg.detWire.getD ((7 : Byte).toNat - 1) []).length := by decide +kernel

/-- The ends of the ranges: pairs that are none (R25). -/
theorem witness_NoCellForAPairThatIsNone :
    (1 ≤ 1 ∧ 1 < 256 ∧ 1 ≤ 1) ∧ (1 ≤ 2 ∧ 0 < 256 ∧ 0 ≤ 2) ∧ (1 ≤ 1 ∧ 255 < 256 ∧ 16 < 255) ∧ (1 ≤ 1 ∧ 17 < 256 ∧ 16 < 17) := by decide

/-- A buffer of four bytes in RX, TX and B. -/
def fourBytes : State := elementState [] [0, 0, 0, 0xFE]

/-- A buffer of five bytes in RX, TX and B. -/
def fiveBytes : State := elementState [] [0, 0, 0, 0xFE, 0x01]

theorem witness_ElementDecodesWriteTheirCell :
    fourBytes.mem.wf = true ∧ fourBytes.depth ⟨.ioi, .b1, 1⟩ = 0 ∧ fiveBytes.depth ⟨.ioi, .u16, 1⟩ = 0 ∧ inCatalog fourBytes.params ⟨.ioi, .b1, 1⟩ = true ∧ inCatalog fourBytes.params ⟨.ioi, .u8, 1⟩ = true
    ∧ inCatalog fiveBytes.params ⟨.ioi, .u16, 1⟩ = true
    ∧ 24 < 8 * (fourBytes.decBuf .rx).length ∧ 31 < 8 * (fourBytes.decBuf .b).length ∧ 3 < (fourBytes.decBuf .rx).length
    ∧ 3 + 1 < (fiveBytes.decBuf .b).length := by decide +kernel

theorem witness_ElementEncodesWriteTheirBytes :
    24 < 8 * (fourBytes.encBuf .tx).length ∧ 31 < 8 * (fourBytes.encBuf .b).length ∧ 3 < (fourBytes.encBuf .tx).length
    ∧ 3 + 1 < (fiveBytes.encBuf .b).length ∧ inCatalog fiveBytes.params ⟨.ioi, .u16, 1⟩ = true
    ∧ fiveBytes.depth ⟨.ioi, .u16, 1⟩ = 0 ∧ fourBytes.depth ⟨.ioi, .b1, 1⟩ = 0 := by decide +kernel

theorem witness_IllFormedElementsAreRefused :
    VarType.u8 ≠ .b1 ∧ VarType.b1 ≠ .u8 ∧ VarType.b1 ≠ .u16
    ∧ inCatalog fourBytes.params ⟨.ioi, .b1, 4⟩ = false ∧ inCatalog fourBytes.params ⟨.ioi, .u8, 2⟩ = false
    ∧ inCatalog fourBytes.params ⟨.ioi, .u16, 0⟩ = false ∧ inCatalog fourBytes.params ⟨.ioi, .b1, 1⟩ = true
    ∧ inCatalog fourBytes.params ⟨.ioi, .u8, 1⟩ = true ∧ inCatalog fourBytes.params ⟨.ioi, .u16, 1⟩ = true
    ∧ 23 < 24 ∧ 8 * (fourBytes.decBuf .rx).length ≤ 32 ∧ 8 * (fourBytes.encBuf .tx).length ≤ 32
    ∧ 2 < 3 ∧ (fourBytes.decBuf .b).length ≤ 4 ∧ (fourBytes.encBuf .b).length ≤ 4
    ∧ (fourBytes.decBuf .rx).length ≤ 3 + 1 ∧ (fourBytes.encBuf .tx).length ≤ 3 + 1 := by decide +kernel

theorem witness_FrameDecodeLeavesTheLastElements :
    idle.mem.wf = true ∧ frameOf idle.params 0x70 = some xCmd ∧ isReceived xCmd.dir = true
    ∧ xCmd.len ≤ (List.replicate 8 (0 : Byte)).length ∧ lastNaming xCmd.elems ⟨.ioi, .b1, 3⟩ = some ⟨.bit, ⟨.ioi, .b1, 3⟩, 57⟩
    ∧ lastNaming xCmd.elems (compatId 1 2) = none := by decide +kernel

theorem witness_FrameDecodeOfShortFramesFaults :
    frameOf idle.params 0x70 = some xCmd ∧ isReceived xCmd.dir = true ∧ idle.fault = none
    ∧ ([0, 0] : List Byte).length < 3 ∧ 3 ≤ ([0, 0, 0] : List Byte).length ∧ (List.replicate 7 (0 : Byte)).length < xCmd.len := by
  decide +kernel

theorem witness_DirectionsAreRestricted :
    frameOf idle.params 0xF0 = some xRsp ∧ xRsp.dir = .rspGenBySecondary ∧ frameOf idle.params 0x70 = some xCmd
    ∧ xCmd.dir = .cmdRcvdBySecondary ∧ paramsWf idle.params = true ∧ pairOf idle.params 0x70 = some (xCmd, xRsp)
    ∧ (frameOf (withFrame ⟨0, 0x60, 3, .cmdGenByPrimary, []⟩) 0x60).map (·.dir) = some .cmdGenByPrimary
    ∧ (frameOf (withFrame ⟨0, 0x60, 3, .rspRcvdByPrimary, []⟩) 0x60).map (·.dir) = some .rspRcvdByPrimary := by decide +kernel

theorem witness_FrameEncodeBuildsTheFrame :
    let s := { idle with b := List.replicate 8 0xFF }
    paramsWf s.params = true ∧ frameOf s.params 0xF0 = some xRsp ∧ isGenerated xRsp.dir = true ∧ s.b.length = xRsp.len
    ∧ (∀ e ∈ xRsp.elems, elementCovers e 24 = true → e.kind = .bit)
    ∧ (∀ e ∈ xRsp.elems, elementCovers e 63 = true → e.kind = .bit) := by decide +kernel

/-- FD9: a byte element, and a later bit element of the same byte; the clause's bounds 24 and 39. -/
theorem witness_FrameEncodeBuildsTheFrame_assigned :
    yRsp.elems = [⟨.bit, ⟨.ioi, .b1, 1⟩, 33⟩] ++ [⟨.byte, ⟨.ioi, .u8, 1⟩, 4⟩] ++ [⟨.bit, ⟨.ioi, .b1, 2⟩, 32⟩]
    ∧ frameOf idle.params 0xF1 = some yRsp ∧ isGenerated yRsp.dir = true ∧ 24 ≤ 39 ∧ 39 < 8 * yRsp.len
    ∧ elementCovers ⟨.byte, ⟨.ioi, .u8, 1⟩, 4⟩ 39 = true ∧ elementCovers ⟨.byte, ⟨.ioi, .u8, 1⟩, 4⟩ 32 = true
    ∧ (∀ e ∈ ([⟨.bit, ⟨.ioi, .b1, 2⟩, 32⟩] : List Element), elementCovers e 32 = true → e.kind = .bit)
    ∧ (∀ e ∈ ([⟨.bit, ⟨.ioi, .b1, 2⟩, 32⟩] : List Element), elementCovers e 39 = true → e.kind = .bit) := by decide +kernel

theorem witness_FrameEncodeNeedsItsLength :
    frameOf idle.params 0xF0 = some xRsp ∧ isGenerated xRsp.dir = true ∧ { idle with b := List.replicate 7 0 }.b.length ≠ xRsp.len := by
  decide +kernel

/-- EC15-EC17: two bits of one cell, among others: a command with these elements, and a response. -/
def pairElems : List Element :=
  [⟨.bit, ⟨.ioi, .b1, 1⟩, 24⟩] ++ [⟨.bit, ⟨.ioi, .b1, 3⟩, 56⟩] ++ [⟨.byte, ⟨.ioi, .u8, 1⟩, 4⟩] ++ [⟨.bit, ⟨.ioi, .b1, 3⟩, 57⟩]
    ++ [⟨.word, ⟨.ioi, .u16, 1⟩, 5⟩]

/-- The command. -/
def pairCmd : FrameDef := ⟨0x10, 0x70, 8, .cmdRcvdBySecondary, pairElems⟩
/-- The response. -/
def pairRsp : FrameDef := ⟨0x10, 0xF0, 8, .rspGenBySecondary, pairElems⟩
/-- The state with those two definitions. -/
def pairState : State := { idle with params := { testParams with frames := instanceFrames ++ [pairCmd, pairRsp] }, b := List.replicate 8 0xFF }

theorem pairState_plain : pairState.plain := plain_of_past rfl

theorem witness_DimmingPairTakesTheLastBit :
    let others : List Element := [⟨.bit, ⟨.ioi, .b1, 1⟩, 24⟩] ++ [⟨.byte, ⟨.ioi, .u8, 1⟩, 4⟩] ++ [⟨.word, ⟨.ioi, .u16, 1⟩, 5⟩]
    paramsWf pairState.params = true ∧ pairState.mem.wf = true ∧ frameOf pairState.params 0x70 = some pairCmd
    ∧ frameOf pairState.params 0xF0 = some pairRsp ∧ (∀ e ∈ others, e.id ≠ ⟨.ioi, .b1, 3⟩)
    ∧ isReceived pairCmd.dir = true ∧ pairCmd.len ≤ (List.replicate 8 (0 : Byte)).length
    ∧ isGenerated pairRsp.dir = true ∧ pairState.b.length = pairRsp.len
    ∧ (∀ e ∈ others, elementCovers e 56 = false ∧ elementCovers e 57 = false) := by decide +kernel

/-- EC17 at the operations: 01 decodes to On, and the encode of On gives 11. -/
theorem test_dimming_pair :
    cellOf ⟨.ioi, .b1, 3⟩ (exec (.frameDecode 0x70 [0, 0, 0, 0, 0, 0, 0, 0x02]) pairState) = some 1
    ∧ cellOf ⟨.ioi, .b1, 3⟩ (exec (.frameDecode 0x70 [0, 0, 0, 0, 0, 0, 0, 0x01]) pairState) = some 0
    ∧ replyOf (exec (.frameEncode 0xF0) { pairState with mem := [(⟨.ioi, .b1, 3⟩, 1)] })
        = some (.frame [0x10, 0x83, 0xF0, 0, 0, 0, 0, 0x03]) := by decide +kernel

/-- Elements that meet the conditions of R138. -/
def plainElems : List Element :=
  [⟨.bit, ⟨.ioi, .b1, 1⟩, 24⟩, ⟨.bit, ⟨.ioi, .b1, 2⟩, 31⟩, ⟨.byte, ⟨.ioi, .u8, 1⟩, 4⟩, ⟨.word, ⟨.ioi, .u16, 1⟩, 5⟩]

/-- A command and a response with those elements. -/
def plainCmd : FrameDef := ⟨0x10, 0x70, 8, .cmdRcvdBySecondary, plainElems⟩
/-- The response. -/
def plainRsp : FrameDef := ⟨0x10, 0xF0, 8, .rspGenBySecondary, plainElems⟩

/-- The state with those two definitions. -/
def plainState : State := { idle with params := { testParams with frames := instanceFrames ++ [plainCmd, plainRsp] } }

theorem plainState_plain : plainState.plain := plain_of_past rfl

theorem witness_FrameRoundTrip :
    paramsWf plainState.params = true ∧ plainState.mem.wf = true ∧ frameOf plainState.params 0x70 = some plainCmd
    ∧ isReceived plainCmd.dir = true ∧ frameOf plainState.params 0xF0 = some plainRsp ∧ isGenerated plainRsp.dir = true
    ∧ plainCmd.len = plainRsp.len ∧ plainCmd.elems = plainRsp.elems
    ∧ (List.replicate 8 (0 : Byte)).length = plainCmd.len := by decide +kernel

theorem witness_FrameRoundTrip_elements :
    plainCmd.elems.Pairwise (fun e e' => e.id ≠ e'.id ∧ ∀ p, ¬ (elementCovers e p = true ∧ elementCovers e' p = true)) := by
  simp only [plainCmd, plainElems, List.pairwise_cons, List.mem_cons, List.not_mem_nil, or_false, forall_eq_or_imp, forall_eq,
    elementCovers, decide_eq_true_eq, Bool.or_eq_true, IsEmpty.forall_iff, implies_true, List.Pairwise.nil, and_true]
  refine ⟨⟨⟨by decide, ?_⟩, ⟨by decide, ?_⟩, ⟨by decide, ?_⟩⟩, ⟨⟨by decide, ?_⟩, ⟨by decide, ?_⟩⟩, ⟨by decide, ?_⟩⟩ <;> omega

theorem witness_HostDispatchAnswersAMatch :
    paramsWf idle.params = true ∧ idle.mem.wf = true ∧ idle.tx.length = respBufLen idle.params ∧ idle.en = false ∧ idle.loop = .stopped
    ∧ idle.dispatchOpen = false ∧ pairOf idle.params (byteAt [0x10, 0x83, 0x70, 0, 0, 0, 0, 0] 2) = some (xCmd, xRsp)
    ∧ xCmd.len ≤ ([0x10, 0x83, 0x70, 0, 0, 0, 0, 0] : List Byte).length := by decide +kernel

theorem witness_HostDispatchReportsNoMatch :
    idle.en = false ∧ idle.loop = .stopped ∧ idle.dispatchOpen = false ∧ pairOf idle.params (byteAt [0x10, 0x83, 0x07] 2) = none := by
  decide +kernel

theorem witness_HostDispatchFaultsInOrder :
    reading.fault = none ∧ reading.en = true ∧ { reading with en := false }.loop ≠ .stopped ∧ idle.fault = none ∧ idle.en = false
    ∧ idle.loop = .stopped ∧ idle.dispatchOpen = false ∧ ([0x10, 0x83] : List Byte).length < 3
    ∧ pairOf idle.params (byteAt [0x10, 0x83, 0x70, 0, 0, 0, 0] 2) = some (xCmd, xRsp)
    ∧ ([0x10, 0x83, 0x70, 0, 0, 0, 0] : List Byte).length < xCmd.len := by decide +kernel

/-- Every paired command type, with a payload of its definition's length. -/
theorem witness_LineCommandIsDispatched :
    paramsWf reading.params = true ∧ reading.mem.wf = true ∧ reading.tx.length = respBufLen reading.params ∧ reading.serves = true
    ∧ pairOf reading.params 0x70 = some (xCmd, xRsp) ∧ xCmd.len ≤ (List.replicate 5 (0 : Byte)).length + 3
    ∧ ([1, 3, 10, 11, 12, 13, 20, 21, 22, 23, 24, 25, 26, 27].all fun t =>
        match pairOf reading.params t with
        | some (c, _) => decide (c.len ≤ ([] : List Byte).length + 3)
        | none => false) = true := by decide +kernel

/-- Types 0 and 9 may be paired too (R30). -/
theorem witness_LineCommandIsDispatched_extra :
    let p := { testParams with
      frames := testParams.frames ++ [⟨0x10, 128, 3, .rspGenBySecondary, []⟩, ⟨0x10, 137, 3, .rspGenBySecondary, []⟩]
      extraPairs := [(0, 128), (9, 137)] }
    paramsWf p = true ∧ (pairOf p 0).isSome = true ∧ (pairOf p 9).isSome = true := by decide +kernel

theorem witness_LineFrameWithoutAPairIsNoMatch :
    reading.serves = true ∧ pairOf reading.params 0 = none ∧ pairOf reading.params 9 = none ∧ pairOf reading.params 0x07 = none
    ∧ paramsWf reading.params = true := by decide +kernel

theorem witness_LineResponseTypeIsNoMatch :
    (Instr.rspT129 0 0 [], (129 : Byte)) ∈ responseForms 0 0 [] ∧ paramsWf reading.params = true ∧ reading.serves = true := by
  decide +kernel

theorem witness_LineShortFramesFault :
    reading.serves = true ∧ reading.fault = none ∧ ([0, 0] : List Byte).length < 3
    ∧ pairOf reading.params 0x70 = some (xCmd, xRsp) ∧ (List.replicate 4 (0 : Byte)).length + 3 < xCmd.len := by decide +kernel

theorem witness_UnservedFramesChangeNoCell :
    idle.listening = false
    ∧ (let s := { reading with en := false, checkAtA := true }
       s.listening = true ∧ s.checkAtA = true ∧ s.en = false) := by decide +kernel

/-- The line agent at the head of an iteration. -/
def atTheHead (en : Bool) (ts : List Turn) : State := { reading with en := en, atHead := true, turns := ts }

theorem witness_HeadOfIterationTestsEnableOnce :
    (∀ c, (atTheHead false [.lineHead c]).turns = .lineHead c :: [])
    ∧ (atTheHead false []).fault = none ∧ (atTheHead false []).boot ≠ .pending ∧ (atTheHead false []).loop ≠ .stopped
    ∧ (atTheHead false []).atHead = true ∧ (atTheHead false []).en = false ∧ (atTheHead true []).en = true :=
  ⟨fun _ => rfl, by decide +kernel⟩

theorem witness_TxWriteSendsTheResponse :
    let s := { reading with loop := .writing, turns := [.txDone] }
    s.fault = none ∧ s.boot ≠ .pending ∧ s.turns = .txDone :: [] ∧ s.loop = .writing ∧ s.atHead = false := by decide +kernel

theorem witness_TransportErrorsAdmitBothContinuations :
    reading.fault = none ∧ reading.boot ≠ .pending ∧ (1 : Nat) ≠ 0 ∧ reading.loop = .reading ∧ reading.atHead = false
    ∧ { reading with turns := [.rxError 1 false] }.turns = .rxError 1 false :: []
    ∧ { reading with turns := [.rxError 1 true] }.turns = .rxError 1 true :: []
    ∧ { reading with loop := .writing, turns := [.txError 1 false] }.loop = .writing
    ∧ { reading with loop := .writing, turns := [.txError 1 true] }.turns = .txError 1 true :: [] := by decide +kernel

theorem witness_CompatOffsetsAreABijection :
    compatOff 1 2 = 0 ∧ compatOff 1 16 = 14 ∧ compatOff 2 3 = 15 ∧ compatOff 15 16 = 119 := by decide

theorem witness_CompatSetBitsetWritesTheMatrix :
    idle.mem.wf = true ∧ (idleWith pair12).mem.wf = true ∧ (∀ q ∈ compatPairs, compatId q.1 q.2 ≠ ⟨.ioi, .b1, 1⟩) := by decide +kernel

theorem witness_CompatZeroAndDefaultWriteTheMatrix :
    (idleWith pair12).mem.wf = true
    ∧ ((Instr.compatZero = .compatZero ∧ (0 : Bitset) = 0) ∨ (Instr.compatZero = .compatDefault ∧ (0 : Bitset) = idle.params.defaultCompat))
    ∧ ((Instr.compatDefault = .compatZero ∧ idle.params.defaultCompat = 0)
        ∨ (Instr.compatDefault = .compatDefault ∧ idle.params.defaultCompat = idle.params.defaultCompat)) := by decide +kernel

theorem witness_CompatSetHexExpandsTheString :
    idle.mem.wf = true ∧ w1String.length = 30
    ∧ w1String.map hexDigit =
      ([0, 0, 0, 0, 1, 0, 2, 0, 10, 0, 2, 0, 2, 8, 0, 2, 0, 2, 11, 0, 2, 3, 0, 0, 10, 6, 0, 2, 1, 8] : List Nat).map some
    ∧ compatOff 15 16 = 119 - (4 * 0 + 0) ∧ compatOff 1 2 = 119 - (4 * 29 + 3) := by decide +kernel

theorem witness_CompatSetHexRejectsWithoutWriting :
    (w1String.take 29).length ≠ 30 ∧ (w1String.set 29 0x47).length = 30 ∧ (0x47 : Byte) ∈ w1String.set 29 0x47 ∧ hexDigit 0x47 = none := by
  decide +kernel

/-- The second string is CP10's. -/
theorem witness_CompatRoundTrip :
    (∃ t, exec (.compatSetBitset 0x800000000000000000000000000001) idle = .next t)
    ∧ (∃ t, exec (.compatSetHex w1String) idle = .next t)
    ∧ (∀ c ∈ w1String, (hexDigit c).isSome = true) ∧ ((w1String.set 8 0x61).set 18 0x62).length = 30
    ∧ byteAt ((w1String.set 8 0x61).set 18 0x62) 8 = byteAt w1String 8 + 32 ∧ byteAt w1String 8 = 0x41 := by
  refine ⟨⟨_, rfl⟩, ?_, by decide +kernel⟩
  have h : hexBitset w1String = some 0x00001020A020280202B02300A60218 := by decide +kernel
  exact ⟨_, by simp only [exec, execCompatSetHex, startCompatHex, h]; rfl⟩

theorem witness_LsIndicationIsTheDriversTable :
    1 ≤ (1 : Byte).toNat ∧ (1 : Byte).toNat ≤ 16 ∧ 1 ≤ (16 : Byte).toNat ∧ (16 : Byte).toNat ≤ 16
    ∧ ([1, 16].all fun c => inCatalog idle.params (lsGreenId idle.params c) && inCatalog idle.params (lsYellowId idle.params c)
        && inCatalog idle.params (lsRedId idle.params c)) = true
    ∧ ((idleWith [(⟨.cu, .b1, 16⟩, 1)]).getBit (lsGreenId idle.params 16) = true
      ∧ (idleWith [(⟨.cu, .b1, 16⟩, 1)]).getBit (lsRedId idle.params 16) = false) := by decide +kernel

theorem witness_DetCallIsTheOrOfTheResults :
    idle.mem.wf = true ∧ 1 ≤ (1 : Byte).toNat ∧ (64 : Byte).toNat ≤ 64 ∧ true ∈ [false, true] ∧ true ∉ ([] : List Bool)
    ∧ idle.depth (detCallId idle.params 7) = 0 ∧ ([1, 7, 64].all fun d => inCatalog idle.params (detCallId idle.params d)) = true
    ∧ ([false, true] : List Bool).length = (idle.cfg.detWire.getD ((7 : Byte).toNat - 1) []).length
    ∧ ([] : List Bool).length = (idle.cfg.detWire.getD ((1 : Byte).toNat - 1) []).length
    ∧ ([true] : List Bool).length = (idle.cfg.detWire.getD ((64 : Byte).toNat - 1) []).length
    ∧ ([true] : List Bool).length ≠ (idle.cfg.detWire.getD ((1 : Byte).toNat - 1) []).length
    ∧ ([] : List Bool).length ≠ (idle.cfg.detWire.getD ((64 : Byte).toNat - 1) []).length := by decide +kernel

theorem witness_CsrWriteStartsAndStopsTheLoop :
    (1 : Byte).getLsbD 0 = true ∧ idle.ready = true ∧ idle.en = false ∧ idle.loop = .stopped ∧ (0xFE : Byte).getLsbD 0 = false
    ∧ { idle with ready := false }.ready = false ∧ reading.ready = true ∧ reading.en = true
    ∧ (let s := { reading with en := false }
       s.ready = true ∧ s.en = false ∧ s.loop ≠ .stopped ∧ s.fault = none)
    ∧ (1 : Byte) ≠ 0 := by decide +kernel

theorem witness_CsrReadReturnsTheRegister : (2 : Byte) ≠ 0 ∧ (2 : Byte) ≠ 1 ∧ idle.fcode = 0 := by decide +kernel

theorem witness_ResetStateIsLegal : paramsAdmissible instanceParams = true ∧ paramsAdmissible testParams = true :=
  ⟨test_instance_admissible, test_params_admissible⟩

theorem idle_legal : idle.legal = true := by decide +kernel
/-- Whether a state is legal does not depend on the loop's position, nor on what happens next. -/
theorem reading_legal : reading.legal = true := idle_legal

/-- A step of a legal state with a legal control: the line agent takes a frame. -/
theorem witness_StepKeepsTheStateLegal :
    (∃ t, step { reading with turns := [.rx [0x10, 0x83, 0x03] []] } = .next t)
    ∧ { reading with turns := [.rx [0x10, 0x83, 0x03] []] }.legal = true
    ∧ { reading with turns := [.rx [0x10, 0x83, 0x03] []] }.controlLegal = true :=
  ⟨⟨_, rfl⟩, reading_legal, by decide +kernel⟩

theorem witness_SteppedOperationAloneIsTheOperation :
    idle.legal = true ∧ idle.fault = none ∧ idle.boot ≠ .pending ∧ idle.opens = [] ∧ idle.turns = []
    ∧ decode (.host [0x04, 0xF0]) = .ok (.frameEncode 0xF0)
    ∧ (∃ t, exec (.frameEncode 0xF0) { idle with who := .host 0, b := List.replicate 8 0, picks := [] } = .next t) :=
  ⟨idle_legal, by decide +kernel, by decide +kernel, rfl, rfl, rfl, ⟨_, rfl⟩⟩

theorem witness_SteppedOperationAloneIsTheOperation_line :
    reading.legal = true ∧ reading.fault = none ∧ reading.boot ≠ .pending ∧ reading.opens = [] ∧ reading.turns = []
    ∧ decode (.line [0x10, 0x83, 0x03]) = .ok (.cmdT3 0x10 0x83 [])
    ∧ (∃ t, exec (.cmdT3 0x10 0x83 []) { reading with who := .line, picks := [] } = .next t) :=
  ⟨reading_legal, by decide +kernel, by decide +kernel, rfl, rfl, rfl, ⟨_, rfl⟩⟩

theorem witness_OverlappedCellIsOldOrNew :
    let todo : List Micro := [.dec .b ⟨.bit, ⟨.ioi, .b1, 1⟩, 24⟩, .store ⟨.ioi, .b1, 2⟩ 1]
    (advancing todo).mem.wf = true
    ∧ (advancing todo).opens.find? (fun x => decide (x.agent = .host 1)) = some (inProgress todo)
    ∧ cellOf ⟨.ioi, .b1, 1⟩ (advanceOp (.host 1) 0 [] (advancing todo)) = some 1 := by decide +kernel

theorem witness_EveryMixOfOldAndNewIsReachable :
    idle.mem.wf = true ∧ idle.fault = none ∧ idle.boot ≠ .pending ∧ idle.opens = [] ∧ idle.past = [] ∧ idle.turns = [] ∧ 0 ≠ 1 := by
  decide +kernel

/-! ### Overlapping operations (R64-R67) -/

/-- An encode of host agent 1 with two bits of one cell, and a byte between them (EC17, `X_RSP`). -/
def encoding : List Micro :=
  [.enc .b ⟨.bit, ⟨.ioi, .b1, 3⟩, 30⟩, .enc .b ⟨.byte, ⟨.ioi, .u8, 1⟩, 3⟩, .enc .b ⟨.bit, ⟨.ioi, .b1, 3⟩, 31⟩]

/-- In turn, and ahead of its turn. -/
theorem witness_EncodeReadsEachCellOnce :
    (advancing encoding).opens.find? (fun x => decide (x.agent = .host 1)) = some (inProgress encoding)
    ∧ (inProgress encoding).todo[0]? = some (.enc .b ⟨.bit, ⟨.ioi, .b1, 3⟩, 30⟩)
    ∧ (inProgress encoding).todo[2]? = some (.enc .b ⟨.bit, ⟨.ioi, .b1, 3⟩, 31⟩)
    ∧ (∀ m ∈ encoding.take 2, isEncodeStep m = true)
    ∧ (∃ t, advanceOp (.host 1) 0 [] (advancing encoding) = .next t) ∧ (∃ t, advanceOp (.host 1) 2 [] (advancing encoding) = .next t) :=
  ⟨by decide +kernel, rfl, rfl, by decide, ⟨_, rfl⟩, ⟨_, rfl⟩⟩

/-- The todo list after an outcome, of the operation left last. -/
def todoOf : Result → Option (List Micro)
  | .next t => t.opens.getLast?.map (·.todo)
  | _ => none

/-- R67, R126: a read ahead of its turn is one read for both bits. -/
theorem test_read_ahead :
    todoOf (advanceOp (.host 1) 2 [] { advancing encoding with mem := [(⟨.ioi, .b1, 3⟩, 1)] })
      = some [.put .b ⟨.bit, ⟨.ioi, .b1, 3⟩, 30⟩ 1, .enc .b ⟨.byte, ⟨.ioi, .u8, 1⟩, 3⟩, .put .b ⟨.bit, ⟨.ioi, .b1, 3⟩, 31⟩ 1]
    ∧ todoOf (advanceOp (.host 1) 0 [] { advancing encoding with mem := [(⟨.ioi, .b1, 3⟩, 1)] })
      = some [.enc .b ⟨.byte, ⟨.ioi, .u8, 1⟩, 3⟩, .put .b ⟨.bit, ⟨.ioi, .b1, 3⟩, 31⟩ 1] := by decide +kernel

/-- Host agent 1's FRAME_DECODE has written 1 into a cell that held 0, and is still in progress; host agent 0 has a turn. -/
def overlapped (picks : Picks) : State :=
  { idle with mem := [(⟨.ioi, .b1, 1⟩, 1)], past := [⟨⟨.ioi, .b1, 1⟩, 0, .host 1, [.host 1]⟩], opens := [inProgress []], picks := picks }

/-- R64, R65: old or new, by the turn's choice; after new, never old; the writer's own reads are of its write. -/
theorem test_overlapping_get :
    replyOf (exec (.get ⟨.ioi, .b1, 1⟩) (overlapped [])) = some (.value 1)
    ∧ replyOf (exec (.get ⟨.ioi, .b1, 1⟩) (overlapped [(⟨.ioi, .b1, 1⟩, 1)])) = some (.value 0)
    ∧ (match exec (.get ⟨.ioi, .b1, 1⟩) (overlapped []) with
        | .next t => replyOf (exec (.get ⟨.ioi, .b1, 1⟩) { t with picks := [(⟨.ioi, .b1, 1⟩, 1)] })
        | _ => none) = some (.value 1)
    ∧ replyOf (exec (.get ⟨.ioi, .b1, 1⟩) { overlapped [(⟨.ioi, .b1, 1⟩, 1)] with who := .host 1 }) = some (.value 1) := by decide +kernel

theorem witness_OverlappingGetReturnsOldOrNew :
    inCatalog (overlapped []).params ⟨.ioi, .b1, 1⟩ = true
    ∧ (∃ e ∈ (overlapped []).past, e.id = ⟨.ioi, .b1, 1⟩ ∧ (overlapped []).who ∉ e.seen ∧ (0 : Half) = e.value) :=
  ⟨by decide +kernel, _, List.mem_singleton.mpr rfl, rfl, by decide +kernel, rfl⟩

/-- The turns of the step are the completion of host agent 1's operation, and host agent 0's SET of the overlapped cell to 0. -/
theorem witness_AgentsNeverReadBackwards :
    (overlapped []).mem.wf = true ∧ (overlapped []).boot ≠ .pending
    ∧ (∃ t, step { overlapped [] with turns := [.advance (.host 1) 0 []] } = .next t)
    ∧ (∃ t, step { overlapped [] with turns := [.host 0 [0x02, 0x02, 0x00, 0x01, 0x00, 0x00, 0x00] [] []] } = .next t)
    ∧ { overlapped [] with turns := [.host 0 [0x02, 0x02, 0x00, 0x01, 0x00, 0x00, 0x00] [] []] }.stepWrites = [(⟨.ioi, .b1, 1⟩, 0)]
    ∧ (overlapped []).readable (.host 0) ⟨.ioi, .b1, 1⟩ = [0, 1] ∧ (overlapped []).readable (.host 1) ⟨.ioi, .b1, 1⟩ = [1]
    ∧ (∃ t, exec (.get ⟨.ioi, .b1, 1⟩) (overlapped []) = .next t) :=
  ⟨by decide +kernel, by decide, ⟨_, rfl⟩, ⟨_, rfl⟩, by decide +kernel, by decide +kernel, by decide +kernel, ⟨_, rfl⟩⟩

/-- The operation completes: then no older value is left. -/
theorem witness_CompletedWritesAreSeenByAll :
    (overlapped []).opens.find? (fun x => decide (x.agent = .host 1)) = some (inProgress []) ∧ (inProgress []).todo = []
    ∧ (∃ t, advanceOp (.host 1) 0 [] (overlapped []) = .next t ∧ t.past = [])
    ∧ (overlapped []).past = [] ++ [⟨⟨.ioi, .b1, 1⟩, 0, .host 1, [.host 1]⟩] ++ []
    ∧ (overlapped []).legal = true ∧ idle.legal = true ∧ idle.opens = [] :=
  ⟨by decide +kernel, rfl, ⟨_, rfl, rfl⟩, rfl, by decide +kernel, idle_legal, rfl⟩

theorem witness_RacingWritesLeaveEitherValue :
    (overlapped []).mem.wf = true ∧ inCatalog (overlapped []).params ⟨.ioi, .b1, 1⟩ = true ∧ (0 : Half).toNat < 2 ^ typeWidth .b1
    ∧ (overlapped []).unseen ⟨.ioi, .b1, 1⟩ ≠ [] := by decide +kernel

/-- R66: the SET falls after the decode's write, or before it. -/
theorem test_racing_set :
    cellOf ⟨.ioi, .b1, 1⟩ (exec (.set ⟨.ioi, .b1, 1⟩ 0) (overlapped [])) = some 0
    ∧ cellOf ⟨.ioi, .b1, 1⟩ (exec (.set ⟨.ioi, .b1, 1⟩ 0) (overlapped [(⟨.ioi, .b1, 1⟩, 1)])) = some 1 := by decide +kernel

/-! ## Placing an instruction -/

/-- The words of the table, placed at reset, run as the first instruction. -/
theorem test_withFetchWord :
    decodeTableWord 8 3 = some (.cmdT3 0 0 (List.replicate 253 0))
    ∧ txOf 3 (step (State.reset.withFetchWord 8 3)) = some [0x10, 0x83, 0x83]
    ∧ replyOf (step (State.reset.withFetchWord 8 0x31)) = some (.register 0) := by decide +kernel

end Sys2Proof.Tests
end

section
/-! PROOFS. The steps of the block and what each of them can be: the turn that runs an instruction, the beginning of an operation, and the moves
of the line agent between its frames. The invariants and the refinement below go through these lemmas alone. -/

namespace Sys2Proof.Proofs

open Sys2Proof.Machine Sys2Proof.Laws

/-! ## Turns that run an instruction -/

/-- A turn of a host agent with nothing in progress runs the operation that its bytes decode to (R7). -/
theorem takeTurn_host {s0 s : State} {a : Nat} {bytes : List Byte} (buf : List Byte) (picks : Picks) {i : Instr}
    (hb : s.busy (.host a) = false) (hd : decode (.host bytes) = .ok i) :
    takeTurn (.host a bytes buf picks) s0 s = exec i { s with who := .host a, b := buf, picks := picks } := by
  simp only [takeTurn, hb, Bool.false_eq_true, if_false, runHost, hd]

/-- The same for an operation that is begun and left in progress (R7, R38). -/
theorem takeTurn_hostBegin {s0 s : State} {a : Nat} {bytes : List Byte} (buf : List Byte) (picks : Picks) {i : Instr}
    (hb : s.busy (.host a) = false) (hd : decode (.host bytes) = .ok i) :
    takeTurn (.hostBegin a bytes buf picks) s0 s = beginInstr i { s with who := .host a, b := buf, picks := picks } := by
  simp only [takeTurn, hb, Bool.false_eq_true, if_false, beginHost, hd]

/-- Every byte string on the line port is an instruction: that of the type byte, or a runt (R80, R83, R163). -/
theorem decode_line_iff {bytes : List Byte} {i : Instr} : decode (.line bytes) = .ok i ↔ decodeLine bytes = i := by
  simp only [decode, Except.ok.injEq]

/-- Settles O4. -/
theorem stepRunsTheHostOperation : Obligations.StepRunsTheHostOperation := by
  unfold Obligations.StepRunsTheHostOperation
  intro s a bytes buf picks rest i hf hboot ht hbusy hd
  rw [step_of_turn hf hboot ht]
  exact takeTurn_host buf picks hbusy hd

/-- Settles O5. -/
theorem stepRunsTheDeliveredFrame : Obligations.StepRunsTheDeliveredFrame := by
  unfold Obligations.StepRunsTheDeliveredFrame
  intro s bytes picks rest i hf hboot ht hd
  rw [step_of_turn hf hboot ht, ← decode_line_iff.mp hd]
  rfl

/-! ## The line agent between its frames -/

/-- An agent in RxRead records the error and goes on or stops (R171). -/
theorem failRead_of_reading {s : State} {code : Nat} (stops : Bool) (hl : s.loop = .reading) (hh : s.atHead = false) (hc : code ≠ 0) :
    failRead code stops s = afterTransportError stops (s.record (.transportError .read code)) := by
  simp [failRead, State.listening, hl, hh, hc]

/-- An agent in TxWrite records the error and goes on or stops (R171). -/
theorem failWrite_of_writing {s : State} {code : Nat} (stops : Bool) (hl : s.loop = .writing) (hh : s.atHead = false) (hc : code ≠ 0) :
    failWrite code stops s = afterTransportError stops (s.record (.transportError .write code)) := by
  simp [failWrite, State.transmitting, hl, hh, hc]

/-- Settles O35, by the two operations of the transport and the two continuations. -/
theorem transportErrorsAdmitBothContinuations : Obligations.TransportErrorsAdmitBothContinuations := by
  unfold Obligations.TransportErrorsAdmitBothContinuations
  intro s code rest hf hboot hc
  refine ⟨fun hl hh => ⟨fun ht => ?_, fun ht => ?_⟩, fun hl hh => ⟨fun ht => ?_, fun ht => ?_⟩⟩ <;> rw [step_of_turn hf hboot ht]
  · exact congrArg _ (failRead_of_reading (s := { s with turns := rest }) false hl hh hc)
  · exact congrArg _ (failRead_of_reading (s := { s with turns := rest }) true hl hh hc)
  · exact congrArg _ (failWrite_of_writing (s := { s with turns := rest }) false hl hh hc)
  · exact congrArg _ (failWrite_of_writing (s := { s with turns := rest }) true hl hh hc)

/-- What the line agent's turns between its frames can do (R167, R169, R171). -/
inductive LineMoves (s : State) : State → Prop where
  /-- The turn is not enabled. -/
  | stays : LineMoves s s
  /-- Check point H finds EN = 0. -/
  | stops (h : s.atHead = true) : LineMoves s s.stopLine
  /-- The agent goes on from H to RxRead. -/
  | reads (checks : Bool) (hl : s.loop ≠ .stopped) (h : s.atHead = true) :
      LineMoves s { s with loop := .reading, atHead := false, checkAtA := checks }
  /-- TxWrite returns OK. -/
  | sends (h : s.transmitting = true) :
      LineMoves s ({ s with sent := s.tx.take s.respLen :: s.sent }.record .served).toHead
  /-- RxRead or TxWrite fails. -/
  | fails (stops : Bool) (e : LineEvent) (h : s.listening = true ∨ s.transmitting = true) :
      LineMoves s (afterTransportError stops (s.record e))

theorem passHead_moves (checksHere : Bool) (s : State) : LineMoves s (passHead checksHere s) := by
  unfold passHead
  split
  · exact .stays
  · next h =>
    simp only [Bool.or_eq_true, decide_eq_true_eq, Bool.not_eq_true', not_or, Bool.not_eq_false] at h
    obtain ⟨hl, hh⟩ := h
    split
    · exact .stops hh
    · exact .reads _ hl hh

theorem failRead_moves (code : Nat) (stops : Bool) (s : State) : LineMoves s (failRead code stops s) := by
  unfold failRead
  split
  · exact .stays
  · next h => exact .fails _ _ (.inl (by simp_all))

theorem completeWrite_moves (s : State) : LineMoves s (completeWrite s) := by
  unfold completeWrite
  split
  · exact .stays
  · next h => exact .sends (by simpa using h)

theorem failWrite_moves (code : Nat) (stops : Bool) (s : State) : LineMoves s (failWrite code stops s) := by
  unfold failWrite
  split
  · exact .stays
  · next h => exact .fails _ _ (.inr (by simp_all))

/-! ## How an operation begins -/

/-- What an instruction that writes no cell can leave: the states in which it ends where it begins. -/
inductive EndsAtOnce (s : State) : State → Prop where
  /-- The line agent is not in RxRead (R195). -/
  | idle : EndsAtOnce s s
  /-- GET (R110). -/
  | reads (id : VarId) (r : Reply) : EndsAtOnce s ((s.seeVar id).reply r)
  /-- NOMATCH of a host DISPATCH, HEX_REJECT, and the operations on CTRL and STATUS that change neither (R153, R162, R168, R172). -/
  | replies (r : Reply) : EndsAtOnce s (s.reply r)
  /-- A fault of a host agent's operation (R191). -/
  | faults (f : Fault) : EndsAtOnce s (raiseFault f s)
  /-- EN set 0 to 1 (R168). -/
  | enables (hr : s.ready = true) (hl : s.loop = .stopped) (r : Reply) : EndsAtOnce s (s.startLineAgent.reply r)
  /-- EN set to 0 (R169). -/
  | disables (r : Reply) : EndsAtOnce s ({ s with en := false }.reply r)
  /-- Check point A finds EN = 0 (R167). -/
  | stops (h : s.listening = true) : EndsAtOnce s s.stopLine
  /-- A fault of the line agent's dispatch (R191). -/
  | lineFaults (f : Fault) (h : s.listening = true) : EndsAtOnce s (raiseFault f { s with loop := .dispatching })
  /-- NOMATCH of the line agent's dispatch (R162). -/
  | noMatch (h : s.listening = true) : EndsAtOnce s (({ s with loop := .dispatching } : State).record .noMatch).toHead

/-- The state, the steps and the completion with which an operation that passed its tests begins. -/
inductive Begun (s : State) : State → List Micro → Finish → Prop where
  /-- SET, and DET_CALL_OR, which may take a free value (R111, R181). -/
  | store {id : VarId} {v : Half} (n : Nat) (hid : inCatalog s.params id = true) (hv : valueFits id.ty v = true) :
      Begun s { s with freeCount := n } [.store id v] .replyOk
  /-- FRAME_DECODE (R130). -/
  | decodes {t : Byte} {d : FrameDef} {bytes : List Byte} (hd : frameOf s.params t = some d) (hl : d.len ≤ bytes.length) :
      Begun s { s with b := bytes } (decodeMicros .b d) .replyOk
  /-- FRAME_ENCODE (R131). -/
  | encodes {t : Byte} {d : FrameDef} (hd : frameOf s.params t = some d) (hl : s.b.length = d.len) :
      Begun s s (encodeMicros .b d) .replyFrame
  /-- A matched DISPATCH of a host agent (R161, R170). -/
  | dispatches {t : Byte} {c r : FrameDef} {bytes : List Byte} (hp : pairOf s.params t = some (c, r)) (hl : c.len ≤ bytes.length)
      (hfree : s.dispatchOpen = false) : Begun s { s with rx := bytes } (dispatchMicros c r) (.replyDispatched r.len)
  /-- A matched dispatch of the line agent (R161, R167). -/
  | serves {t : Byte} {c r : FrameDef} {bytes : List Byte} (hp : pairOf s.params t = some (c, r)) (hl : c.len ≤ bytes.length)
      (hfree : s.dispatchOpen = false) (h : s.listening = true) :
      Begun s { s with loop := .dispatching, rx := bytes } (dispatchMicros c r) (.transmit r.len)
  /-- COMPAT_SET_BITSET, COMPAT_SET_HEX, COMPAT_ZERO and COMPAT_DEFAULT (R151, R153, R154, R155). -/
  | stores (bits : Bitset) : Begun s s (compatStores bits) .replyOk
  /-- COMPAT_GET_BITSET and LS_INDICATION (R152, R180). -/
  | loads (ls : List (VarId × Nat)) {fin : Finish} (hfin : fin = .replyBitset ∨ fin = .replyIndication) :
      Begun s { s with acc := 0 } (ls.map fun l => .load l.1 l.2) fin

/-- The ways in which an operation of several steps can begin. -/
inductive Beginning (s : State) : Started → Prop where
  | refused (r : Refusal) : Beginning s (.ended (.refused r))
  | ended {t : State} (h : EndsAtOnce s t) : Beginning s (.ended (.next t))
  | going {s' : State} {todo : List Micro} {fin : Finish} (h : Begun s s' todo fin) : Beginning s (.going s' todo fin)

theorem startSet_beginning (id : VarId) (v : Half) (s : State) : Beginning s (startSet id v s) := by
  unfold startSet
  split
  · exact .refused _
  · next hid =>
    split
    · exact .refused _
    · next hv => exact .going (.store s.freeCount (by simpa using hid) (by simpa using hv))

theorem startFrameDecode_beginning (t : Byte) (bytes : List Byte) (s : State) : Beginning s (startFrameDecode t bytes s) := by
  unfold startFrameDecode
  split
  · exact .refused _
  · next d hd =>
    split
    · exact .refused _
    · split
      · exact .ended (.faults _)
      · split
        · exact .ended (.faults _)
        · next hl => exact .going (.decodes hd (Nat.not_lt.mp hl))

theorem startFrameEncode_beginning (t : Byte) (s : State) : Beginning s (startFrameEncode t s) := by
  unfold startFrameEncode
  split
  · exact .refused _
  · next d hd =>
    split
    · exact .refused _
    · split
      · exact .refused _
      · next hl => exact .going (.encodes hd (not_not.mp hl))

theorem startDispatch_beginning (bytes : List Byte) (s : State) : Beginning s (startDispatch bytes s) := by
  unfold startDispatch
  split
  · exact .ended (.faults _)
  · next hfree =>
    split
    · exact .ended (.faults _)
    · split
      · exact .ended (.replies _)
      · next c r hp =>
        split
        · exact .ended (.faults _)
        · next hl => exact .going (.dispatches hp (Nat.not_lt.mp hl) (by simp_all))

theorem startLine_beginning (bytes : List Byte) (s : State) : Beginning s (startLine bytes s) := by
  unfold startLine
  split
  · exact .ended .idle
  · next h =>
    have h : s.listening = true := by simpa using h
    split
    · exact .ended (.stops h)
    · dsimp only
      split
      · exact .ended (.lineFaults _ h)
      · next hfree =>
        split
        · exact .ended (.lineFaults _ h)
        · split
          · exact .ended (.noMatch h)
          · next c r hp =>
            split
            · exact .ended (.lineFaults _ h)
            · next hl => exact .going (.serves hp (Nat.not_lt.mp hl) (Bool.eq_false_of_not_eq_true hfree) h)

theorem startCompatSet_beginning (bits : Bitset) (s : State) : Beginning s (startCompatSet bits s) := .going (.stores bits)

theorem startCompatGet_beginning (s : State) : Beginning s (startCompatGet s) := by
  have hs : compatLoads = (compatPairs.map fun q => (compatId q.1 q.2, compatOff q.1 q.2)).map fun l => .load l.1 l.2 := by
    simp [compatLoads]
  rw [startCompatGet, hs]
  exact .going (.loads _ (.inl rfl))

theorem startCompatHex_beginning (str : List Byte) (s : State) : Beginning s (startCompatHex str s) := by
  unfold startCompatHex
  split
  · exact .ended (.replies _)
  · exact startCompatSet_beginning _ s

theorem startLsIndication_beginning (c : Byte) (s : State) : Beginning s (startLsIndication c s) := by
  unfold startLsIndication
  split
  · split
    · exact .going (.loads [(lsGreenId s.params c.toNat, 0), (lsYellowId s.params c.toNat, 1), (lsRedId s.params c.toNat, 2)] (.inr rfl))
    · exact .refused _
  · exact .refused _

/-- A bit fits a `b1` cell (R21). -/
theorem valueFits_halfOfBit (v : Bool) : valueFits .b1 (halfOfBit v) = true := by cases v <;> rfl

theorem startDetCallOr_beginning (d : Byte) (results : List Bool) (s : State) : Beginning s (startDetCallOr d results s) := by
  unfold startDetCallOr
  split
  · split
    · exact .refused _
    · next hid =>
      split
      · exact .going (.store s.freeCount (by simpa using hid) (valueFits_halfOfBit _))
      · exact .going (.store (s.freeCount + 1) (by simpa using hid) (valueFits_halfOfBit _))
  · exact .refused _

/-- Every instruction that writes a cell or touches several begins in one of these ways. -/
theorem startOf_beginning {i : Instr} {s : State} {st : Started} (h : startOf i s = some st) : Beginning s st := by
  cases i <;> simp only [startOf, Option.some.injEq, reduceCtorEq] at h <;> subst h
  case set id v => exact startSet_beginning id v s
  case frameDecode t bytes => exact startFrameDecode_beginning t bytes s
  case frameEncode t => exact startFrameEncode_beginning t s
  case dispatch bytes => exact startDispatch_beginning bytes s
  case compatSetBitset bits => exact startCompatSet_beginning bits s
  case compatGetBitset => exact startCompatGet_beginning s
  case compatSetHex str => exact startCompatHex_beginning str s
  case compatZero => exact startCompatSet_beginning 0 s
  case compatDefault => exact startCompatSet_beginning s.params.defaultCompat s
  case lsIndication c => exact startLsIndication_beginning c s
  case detCallOr d results => exact startDetCallOr_beginning d results s
  all_goals exact startLine_beginning _ s

/-! ## Instructions of the ports -/

/-- The instruction arrives at the line port or at the host port; the others are a definition's elements. -/
def OnPort (i : Instr) : Prop := ∃ bytes, encode i = .line bytes ∨ encode i = .host bytes

theorem decodeLine_onPort (bytes : List Byte) : OnPort (decodeLine bytes) := by
  refine ⟨bytes, .inl ?_⟩
  unfold decodeLine
  split
  · exact frameInstr_enc _ _ _ _
  · rfl

theorem decodeHostFront_onPort {bytes rest : List Byte} {i : Instr} (h : decodeHostFront bytes = .ok (i, rest)) : OnPort i := by
  unfold decodeHostFront at h
  repeat' split at h
  all_goals simp only [Except.ok.injEq, Prod.mk.injEq, reduceCtorEq] at h
  all_goals
    obtain ⟨rfl, -⟩ := h
    exact ⟨_, .inr rfl⟩

theorem decode_host_onPort {bytes : List Byte} {i : Instr} (h : decode (.host bytes) = .ok i) : OnPort i := by
  simp only [decode, decodeHost] at h
  split at h
  · next i' hi =>
    cases h
    exact decodeHostFront_onPort hi
  · cases h
  · cases h

theorem execCsrWrite_next {reg v : Byte} {s t : State} (h : execCsrWrite reg v s = .next t) : EndsAtOnce s t := by
  unfold execCsrWrite at h
  split at h
  · cases h
  · split at h
    · split at h
      · cases h; exact .replies _
      · next hr =>
        split at h
        · cases h; exact .replies _
        · split at h
          · cases h; exact .faults _
          · next hl => cases h; exact .enables (by simpa using hr) (not_not.mp hl) _
    · cases h; exact .disables _

theorem execCsrRead_next {reg : Byte} {s t : State} (h : execCsrRead reg s = .next t) : EndsAtOnce s t := by
  unfold execCsrRead at h
  split at h
  · cases h; exact .replies _
  · split at h
    · cases h; exact .replies _
    · cases h

theorem execGet_next {id : VarId} {s t : State} (h : execGet id s = .next t) : EndsAtOnce s t := by
  unfold execGet at h
  split at h
  · cases h; exact .reads _ _
  · cases h

/-- A port's instruction of one step writes no cell. -/
theorem exec_of_no_start {i : Instr} {s t : State} (hp : OnPort i) (hs : startOf i s = none) (h : exec i s = .next t) :
    EndsAtOnce s t := by
  obtain ⟨bytes, hp⟩ := hp
  cases i <;> simp only [startOf, reduceCtorEq] at hs
  case get id => exact execGet_next h
  case csrWrite reg v => exact execCsrWrite_next h
  case csrRead reg => exact execCsrRead_next h
  all_goals simp [encode] at hp

/-- What a port's instruction that runs at once can leave. -/
theorem exec_next {i : Instr} {s t : State} (hp : OnPort i) (h : exec i s = .next t) :
    EndsAtOnce s t ∨ ∃ s' todo fin, Begun s s' todo fin ∧ t = finishOp fin (runMicros todo s') := by
  cases hs : startOf i s with
  | none => exact .inl (exec_of_no_start hp hs h)
  | some st =>
    rw [exec_of_start hs] at h
    cases startOf_beginning hs with
    | refused r => cases h
    | ended he => cases h; exact .inl he
    | going hb => cases h; exact .inr ⟨_, _, _, hb, rfl⟩

/-- What a port's instruction that begins can leave. -/
theorem beginInstr_next {i : Instr} {s t : State} (hp : OnPort i) (h : beginInstr i s = .next t) :
    EndsAtOnce s t ∨ ∃ s' todo fin, Begun s s' todo fin ∧ t = s'.hold s.who todo fin := by
  cases hs : startOf i s with
  | none => exact .inl (exec_of_no_start hp hs (beginInstr_of_none hs ▸ h))
  | some st =>
    rw [beginInstr_of_start hs] at h
    cases startOf_beginning hs with
    | refused r => cases h
    | ended he => cases h; exact .inl he
    | going hb => cases h; exact .inr ⟨_, _, _, hb, rfl⟩

/-! ## Initialisation -/

/-- What initialisation can leave: its end before the matrix is written, or the matrix with READY set or not (R222). -/
theorem execInit_next {s t : State} (h : execInit s = .next t) :
    t = { s with boot := .aborted }
      ∨ ∃ ready boot, (s.ready = true → ready = true)
          ∧ t = { s with mem := compatTable (initCompat s) s.mem, ready := ready, boot := boot } := by
  unfold execInit at h
  generalize compatTable (initCompat s) s.mem = m at h ⊢
  split at h
  · cases h
  · split at h
    · cases h
    · split at h
      · cases h; exact .inl rfl
      · dsimp only at h
        split at h
        · cases h; exact .inr ⟨true, .done, fun _ => rfl, rfl⟩
        · cases h; exact .inr ⟨s.ready, .aborted, id, rfl⟩

/-! ## What a step can be -/

/-- What a step of the block can do (R7, R222). -/
inductive Moves (s : State) : State → Prop where
  | init {t : State} (h : execInit s = .next t) : Moves s t
  | stays : Moves s s
  | advances {t : State} (turns : List Turn) (a : Agent) (k : Nat) (picks : Picks)
      (h : advanceOp a k picks { s with turns := turns } = .next t) : Moves s t
  | runs {i : Instr} {t : State} (turns : List Turn) (who : Agent) (buf : List Byte) (picks : Picks) (hp : OnPort i)
      (h : exec i { s with turns := turns, who := who, b := buf, picks := picks } = .next t) : Moves s t
  | begins {i : Instr} {t : State} (turns : List Turn) (who : Agent) (buf : List Byte) (picks : Picks) (hp : OnPort i)
      (h : beginInstr i { s with turns := turns, who := who, b := buf, picks := picks } = .next t) : Moves s t
  | line {t : State} (turns : List Turn) (h : LineMoves { s with turns := turns } t) : Moves s t

theorem takeTurn_moves {turn : Turn} {s t : State} {rest : List Turn} (h : takeTurn turn s { s with turns := rest } = .next t) :
    Moves s t := by
  cases turn with
  | host a bytes buf picks =>
    simp only [takeTurn] at h
    split at h
    · exact .advances s.turns _ _ _ h
    · unfold runHost at h
      split at h
      · next i hd => exact .runs rest _ buf picks (decode_host_onPort hd) h
      · cases h
  | hostBegin a bytes buf picks =>
    simp only [takeTurn] at h
    split at h
    · exact .advances s.turns _ _ _ h
    · unfold beginHost at h
      split at h
      · next i hd => exact .begins rest _ buf picks (decode_host_onPort hd) h
      · cases h
  | rx bytes picks => exact .runs rest .line s.b picks (decodeLine_onPort bytes) h
  | rxBegin bytes => exact .begins rest .line s.b [] (decodeLine_onPort bytes) h
  | advance a k picks => exact .advances rest a k picks h
  | lineHead checksHere => cases h; exact .line rest (passHead_moves checksHere _)
  | rxError code stops => cases h; exact .line rest (failRead_moves code stops _)
  | txDone => cases h; exact .line rest (completeWrite_moves _)
  | txError code stops => cases h; exact .line rest (failWrite_moves code stops _)

theorem step_moves {s t : State} (h : step s = .next t) : Moves s t := by
  cases hf : s.fault with
  | some f => rw [step_of_fault hf] at h; cases h
  | none =>
    by_cases hb : s.boot = .pending
    · exact .init (step_of_pending hf hb ▸ h)
    · cases ht : s.turns with
      | nil => rw [step_idle hf hb ht] at h; cases h; exact .stays
      | cons turn rest => exact takeTurn_moves (step_of_turn hf hb ht ▸ h)

/-! ## Single-variable steps -/

/-- The element meanings that an operation's step runs are the step itself (R128, R130, R131). -/
theorem execMicro_next {m : Micro} {s t : State} (h : execMicro m s = .next t) : t = runMicro m s := by
  cases m with
  | dec src e =>
    obtain ⟨i, hi⟩ := decElem_decodes src e
    simp only [execMicro, hi] at h
    exact (decodeElement_cases (exec_of_decElem hi s ▸ h)).1
  | enc dst e =>
    obtain ⟨i, hi⟩ := encElem_decodes dst e
    simp only [execMicro, hi] at h
    exact encodeElement_cases (exec_of_encElem hi s ▸ h)
  | fill dst addr type len => cases h; rfl
  | put dst e v => cases h; rfl
  | store id v => cases h; rfl
  | load id slot => cases h; rfl

/-- A single-variable step changes the table, the older values, the buffers it encodes into and the bits read, and nothing else. -/
theorem runMicro_frame (m : Micro) (s : State) :
    ∃ mem past tx b acc, runMicro m s = { s with mem := mem, past := past, tx := tx, b := b, acc := acc } := by
  cases m with
  | dec src e => exact ⟨_, _, _, _, _, rfl⟩
  | fill dst addr type len => cases dst <;> exact ⟨_, _, _, _, _, rfl⟩
  | enc dst e => cases dst <;> exact ⟨_, _, _, _, _, rfl⟩
  | put dst e v => cases dst <;> exact ⟨_, _, _, _, _, rfl⟩
  | store id v => exact ⟨_, _, _, _, _, rfl⟩
  | load id slot => exact ⟨_, _, _, _, _, rfl⟩

theorem runMicros_frame (ms : List Micro) (s : State) :
    ∃ mem past tx b acc, runMicros ms s = { s with mem := mem, past := past, tx := tx, b := b, acc := acc } := by
  induction ms generalizing s with
  | nil => exact ⟨_, _, _, _, _, rfl⟩
  | cons m ms ih =>
    obtain ⟨_, _, _, _, _, hm⟩ := runMicro_frame m s
    obtain ⟨_, _, _, _, _, hms⟩ := ih (runMicro m s)
    rw [hm] at hms
    exact ⟨_, _, _, _, _, by rw [runMicros_cons, hm, hms]⟩

end Sys2Proof.Proofs
end

section
/-! PROOFS. The legality invariant (R5, R21, R23, R31, R65): each shared operation keeps it, and so does every step. -/

namespace Sys2Proof.Proofs

open Sys2Proof.Machine Sys2Proof.Laws

/-! ## Legal states, and states in the middle of a turn -/

/-- A table in canonical form whose values fit their cells' types and whose cells are catalogued (R21, R23, R113). -/
structure LegalTable (p : Params) (m : Memory) : Prop where
  wf : m.wf = true
  typed : m.typed = true
  within : m.within p.catalog = true

theorem tableLegal_iff {s : State} : s.tableLegal = true ↔ LegalTable s.params s.mem := by
  simp only [State.tableLegal, Bool.and_eq_true, and_assoc]
  exact ⟨fun ⟨hw, ht, hc⟩ => ⟨hw, ht, hc⟩, fun ⟨hw, ht, hc⟩ => ⟨hw, ht, hc⟩⟩

/-- A legal state, but that an older value may also be one that the agent whose turn it is superseded: its operation is taken out of those in
progress while it moves. -/
structure Sound (s : State) : Prop where
  params : paramsAdmissible s.params = true
  table : s.tableLegal = true
  tx : s.tx.length = respBufLen s.params
  opens : ∀ o ∈ s.opens, ∀ m ∈ o.todo, microLegal s.params m = true
  past : ∀ e ∈ s.past, inCatalog s.params e.id = true ∧ valueFits e.id.ty e.value = true
  writers : ∀ e ∈ s.past, s.busy e.writer = true ∨ e.writer = s.who

/-- A state is legal where it is sound and every older value was superseded by an operation that is in progress (R64). -/
theorem legal_iff {s : State} : s.legal = true ↔ Sound s ∧ ∀ e ∈ s.past, s.busy e.writer = true := by
  simp only [State.legal, State.pastLegal, Bool.and_eq_true, decide_eq_true_eq, List.all_eq_true]
  constructor
  · rintro ⟨⟨⟨⟨hp, ht⟩, hx⟩, ho⟩, hpast⟩
    exact ⟨⟨hp, ht, hx, ho, fun e he => (hpast e he).1, fun e he => .inl (hpast e he).2⟩, fun e he => (hpast e he).2⟩
  · rintro ⟨h, hb⟩
    exact ⟨⟨⟨⟨h.params, h.table⟩, h.tx⟩, h.opens⟩, fun e he => ⟨h.past e he, hb e he⟩⟩

theorem sound_of_legal {s : State} (h : s.legal = true) : Sound s := (legal_iff.mp h).1

/-- With no operation in progress no older value is left: the "quiescent snapshot" (R65). -/
theorem past_of_legal {s : State} (h : s.legal = true) (ho : s.opens = []) : s.past = [] := by
  rw [List.eq_nil_iff_forall_not_mem]
  intro e he
  have hb := (legal_iff.mp h).2 e he
  simp [State.busy, ho] at hb

/-! ## Admissible parameters -/

theorem paramsWf_of_admissible {p : Params} (h : paramsAdmissible p = true) : paramsWf p = true := by
  simp only [paramsAdmissible, Bool.and_eq_true, and_assoc] at h
  exact h.1

theorem bindingsHeld_of_admissible {p : Params} (h : paramsAdmissible p = true) : bindingsHeld p = true := by
  simp only [paramsAdmissible, catalogHoldsFamilies, Bool.and_eq_true, and_assoc] at h
  exact h.2.1

/-- The cell of every pair is catalogued (R25, R26). -/
theorem inCatalog_compatId {p : Params} (h : paramsAdmissible p = true) {q : Nat × Nat} (hq : q ∈ compatPairs) :
    inCatalog p (compatId q.1 q.2) = true := by
  have hb := bindingsHeld_of_admissible h
  simp only [bindingsHeld, Bool.and_eq_true, and_assoc, List.all_eq_true] at hb
  exact hb.1 q hq

/-! ## Writes -/

/-- What an element decodes fits the type that its kind carries (R6, R86). -/
theorem valueFits_elementValue (buf : List Byte) (e : Element) : valueFits (kindType e.kind) (elementValue buf e) = true := by
  unfold elementValue
  cases e.kind with
  | bit => exact valueFits_halfOfBit _
  | byte =>
    have := (byteAt buf e.pos).isLt
    simp [valueFits, kindType, typeWidth, BitVec.toNat_setWidth]
    omega
  | word => exact decide_eq_true (wordAt buf e.pos).isLt

/-- The table after one legal write is legal (R21, R23). -/
theorem legalTable_set {p : Params} {m : Memory} {id : VarId} {v : Half} (hid : inCatalog p id = true) (hv : valueFits id.ty v = true)
    (h : LegalTable p m) : LegalTable p (m.set id v) :=
  ⟨set_wf _ _ h.wf, set_typed hv h.typed, set_within hid h.within⟩

theorem tableLegal_setVar {s : State} {id : VarId} {v : Half} (hid : inCatalog s.params id = true) (hv : valueFits id.ty v = true)
    (h : s.tableLegal = true) : (s.setVar id v).tableLegal = true := by
  rw [tableLegal_iff] at h ⊢
  rw [setVar_mem, setVar_params]
  split
  · exact legalTable_set hid hv h
  · exact h

/-- A legal write keeps a state sound: the value it supersedes fits its cell, and its writer is the agent whose turn it is (R64, R66). -/
theorem sound_setVar {s : State} {id : VarId} {v : Half} (hid : inCatalog s.params id = true) (hv : valueFits id.ty v = true)
    (h : Sound s) : Sound (s.setVar id v) where
  params := h.params
  table := tableLegal_setVar hid hv h.table
  tx := h.tx
  opens := h.opens
  past e he := by
    rw [setVar_params]
    rcases mem_setVar_past he with ⟨e', he', hid', hval, -⟩ | ⟨hid', hval, -⟩
    · obtain ⟨hc, hf⟩ := h.past e' he'
      refine ⟨hid' ▸ hc, ?_⟩
      rcases hval with hval | ⟨hi, hval⟩
      · rw [hval, hid']
        exact hf
      · rw [hval, hi]
        exact hv
    · rw [hid', hval]
      exact ⟨hid, typed_get (tableLegal_iff.mp h.table).typed id⟩
  writers e he := by
    rcases mem_setVar_past he with ⟨e', he', -, -, hw | hw⟩ | ⟨-, -, hw⟩
    · rw [hw]
      exact h.writers e' he'
    · exact .inr hw
    · exact .inr hw

/-- A read keeps a state sound. -/
theorem sound_seeVar {s : State} (id : VarId) (h : Sound s) : Sound (s.seeVar id) where
  params := h.params
  table := h.table
  tx := h.tx
  opens := h.opens
  past e he := by
    obtain ⟨e', he', hid, hval, -⟩ := mem_seeVar_past he
    rw [hid, hval]
    exact h.past e' he'
  writers e he := by
    obtain ⟨e', he', -, -, hw⟩ := mem_seeVar_past he
    rw [hw]
    exact h.writers e' he'

/-- A buffer that is replaced by one of its length keeps a state sound (R31). -/
theorem sound_setEncBuf {s : State} (dst : EncBuf) {buf : List Byte} (hl : buf.length = (s.encBuf dst).length) (h : Sound s) :
    Sound (s.setEncBuf dst buf) := by
  obtain ⟨hp, ht, hx, ho, hpast, hw⟩ := h
  cases dst with
  | tx => exact ⟨hp, ht, hl.trans hx, ho, hpast, hw⟩
  | b => exact ⟨hp, ht, hx, ho, hpast, hw⟩

theorem encBuf_seeVar (s : State) (id : VarId) (dst : EncBuf) : (s.seeVar id).encBuf dst = s.encBuf dst := by cases dst <;> rfl

/-- A legal single-variable step keeps a state sound (R7). -/
theorem sound_runMicro {s : State} {m : Micro} (hm : microLegal s.params m = true) (h : Sound s) : Sound (runMicro m s) := by
  cases m with
  | dec src e =>
    simp only [microLegal, Bool.and_eq_true, decide_eq_true_eq] at hm
    exact sound_setVar hm.2 (hm.1 ▸ valueFits_elementValue _ e) h
  | fill dst addr type len => exact sound_setEncBuf dst (fillFrame_length _ _ _ _) h
  | enc dst e =>
    exact sound_setEncBuf dst ((elementPut_length _ _ _).trans (by rw [encBuf_seeVar])) (sound_seeVar e.id h)
  | put dst e v => exact sound_setEncBuf dst (elementPut_length _ _ _) h
  | store id v =>
    simp only [microLegal, Bool.and_eq_true] at hm
    exact sound_setVar hm.1 hm.2 h
  | load id slot =>
    obtain ⟨hp, ht, hx, ho, hpast, hw⟩ := sound_seeVar id h
    exact ⟨hp, ht, hx, ho, hpast, hw⟩

@[simp] theorem runMicro_params (m : Micro) (s : State) : (runMicro m s).params = s.params := by
  obtain ⟨_, _, _, _, _, h⟩ := runMicro_frame m s
  rw [h]

theorem sound_runMicros {s : State} {ms : List Micro} (hm : ∀ m ∈ ms, microLegal s.params m = true) (h : Sound s) :
    Sound (runMicros ms s) := by
  induction ms generalizing s with
  | nil => exact h
  | cons m ms ih =>
    rw [List.forall_mem_cons] at hm
    exact ih (by simpa using hm.2) (sound_runMicro hm.1 h)

/-! ## Completion, and an operation left in progress -/

/-- What a completion leaves of a sound state is legal: no older value of the agent's own is left to read (R65). -/
theorem legal_finishOp {s : State} (fin : Finish) (h : Sound s) : (finishOp fin s).legal = true := by
  have hpast : ∀ e ∈ settlePast s.who s.past, e ∈ s.past ∧ s.busy e.writer = true := fun e he => by
    obtain ⟨hm, hne⟩ := mem_settlePast he
    exact ⟨hm, (h.writers e hm).resolve_right hne⟩
  have hset : s.settle.legal = true :=
    legal_iff.mpr ⟨⟨h.params, h.table, h.tx, h.opens, fun e he => h.past e (hpast e he).1, fun e he => .inl (hpast e he).2⟩,
      fun e he => (hpast e he).2⟩
  cases fin <;> exact hset

theorem busy_hold (s : State) (a : Agent) (todo : List Micro) (fin : Finish) (b : Agent) :
    (s.hold a todo fin).busy b = (s.busy b || decide (a = b)) := by
  simp [State.busy]

/-- A sound state whose agent's operation is left in progress, with legal steps to do, is legal. -/
theorem legal_hold {s : State} {todo : List Micro} (fin : Finish) (hm : ∀ m ∈ todo, microLegal s.params m = true) (h : Sound s) :
    (s.hold s.who todo fin).legal = true := by
  have hb : ∀ e ∈ s.past, (s.hold s.who todo fin).busy e.writer = true := fun e he => by
    rw [busy_hold]
    rcases h.writers e he with hw | hw <;> simp [hw]
  refine legal_iff.mpr ⟨⟨h.params, h.table, h.tx, fun o ho => ?_, h.past, fun e he => .inl (hb e he)⟩, hb⟩
  rw [hold_opens, List.mem_append, List.mem_singleton] at ho
  rcases ho with ho | rfl
  · exact h.opens o ho
  · exact hm

/-! ## The beginning of an operation -/

theorem decodeMicros_legal {p : Params} (src : DecBuf) {t : Byte} {d : FrameDef} (hp : paramsAdmissible p = true)
    (hd : frameOf p t = some d) : ∀ m ∈ decodeMicros src d, microLegal p m = true := by
  obtain ⟨-, -, -, hk, hc⟩ := frameOf_wf (paramsWf_of_admissible hp) hd
  rw [decodeMicros, List.forall_mem_map]
  intro e he
  simp only [microLegal, hk e he, hc e he, decide_true, Bool.and_self]

theorem encodeMicros_legal (p : Params) (dst : EncBuf) (d : FrameDef) : ∀ m ∈ encodeMicros dst d, microLegal p m = true := by
  rw [encodeMicros, List.forall_mem_cons, List.forall_mem_map]
  exact ⟨rfl, fun _ _ => rfl⟩

theorem dispatchMicros_legal {p : Params} {t : Byte} {c r : FrameDef} (hp : paramsAdmissible p = true) (h : pairOf p t = some (c, r)) :
    ∀ m ∈ dispatchMicros c r, microLegal p m = true := by
  obtain ⟨hc, -⟩ := pairOf_some (paramsWf_of_admissible hp) h
  rw [dispatchMicros, List.forall_mem_append]
  exact ⟨decodeMicros_legal .rx hp hc, encodeMicros_legal p .tx r⟩

theorem compatStores_legal {p : Params} (hp : paramsAdmissible p = true) (bits : Bitset) :
    ∀ m ∈ compatStores bits, microLegal p m = true := by
  rw [compatStores, List.forall_mem_map]
  intro q hq
  simp only [microLegal, inCatalog_compatId hp hq, Bool.true_and]
  exact valueFits_halfOfBit _

/-- An operation begins in a sound state, with legal steps to do (R87). -/
theorem sound_begun {s s' : State} {todo : List Micro} {fin : Finish} (hb : Begun s s' todo fin) (h : Sound s) :
    Sound s' ∧ s'.who = s.who ∧ ∀ m ∈ todo, microLegal s'.params m = true := by
  obtain ⟨hp, ht, hx, ho, hpast, hw⟩ := h
  have keeps : ∀ b rx loop acc n, Sound { s with b := b, rx := rx, loop := loop, acc := acc, freeCount := n } :=
    fun _ _ _ _ _ => ⟨hp, ht, hx, ho, hpast, hw⟩
  cases hb with
  | store n hid hv =>
    refine ⟨keeps _ _ _ _ _, rfl, ?_⟩
    simpa [microLegal] using ⟨hid, hv⟩
  | decodes hd hl => exact ⟨keeps _ _ _ _ _, rfl, decodeMicros_legal .b hp hd⟩
  | encodes hd hl => exact ⟨keeps _ _ _ _ _, rfl, encodeMicros_legal _ .b _⟩
  | dispatches hpair hl hfree => exact ⟨keeps _ _ _ _ _, rfl, dispatchMicros_legal hp hpair⟩
  | serves hpair hl hfree hlisten => exact ⟨keeps _ _ _ _ _, rfl, dispatchMicros_legal hp hpair⟩
  | stores bits => exact ⟨keeps _ _ _ _ _, rfl, compatStores_legal hp bits⟩
  | loads ls hfin =>
    refine ⟨keeps _ _ _ _ _, rfl, ?_⟩
    rw [List.forall_mem_map]
    exact fun _ _ => rfl

/-- An instruction that ends where it begins writes no cell, no byte of TX and no operation in progress. -/
theorem legal_endsAtOnce {s t : State} (he : EndsAtOnce s t) (h : s.legal = true) : t.legal = true := by
  have raise : ∀ (f : Fault) (u : State), u.legal = true → (raiseFault f u).legal = true := fun f u hu => by
    unfold raiseFault
    split <;> exact hu
  cases he with
  | reads id r =>
    obtain ⟨hs, hb⟩ := legal_iff.mp h
    have hsee : (s.seeVar id).legal = true := legal_iff.mpr ⟨sound_seeVar id hs, fun e he => by
      obtain ⟨e', he', -, -, hw⟩ := mem_seeVar_past he
      rw [hw]
      exact hb e' he'⟩
    exact hsee
  | faults f => exact raise f s h
  | lineFaults f hl => exact raise f _ h
  | _ => exact h

/-! ## Steps -/

/-- The line agent's turns between its frames write no cell and no byte of TX. -/
theorem legal_lineMoves {s t : State} (hm : LineMoves s t) (h : s.legal = true) : t.legal = true := by
  cases hm with
  | fails stops e hl => cases stops <;> exact h
  | _ => exact h

theorem legalTable_foldl {p : Params} {ws : List (VarId × Half)}
    (hws : ∀ w ∈ ws, inCatalog p w.1 = true ∧ valueFits w.1.ty w.2 = true) {m : Memory} (h : LegalTable p m) :
    LegalTable p (ws.foldl (fun m w => m.set w.1 w.2) m) := by
  induction ws generalizing m with
  | nil => exact h
  | cons w ws ih =>
    rw [List.forall_mem_cons] at hws
    exact ih hws.2 (legalTable_set hws.1.1 hws.1.2 h)

/-- The matrix that initialisation writes keeps the table legal (R157, R222). -/
theorem legalTable_compatTable {p : Params} (hp : paramsAdmissible p = true) (bits : Bitset) {m : Memory}
    (h : LegalTable p m) : LegalTable p (compatTable bits m) := by
  rw [compatTable_eq]
  refine legalTable_foldl ?_ h
  rw [compatWrites, List.forall_mem_map]
  exact fun q hq => ⟨inCatalog_compatId hp hq, valueFits_halfOfBit _⟩

theorem legal_execInit {s t : State} (h : s.legal = true) (hi : execInit s = .next t) : t.legal = true := by
  obtain ⟨⟨hp, ht, hx, ho, hpast, hw⟩, hb⟩ := legal_iff.mp h
  rcases execInit_next hi with rfl | ⟨ready, boot, -, rfl⟩
  · exact h
  · have ht' := legalTable_compatTable hp (initCompat s) (tableLegal_iff.mp ht)
    generalize compatTable (initCompat s) s.mem = m at ht' ⊢
    exact legal_iff.mpr ⟨⟨hp, tableLegal_iff.mpr ht', hx, ho, hpast, hw⟩, hb⟩

theorem busy_stepping {s : State} (o : OpenOp) {a b : Agent} (picks : Picks) (hne : b ≠ a) :
    (s.stepping o a picks).busy b = s.busy b := by
  rw [Bool.eq_iff_iff]
  simp only [State.busy, stepping_opens, List.any_filter, List.any_eq_true, Bool.and_eq_true, Bool.not_eq_true', decide_eq_true_eq,
    decide_eq_false_iff_not]
  constructor
  · rintro ⟨x, hx, -, hb⟩
    exact ⟨x, hx, hb⟩
  · rintro ⟨x, hx, hb⟩
    exact ⟨x, hx, fun ha => hne (hb.symm.trans ha), hb⟩

/-- The state in which an agent moves is sound: the older values left by others are those of operations that stay in progress. -/
theorem sound_stepping {s : State} (o : OpenOp) (a : Agent) (picks : Picks) (h : s.legal = true) : Sound (s.stepping o a picks) := by
  obtain ⟨⟨hp, ht, hx, ho, hpast, -⟩, hb⟩ := legal_iff.mp h
  refine ⟨hp, ht, hx, fun x hx => ho x (List.mem_of_mem_filter hx), hpast, fun e he => ?_⟩
  by_cases hw : e.writer = a
  · exact .inr hw
  · exact .inl ((busy_stepping o picks hw).trans (hb e he))

theorem microLegal_shareRead {p : Params} {m : Micro} (id : VarId) (v : Half) (h : microLegal p m = true) :
    microLegal p (shareRead id v m) = true := by
  cases m with
  | enc dst e =>
    simp only [shareRead]
    split <;> rfl
  | _ => exact h

theorem stepsAfter_legal {p : Params} (m : Micro) (s : State) {todo : List Micro} (h : ∀ x ∈ todo, microLegal p x = true) :
    ∀ x ∈ stepsAfter m s todo, microLegal p x = true := by
  cases m with
  | enc dst e =>
    rw [stepsAfter, List.forall_mem_map]
    exact fun x hx => microLegal_shareRead _ _ (h x hx)
  | _ => exact h

/-- An agent's advance of its operation keeps a state legal (R7, R38). -/
theorem legal_advanceOp {s t : State} {a : Agent} {k : Nat} {picks : Picks} (h : s.legal = true)
    (ha : advanceOp a k picks s = .next t) : t.legal = true := by
  rcases advanceOp_cases ha with ⟨-, rfl⟩ | ⟨o, ho, hcase⟩
  · exact h
  have hs := sound_stepping o a picks h
  have htodo : ∀ m ∈ o.todo, microLegal s.params m = true := (sound_of_legal h).opens o (List.mem_of_find?_eq_some ho)
  rcases hcase with ⟨id, rfl⟩ | rfl | ⟨j, m, u, hj, hu, rfl⟩
  · refine legal_hold (s := (s.stepping o a picks).seeVar id) o.fin ?_ (sound_seeVar id hs)
    rw [List.forall_mem_map]
    exact fun m hm => microLegal_shareRead _ _ (htodo m hm)
  · exact legal_finishOp o.fin hs
  · obtain rfl := execMicro_next hu
    have hwho : (runMicro m (s.stepping o a picks)).who = a := runMicro_who m _
    have hleft : ∀ x ∈ stepsAfter m (s.stepping o a picks) (o.todo.eraseIdx j), microLegal s.params x = true :=
      stepsAfter_legal m _ fun x hx => htodo x (List.mem_of_mem_eraseIdx hx)
    have := legal_hold o.fin (s := runMicro m (s.stepping o a picks)) (by simpa using hleft)
      (sound_runMicro (htodo m (List.mem_of_getElem? hj)) hs)
    rwa [hwho] at this

/-- Settles O47, by the cases of a step. -/
theorem stepKeepsTheStateLegal : Obligations.StepKeepsTheStateLegal := by
  unfold Obligations.StepKeepsTheStateLegal
  intro s t h hstep
  cases step_moves hstep with
  | init hi => exact legal_execInit h hi
  | stays => exact h
  | advances turns a k picks ha => exact legal_advanceOp (s := { s with turns := turns }) h ha
  | runs turns who buf picks hp he =>
    rcases exec_next hp he with he | ⟨s', todo, fin, hb, rfl⟩
    · exact legal_endsAtOnce he h
    · obtain ⟨hs, -, htodo⟩ := sound_begun hb (sound_of_legal h)
      exact legal_finishOp fin (sound_runMicros htodo hs)
  | begins turns who buf picks hp he =>
    rcases beginInstr_next hp he with he | ⟨s', todo, fin, hb, rfl⟩
    · exact legal_endsAtOnce he h
    · obtain ⟨hs, hwho, htodo⟩ := sound_begun hb (sound_of_legal h)
      exact hwho ▸ legal_hold fin htodo hs
  | line turns hm => exact legal_lineMoves hm h

end Sys2Proof.Proofs
end

section
/-! PROOFS. The invariant of the loop's control (R8, R37, R167, R168, R222, R230): each shared operation keeps it, and so does every step. -/

namespace Sys2Proof.Proofs

open Sys2Proof.Machine Sys2Proof.Laws

/-! ## A legal control -/

/-- A legal control, clause by clause. -/
structure Controlled (s : State) : Prop where
  enReady : s.en = true → s.ready = true
  liveReady : s.loop ≠ .stopped → s.ready = true
  stopped : s.loop = .stopped → s.atHead = false ∧ s.checkAtA = false
  oneDispatch : s.opens.countP (fun o => isDispatchFinish o.fin) ≤ 1
  lineDispatch : ∀ o ∈ s.opens, isLineDispatch o = true → s.loop = .dispatching ∧ s.atHead = false

theorem controlLegal_iff {s : State} : s.controlLegal = true ↔ Controlled s := by
  simp only [State.controlLegal, Bool.and_eq_true, Bool.or_eq_true, Bool.not_eq_true', decide_eq_true_eq, List.all_eq_true]
  constructor
  · rintro ⟨⟨⟨⟨he, hl⟩, hs⟩, h1⟩, ho⟩
    exact ⟨by simpa [imp_iff_not_or] using he, by tauto, by tauto, h1, fun o hm hd => by simpa [hd] using ho o hm⟩
  · rintro ⟨he, hl, hs, h1, ho⟩
    refine ⟨⟨⟨⟨by simpa [imp_iff_not_or] using he, by tauto⟩, by tauto⟩, h1⟩, fun o hm => ?_⟩
    by_cases hd : isLineDispatch o = true
    · exact .inr (ho o hm hd)
    · exact .inl (by simpa using hd)

/-- What of the state a legal control depends on. -/
def control (s : State) : Bool × Bool × LoopState × Bool × Bool × List OpenOp :=
  (s.en, s.ready, s.loop, s.atHead, s.checkAtA, s.opens)

theorem controlled_congr {s t : State} (h : Controlled s) (he : control t = control s) : Controlled t := by
  simp only [control, Prod.mk.injEq] at he
  obtain ⟨hen, hready, hloop, hhead, hcheck, hopens⟩ := he
  obtain ⟨h1, h2, h3, h4, h5⟩ := h
  constructor <;> simpa only [hen, hready, hloop, hhead, hcheck, hopens]

theorem isLineDispatch_iff {o : OpenOp} : isLineDispatch o = true ↔ ∃ n, o.fin = .transmit n := by
  unfold isLineDispatch
  cases o.fin <;> simp

/-- The line agent's dispatch is a dispatch. -/
theorem isDispatchFinish_of_line {o : OpenOp} (h : isLineDispatch o = true) : isDispatchFinish o.fin = true := by
  obtain ⟨n, hn⟩ := isLineDispatch_iff.mp h
  rw [hn]
  rfl

/-- The line agent's dispatch is in progress only while LoopState is Dispatching. -/
theorem no_lineDispatch {s : State} (h : Controlled s) (hl : s.loop ≠ .dispatching ∨ s.atHead = true) :
    ∀ o ∈ s.opens, isLineDispatch o = false := by
  intro o ho
  by_contra hd
  obtain ⟨hloop, hhead⟩ := h.lineDispatch o ho (by simpa using hd)
  rcases hl with hl | hl
  · exact hl hloop
  · rw [hhead] at hl
    cases hl

/-- The loop may move as it likes while the line agent has no dispatch in progress, the transport has opened, and a stopped agent stands at no
check point. -/
theorem controlled_loop {s : State} (h : Controlled s) (hn : ∀ o ∈ s.opens, isLineDispatch o = false) {loop : LoopState}
    {atHead checkAtA : Bool} (hr : loop ≠ .stopped → s.ready = true) (hs : loop = .stopped → atHead = false ∧ checkAtA = false) :
    Controlled { s with loop := loop, atHead := atHead, checkAtA := checkAtA } :=
  ⟨h.enReady, hr, hs, h.oneDispatch, fun o ho hd => by rw [hn o ho] at hd; cases hd⟩

theorem controlled_stopLine {s : State} (h : Controlled s) (hn : ∀ o ∈ s.opens, isLineDispatch o = false) : Controlled s.stopLine :=
  controlled_loop h hn (fun hl => absurd rfl hl) fun _ => ⟨rfl, rfl⟩

theorem controlled_toHead {s : State} (h : Controlled s) (hn : ∀ o ∈ s.opens, isLineDispatch o = false) (hl : s.loop ≠ .stopped) :
    Controlled s.toHead :=
  controlled_loop h hn h.liveReady fun hs => absurd hs hl

theorem controlled_raiseFault {s : State} (f : Fault) (h : Controlled s) : Controlled (raiseFault f s) :=
  controlled_congr h (by simp [control])

/-- The line agent is in RxRead. -/
theorem listening_iff {s : State} : s.listening = true ↔ s.loop = .reading ∧ s.atHead = false := by
  simp [State.listening]

/-- The line agent is in TxWrite. -/
theorem transmitting_iff {s : State} : s.transmitting = true ↔ s.loop = .writing ∧ s.atHead = false := by
  simp [State.transmitting]

/-- A line agent in RxRead has no dispatch in progress. -/
theorem no_lineDispatch_of_listening {s : State} (h : Controlled s) (hl : s.listening = true) :
    ∀ o ∈ s.opens, isLineDispatch o = false := by
  obtain ⟨hl, -⟩ := listening_iff.mp hl
  exact no_lineDispatch h (.inl (by simp [hl]))

/-- A line agent in RxRead may go on to dispatch. -/
theorem controlled_dispatching {s : State} (h : Controlled s) (hl : s.listening = true) :
    Controlled { s with loop := .dispatching } := by
  obtain ⟨hloop, hhead⟩ := listening_iff.mp hl
  exact controlled_loop h (no_lineDispatch_of_listening h hl) (fun _ => h.liveReady (by simp [hloop])) fun hs => by cases hs

/-! ## Operations that begin, move and end -/

/-- An operation with this completion may be in progress, or end: no other dispatch is in progress where it is one, and the line agent's runs while
LoopState is Dispatching. -/
structure FitsLoop (s : State) (fin : Finish) : Prop where
  single : isDispatchFinish fin = true → s.dispatchOpen = false
  line : ∀ n, fin = .transmit n → s.loop = .dispatching ∧ s.atHead = false

/-- The completion of an operation that is no dispatch fits. -/
theorem fitsLoop_of_not_dispatch {s : State} {fin : Finish} (h : isDispatchFinish fin = false) : FitsLoop s fin := by
  refine ⟨fun hd => absurd hd (by simp [h]), fun n hn => ?_⟩
  rw [hn] at h
  cases h

theorem dispatchOpen_false_iff {s : State} : s.dispatchOpen = false ↔ s.opens.countP (fun o => isDispatchFinish o.fin) = 0 := by
  simp [State.dispatchOpen, List.countP_eq_zero]

/-- An operation that fits may be left in progress. -/
theorem controlled_hold {s : State} {fin : Finish} (a : Agent) (todo : List Micro) (h : Controlled s) (hf : FitsLoop s fin) :
    Controlled (s.hold a todo fin) where
  enReady := h.enReady
  liveReady := h.liveReady
  stopped := h.stopped
  oneDispatch := by
    have h1 := h.oneDispatch
    rw [hold_opens, List.countP_append, List.countP_singleton]
    cases hd : isDispatchFinish fin with
    | false => simpa [hd] using h1
    | true => simp [dispatchOpen_false_iff.mp (hf.single hd)]
  lineDispatch o ho hd := by
    rw [hold_opens, List.mem_append, List.mem_singleton] at ho
    rcases ho with ho | rfl
    · exact h.lineDispatch o ho hd
    · obtain ⟨n, hn⟩ := isLineDispatch_iff.mp hd
      exact hf.line n hn

/-- An operation that fits may end: the line agent's goes on to TxWrite, with no other dispatch in progress (R167). -/
theorem controlled_finishOp {s : State} {fin : Finish} (h : Controlled s) (hf : FitsLoop s fin) : Controlled (finishOp fin s) := by
  cases fin with
  | transmit n =>
    obtain ⟨hloop, -⟩ := hf.line n rfl
    have hfree : ∀ o ∈ s.opens, isLineDispatch o = false := fun o ho => by
      by_contra hd
      have := isDispatchFinish_of_line (by simpa using hd)
      have hopen := hf.single rfl
      simp only [State.dispatchOpen, List.any_eq_false] at hopen
      exact hopen o ho this
    have hc := controlled_loop (loop := .writing) (atHead := s.atHead) (checkAtA := s.checkAtA) h hfree
      (fun _ => h.liveReady (by simp [hloop])) fun hs => by cases hs
    exact controlled_congr hc rfl
  | _ => exact controlled_congr h rfl

/-- Single-variable steps leave the control, and what fits it, alone. -/
theorem controlled_runMicros {s : State} {fin : Finish} (ms : List Micro) (h : Controlled s) (hf : FitsLoop s fin) :
    Controlled (runMicros ms s) ∧ FitsLoop (runMicros ms s) fin := by
  obtain ⟨_, _, _, _, _, hms⟩ := runMicros_frame ms s
  rw [hms]
  exact ⟨controlled_congr h rfl, ⟨hf.single, hf.line⟩⟩

/-- An operation begins in a state with a legal control, and fits it (R170, R230). -/
theorem controlled_begun {s s' : State} {todo : List Micro} {fin : Finish} (hb : Begun s s' todo fin) (h : Controlled s) :
    Controlled s' ∧ FitsLoop s' fin := by
  have keeps : ∀ b rx acc n, Controlled { s with b := b, rx := rx, acc := acc, freeCount := n } :=
    fun _ _ _ _ => controlled_congr h rfl
  cases hb with
  | store n hid hv => exact ⟨keeps _ _ _ _, fitsLoop_of_not_dispatch rfl⟩
  | decodes hd hl => exact ⟨keeps _ _ _ _, fitsLoop_of_not_dispatch rfl⟩
  | encodes hd hl => exact ⟨keeps _ _ _ _, fitsLoop_of_not_dispatch rfl⟩
  | dispatches hp hl hfree => exact ⟨keeps _ _ _ _, ⟨fun _ => hfree, fun n hn => by cases hn⟩⟩
  | serves hp hl hfree hlisten =>
    have hc := controlled_dispatching h hlisten
    exact ⟨controlled_congr hc rfl,
      ⟨fun _ => hfree, fun n _ => ⟨rfl, (listening_iff.mp hlisten).2⟩⟩⟩
  | stores bits => exact ⟨h, fitsLoop_of_not_dispatch rfl⟩
  | loads ls hfin => exact ⟨keeps _ _ _ _, fitsLoop_of_not_dispatch (by rcases hfin with rfl | rfl <;> rfl)⟩

/-- The operation that moves, taken out of those in progress, fits the control that is left. -/
theorem controlled_stepping {s : State} {o : OpenOp} {a : Agent} (picks : Picks)
    (ho : s.opens.find? (fun x => decide (x.agent = a)) = some o) (h : Controlled s) :
    Controlled (s.stepping o a picks) ∧ FitsLoop (s.stepping o a picks) o.fin := by
  have hmem := List.mem_of_find?_eq_some ho
  have hagent : o.agent = a := by simpa using List.find?_some ho
  have hone := h.oneDispatch
  rw [List.countP_eq_countP_filter_add s.opens _ fun x : OpenOp => !decide (x.agent = a)] at hone
  refine ⟨⟨h.enReady, h.liveReady, h.stopped, by rw [stepping_opens]; omega,
    fun x hx => h.lineDispatch x (List.mem_of_mem_filter hx)⟩, fun hd => ?_, fun n hn => ?_⟩
  · have hpos : 0 < (s.opens.filter fun x => !!decide (x.agent = a)).countP fun x => isDispatchFinish x.fin :=
      List.countP_pos_iff.mpr ⟨o, List.mem_filter.mpr ⟨hmem, by simp [hagent]⟩, hd⟩
    rw [dispatchOpen_false_iff, stepping_opens]
    omega
  · exact h.lineDispatch o hmem (isLineDispatch_iff.mpr ⟨n, hn⟩)

/-- An agent's advance of its operation keeps the control legal (R7, R38). -/
theorem controlled_advanceOp {s t : State} {a : Agent} {k : Nat} {picks : Picks} (h : Controlled s)
    (ha : advanceOp a k picks s = .next t) : Controlled t := by
  rcases advanceOp_cases ha with ⟨-, rfl⟩ | ⟨o, ho, hcase⟩
  · exact h
  obtain ⟨hc, hf⟩ := controlled_stepping picks ho h
  rcases hcase with ⟨id, rfl⟩ | rfl | ⟨j, m, u, hj, hu, rfl⟩
  · exact controlled_hold (s := (s.stepping o a picks).seeVar id) a _
      (controlled_congr hc rfl) ⟨hf.single, hf.line⟩
  · exact controlled_finishOp hc hf
  · obtain rfl := execMicro_next hu
    obtain ⟨hc', hf'⟩ := controlled_runMicros [m] hc hf
    exact controlled_hold a _ hc' hf'

/-! ## Steps -/

theorem controlled_endsAtOnce {s t : State} (he : EndsAtOnce s t) (h : Controlled s) : Controlled t := by
  cases he with
  | faults f => exact controlled_raiseFault f h
  | enables hr hl r =>
    have hc := controlled_loop (loop := .reading) (atHead := true) (checkAtA := false) h (no_lineDispatch h (.inl (by simp [hl])))
      (fun _ => hr) fun hs => by cases hs
    exact ⟨fun _ => hr, hc.liveReady, hc.stopped, hc.oneDispatch, hc.lineDispatch⟩
  | disables r => exact ⟨fun he => absurd he Bool.false_ne_true, h.liveReady, h.stopped, h.oneDispatch, h.lineDispatch⟩
  | stops hl => exact controlled_stopLine h (no_lineDispatch_of_listening h hl)
  | lineFaults f hl => exact controlled_raiseFault f (controlled_dispatching h hl)
  | noMatch hl =>
    have hc := controlled_toHead (controlled_dispatching h hl) (no_lineDispatch_of_listening (s := s) h hl) (fun hs => by cases hs)
    exact controlled_congr hc rfl
  | _ => exact controlled_congr h rfl

theorem controlled_lineMoves {s t : State} (hm : LineMoves s t) (h : Controlled s) : Controlled t := by
  cases hm with
  | stays => exact h
  | stops hh => exact controlled_stopLine h (no_lineDispatch h (.inr hh))
  | reads checks hl hh =>
    exact controlled_loop h (no_lineDispatch h (.inr hh)) (fun _ => h.liveReady hl) fun hs => by cases hs
  | sends ht =>
    obtain ⟨hl, -⟩ := transmitting_iff.mp ht
    have hc := controlled_toHead h (no_lineDispatch h (.inl (by simp [hl]))) (by simp [hl])
    exact controlled_congr hc rfl
  | fails stops e hl =>
    have hloop : s.loop ≠ .dispatching ∧ s.loop ≠ .stopped := by
      rcases hl with hl | hl
      · simp [(listening_iff.mp hl).1]
      · simp [(transmitting_iff.mp hl).1]
    have hn := no_lineDispatch h (.inl hloop.1)
    have hr : Controlled (s.record e) := controlled_congr h rfl
    cases stops with
    | true => exact controlled_stopLine hr hn
    | false => exact controlled_toHead hr hn hloop.2

/-- Initialisation writes no more of the control than READY, which it sets (R222). -/
theorem controlled_execInit {s t : State} (h : Controlled s) (hi : execInit s = .next t) : Controlled t := by
  rcases execInit_next hi with rfl | ⟨ready, boot, hr, rfl⟩
  · exact controlled_congr h rfl
  · generalize compatTable (initCompat s) s.mem = m
    exact ⟨fun he => hr (h.enReady he), fun hl => hr (h.liveReady hl), h.stopped, h.oneDispatch, h.lineDispatch⟩

/-- Settles O49, by the cases of a step. -/
theorem stepKeepsTheControlLegal : Obligations.StepKeepsTheControlLegal := by
  unfold Obligations.StepKeepsTheControlLegal
  intro s t h hstep
  rw [controlLegal_iff] at h ⊢
  have taken : ∀ turns who buf picks, Controlled { s with turns := turns, who := who, b := buf, picks := picks } :=
    fun _ _ _ _ => controlled_congr h rfl
  cases step_moves hstep with
  | init hi => exact controlled_execInit h hi
  | stays => exact h
  | advances turns a k picks ha => exact controlled_advanceOp (taken turns s.who s.b s.picks) ha
  | runs turns who buf picks hp he =>
    rcases exec_next hp he with he | ⟨s', todo, fin, hb, rfl⟩
    · exact controlled_endsAtOnce he (taken _ _ _ _)
    · obtain ⟨hc, hf⟩ := controlled_begun hb (taken _ _ _ _)
      obtain ⟨hc', hf'⟩ := controlled_runMicros todo hc hf
      exact controlled_finishOp hc' hf'
  | begins turns who buf picks hp he =>
    rcases beginInstr_next hp he with he | ⟨s', todo, fin, hb, rfl⟩
    · exact controlled_endsAtOnce he (taken _ _ _ _)
    · obtain ⟨hc, hf⟩ := controlled_begun hb (taken _ _ _ _)
      exact controlled_hold _ _ hc hf
  | line turns hm => exact controlled_lineMoves hm (taken turns s.who s.b s.picks)

end Sys2Proof.Proofs
end

section
/-! PROOFS. The refinement by turns (R7, R38): an operation that its agent advances alone, step by step, ends where running it at once ends. An
encode that is advanced reads each cell once and puts what it read for the cell's other elements (R126); alone, each of them would read the
same. -/

namespace Sys2Proof.Proofs

open Sys2Proof.Machine Sys2Proof.Laws

/-! ## Accesses of an agent that runs alone -/

/-- The agent whose turn it is may read no cell's older value: every one that is left is of its own writes. -/
def ReadsNewest (s : State) : Prop := ∀ id, s.unseen id = []

theorem readsNewest_of_past {s : State} (h : s.past = []) : ReadsNewest s := fun id => by simp [State.unseen, h]

theorem readVar_of_readsNewest {s : State} (h : ReadsNewest s) (id : VarId) : s.readVar id = s.getVar id :=
  readVar_plain (depth_of_unseen (h id))

/-- An agent's own write leaves it nothing older to read. -/
theorem readsNewest_setVar {s : State} (id : VarId) (v : Half) (h : ReadsNewest s) : ReadsNewest (s.setVar id v) := by
  intro id'
  by_cases hid : id' = id
  · rw [hid, ← List.length_eq_zero_iff, setVar_unseen_length, depth_of_unseen (h id)]
  · rw [setVar_unseen_other s v hid, h id']

theorem readsNewest_setEncBuf {s : State} (dst : EncBuf) (buf : List Byte) (h : ReadsNewest s) : ReadsNewest (s.setEncBuf dst buf) := by
  cases dst <;> exact h

/-- A read changes nothing where no older value is left to read. -/
theorem encodeElem_of_readsNewest {s : State} (dst : EncBuf) (e : Element) (h : ReadsNewest s) :
    s.encodeElem dst e = s.setEncBuf dst (elementPut (s.encBuf dst) e (s.getVar e.id)) := by
  rw [State.encodeElem, seeVar_of_unseen (h e.id), readVar_of_readsNewest h]

theorem readsNewest_runMicro {s : State} (m : Micro) (h : ReadsNewest s) : ReadsNewest (runMicro m s) := by
  cases m with
  | dec src e => exact readsNewest_setVar _ _ h
  | fill dst addr type len => exact readsNewest_setEncBuf _ _ h
  | enc dst e =>
    show ReadsNewest (s.encodeElem dst e)
    rw [encodeElem_of_readsNewest dst e h]
    exact readsNewest_setEncBuf _ _ h
  | put dst e v => exact readsNewest_setEncBuf _ _ h
  | store id v => exact readsNewest_setVar _ _ h
  | load id slot =>
    show ReadsNewest { s.seeVar id with acc := _ }
    rw [seeVar_of_unseen (h id)]
    exact h

/-! ## Encodes whose cells are read once -/

/-- A step of an encode writes no cell. -/
theorem getVar_encodeStep {m : Micro} (hm : isEncodeStep m = true) (s : State) (id : VarId) : (runMicro m s).getVar id = s.getVar id := by
  cases m with
  | fill dst addr type len => cases dst <;> rfl
  | enc dst e => cases dst <;> rfl
  | put dst e v => cases dst <;> rfl
  | _ => cases hm

theorem isEncodeStep_shareRead (id : VarId) (v : Half) (m : Micro) : isEncodeStep (shareRead id v m) = isEncodeStep m := by
  cases m with
  | enc dst e =>
    simp only [shareRead]
    split <;> rfl
  | _ => rfl

/-- Putting the cell's value is encoding the cell (R126). -/
theorem runMicro_shareRead {s : State} (id : VarId) (m : Micro) (h : ReadsNewest s) :
    runMicro (shareRead id (s.getVar id) m) s = runMicro m s := by
  cases m with
  | enc dst e =>
    simp only [shareRead]
    split
    · next he => exact he ▸ (encodeElem_of_readsNewest dst e h).symm
    · rfl
  | _ => rfl

theorem runMicros_shareRead {s : State} (id : VarId) {ms : List Micro} (hms : ∀ m ∈ ms, isEncodeStep m = true) (h : ReadsNewest s) :
    runMicros (ms.map (shareRead id (s.getVar id))) s = runMicros ms s := by
  induction ms generalizing s with
  | nil => rfl
  | cons m ms ih =>
    rw [List.forall_mem_cons] at hms
    rw [List.map_cons, runMicros_cons, runMicros_cons, runMicro_shareRead id m h, ← getVar_encodeStep hms.1 s id]
    exact ih hms.2 (readsNewest_runMicro m h)

/-! ## Steps that pass their checks -/

/-- The step's element passes the checks of R87 on the buffer it meets; other steps are checked by none. -/
def Passes (s : State) : Micro → Prop
  | .dec src e => elementFails s.params (s.decBuf src).length e = none
  | .enc dst e => elementFails s.params (s.encBuf dst).length e = none
  | .fill _ _ _ _ => True
  | .put _ _ _ => True
  | .store _ _ => True
  | .load _ _ => True

theorem elementFails_none {p : Params} {len : Nat} {e : Element} (hk : e.id.ty = kindType e.kind) (hid : inCatalog p e.id = true)
    (hb : elementInBounds len e = true) : elementFails p len e = none := by
  simp [elementFails, hk, hid, hb]

theorem execMicro_of_passes {s : State} {m : Micro} (h : Passes s m) : execMicro m s = .next (runMicro m s) := by
  cases m with
  | dec src e =>
    obtain ⟨i, hi⟩ := decElem_decodes src e
    simp only [execMicro, hi]
    rw [exec_of_decElem hi, decodeElement, show elementFails _ _ _ = none from h]
    rfl
  | enc dst e =>
    obtain ⟨i, hi⟩ := encElem_decodes dst e
    simp only [execMicro, hi]
    rw [exec_of_encElem hi, encodeElement, show elementFails _ _ _ = none from h]
    rfl
  | _ => rfl

theorem encBuf_length_setEncBuf {s : State} {dst : EncBuf} {buf : List Byte} (hl : buf.length = (s.encBuf dst).length) (dst' : EncBuf) :
    ((s.setEncBuf dst buf).encBuf dst').length = (s.encBuf dst').length := by
  cases dst <;> cases dst'
  exacts [hl, rfl, rfl, hl]

/-- No step changes the length of a buffer (R31, R128). -/
theorem encBuf_length_runMicro (m : Micro) (s : State) (dst : EncBuf) : ((runMicro m s).encBuf dst).length = (s.encBuf dst).length := by
  cases m with
  | dec src e => cases dst <;> rfl
  | fill dst' addr type len => exact encBuf_length_setEncBuf (fillFrame_length _ _ _ _) dst
  | enc dst' e =>
    rw [← encBuf_seeVar s e.id dst]
    exact encBuf_length_setEncBuf ((elementPut_length _ _ _).trans (by rw [encBuf_seeVar])) dst
  | put dst' e v => exact encBuf_length_setEncBuf (elementPut_length _ _ _) dst
  | store id v => cases dst <;> rfl
  | load id slot => cases dst <;> rfl

theorem decBuf_length_runMicro (m : Micro) (s : State) (src : DecBuf) : ((runMicro m s).decBuf src).length = (s.decBuf src).length := by
  cases src with
  | rx =>
    obtain ⟨_, _, _, _, _, h⟩ := runMicro_frame m s
    rw [h]
    rfl
  | b => exact encBuf_length_runMicro m s .b

theorem passes_runMicro {s : State} {m : Micro} (m' : Micro) (h : Passes s m) : Passes (runMicro m' s) m := by
  cases m with
  | dec src e =>
    show elementFails _ _ _ = none
    rw [runMicro_params, decBuf_length_runMicro]
    exact h
  | enc dst e =>
    show elementFails _ _ _ = none
    rw [runMicro_params, encBuf_length_runMicro]
    exact h
  | _ => trivial

theorem passes_shareRead {s : State} {m : Micro} (id : VarId) (v : Half) (h : Passes s m) : Passes s (shareRead id v m) := by
  cases m with
  | enc dst e =>
    simp only [shareRead]
    split
    · trivial
    · exact h
  | _ => exact h

/-! ## Runs of one operation's steps -/

/-- Once the encode has begun nothing but the encode is left (R166). -/
def EncodesLast (todo : List Micro) : Prop := todo.Pairwise fun m m' => isEncodeStep m = true → isEncodeStep m' = true

/-- The remaining steps of an operation that runs alone, in a state where its agent takes them. -/
structure RunsAlone (s : State) (todo : List Micro) : Prop where
  passes : ∀ m ∈ todo, Passes s m
  order : EncodesLast todo
  newest : ReadsNewest s

/-- The steps left after the first, with the cell it read shared, are those that were left, and run to the same state. -/
theorem runsAlone_stepsAfter {s : State} {m : Micro} {ms : List Micro} (h : RunsAlone s (m :: ms)) :
    (stepsAfter m s ms).length = ms.length ∧ RunsAlone (runMicro m s) (stepsAfter m s ms)
      ∧ runMicros (stepsAfter m s ms) (runMicro m s) = runMicros ms (runMicro m s) := by
  obtain ⟨hpass, hord, hnew⟩ := h
  rw [List.forall_mem_cons] at hpass
  rw [EncodesLast, List.pairwise_cons] at hord
  have hpass' : ∀ x ∈ ms, Passes (runMicro m s) x := fun x hx => passes_runMicro m (hpass.2 x hx)
  have hnew' := readsNewest_runMicro m hnew
  cases m with
  | enc dst e =>
    have henc : ∀ x ∈ ms, isEncodeStep x = true := fun x hx => hord.1 x hx rfl
    have hread : s.readVar e.id = (runMicro (.enc dst e) s).getVar e.id := by
      rw [readVar_of_readsNewest hnew, getVar_encodeStep (by rfl)]
    refine ⟨List.length_map _, ⟨?_, ?_, hnew'⟩, ?_⟩
    · rw [stepsAfter, List.forall_mem_map]
      exact fun x hx => passes_shareRead _ _ (hpass' x hx)
    · rw [stepsAfter, EncodesLast, List.pairwise_map]
      simpa only [isEncodeStep_shareRead] using hord.2
    · rw [stepsAfter, hread]
      exact runMicros_shareRead e.id henc hnew'
  | _ => exact ⟨rfl, ⟨hpass', hord.2, hnew'⟩, rfl⟩

/-! ## What happens next does not matter -/

/-- The state with another list of what happens next at the ports. -/
def withTurns (ts : List Turn) (s : State) : State := { s with turns := ts }

/-- The beginning of an operation with another list of what happens next. -/
def startedWithTurns (ts : List Turn) : Started → Started
  | .ended (.next s) => .ended (.next (withTurns ts s))
  | .ended (.fault f) => .ended (.fault f)
  | .ended (.refused r) => .ended (.refused r)
  | .going s todo fin => .going (withTurns ts s) todo fin

theorem withTurns_self (s : State) : withTurns s.turns s = s := rfl

theorem runMicro_withTurns (m : Micro) (ts : List Turn) (s : State) : runMicro m (withTurns ts s) = withTurns ts (runMicro m s) := by
  cases m with
  | fill dst addr type len => cases dst <;> rfl
  | enc dst e => cases dst <;> rfl
  | put dst e v => cases dst <;> rfl
  | _ => rfl

theorem runMicros_withTurns (ms : List Micro) (ts : List Turn) (s : State) :
    runMicros ms (withTurns ts s) = withTurns ts (runMicros ms s) := by
  induction ms generalizing s with
  | nil => rfl
  | cons m ms ih => rw [runMicros_cons, runMicros_cons, runMicro_withTurns, ih]

theorem finishOp_withTurns (fin : Finish) (ts : List Turn) (s : State) : finishOp fin (withTurns ts s) = withTurns ts (finishOp fin s) := by
  cases fin <;> rfl

theorem stepsAfter_withTurns (m : Micro) (ts : List Turn) (s : State) (todo : List Micro) :
    stepsAfter m (withTurns ts s) todo = stepsAfter m s todo := by
  cases m <;> rfl

theorem hold_withTurns (ts : List Turn) (s : State) (a : Agent) (todo : List Micro) (fin : Finish) :
    (withTurns ts s).hold a todo fin = withTurns ts (s.hold a todo fin) := rfl

theorem passes_withTurns {s : State} {m : Micro} (ts : List Turn) (h : Passes s m) : Passes (withTurns ts s) m := by
  cases m with
  | dec src e => cases src <;> exact h
  | enc dst e => cases dst <;> exact h
  | _ => trivial

theorem raiseFault_turns (f : Fault) (s : State) (ts : List Turn) :
    raiseFault f { s with turns := ts } = { raiseFault f s with turns := ts } := by
  unfold raiseFault
  dsimp only
  split <;> rfl

theorem startSet_turns (id : VarId) (v : Half) (s : State) (ts : List Turn) :
    startSet id v { s with turns := ts } = startedWithTurns ts (startSet id v s) := by
  unfold startSet
  dsimp only
  split
  · rfl
  · split <;> rfl

theorem startFrameDecode_turns (t : Byte) (bytes : List Byte) (s : State) (ts : List Turn) :
    startFrameDecode t bytes { s with turns := ts } = startedWithTurns ts (startFrameDecode t bytes s) := by
  unfold startFrameDecode
  simp only [raiseFault_turns]
  split
  · rfl
  · split
    · rfl
    · split
      · rfl
      · split <;> rfl

theorem startFrameEncode_turns (t : Byte) (s : State) (ts : List Turn) :
    startFrameEncode t { s with turns := ts } = startedWithTurns ts (startFrameEncode t s) := by
  unfold startFrameEncode
  dsimp only
  split
  · rfl
  · split
    · rfl
    · split <;> rfl

theorem startDispatch_turns (bytes : List Byte) (s : State) (ts : List Turn) :
    startDispatch bytes { s with turns := ts } = startedWithTurns ts (startDispatch bytes s) := by
  unfold startDispatch
  have hopen : State.dispatchOpen { s with turns := ts } = s.dispatchOpen := rfl
  simp only [raiseFault_turns, hopen]
  split
  · rfl
  · split
    · rfl
    · split
      · rfl
      · split <;> rfl

theorem startLine_turns (bytes : List Byte) (s : State) (ts : List Turn) :
    startLine bytes { s with turns := ts } = startedWithTurns ts (startLine bytes s) := by
  unfold startLine
  have hl : State.listening { s with turns := ts } = s.listening := rfl
  have hopen : State.dispatchOpen { s with turns := ts, loop := .dispatching } = State.dispatchOpen { s with loop := .dispatching } := rfl
  have hraise := fun f => raiseFault_turns f { s with loop := .dispatching } ts
  dsimp only at hraise
  simp only [hl, hraise, hopen]
  split
  · rfl
  · split
    · rfl
    · split
      · rfl
      · split
        · rfl
        · split
          · rfl
          · split <;> rfl

theorem startCompatHex_turns (str : List Byte) (s : State) (ts : List Turn) :
    startCompatHex str { s with turns := ts } = startedWithTurns ts (startCompatHex str s) := by
  unfold startCompatHex
  split <;> rfl

theorem startLsIndication_turns (c : Byte) (s : State) (ts : List Turn) :
    startLsIndication c { s with turns := ts } = startedWithTurns ts (startLsIndication c s) := by
  unfold startLsIndication
  dsimp only
  split
  · split <;> rfl
  · rfl

theorem startDetCallOr_turns (d : Byte) (results : List Bool) (s : State) (ts : List Turn) :
    startDetCallOr d results { s with turns := ts } = startedWithTurns ts (startDetCallOr d results s) := by
  unfold startDetCallOr
  dsimp only
  split
  · split
    · rfl
    · split <;> rfl
  · rfl

/-- How an operation begins does not depend on what happens next at the ports. -/
theorem startOf_withTurns {i : Instr} {s : State} {st : Started} (ts : List Turn) (h : startOf i s = some st) :
    startOf i (withTurns ts s) = some (startedWithTurns ts st) := by
  cases i <;> simp only [startOf, Option.some.injEq, reduceCtorEq] at h ⊢ <;> subst h
  case set id v => exact startSet_turns id v s ts
  case frameDecode t bytes => exact startFrameDecode_turns t bytes s ts
  case frameEncode t => exact startFrameEncode_turns t s ts
  case dispatch bytes => exact startDispatch_turns bytes s ts
  case compatSetBitset bits => rfl
  case compatGetBitset => rfl
  case compatSetHex str => exact startCompatHex_turns str s ts
  case compatZero => rfl
  case compatDefault => rfl
  case lsIndication c => exact startLsIndication_turns c s ts
  case detCallOr d results => exact startDetCallOr_turns d results s ts
  all_goals exact startLine_turns _ s ts

/-! ## The agent's advances -/

theorem run_succ_of_next {s t : State} (n : Nat) (h : step s = .next t) : Sys2Proof.core.run (n + 1) s = Sys2Proof.core.run n t := by
  have h' : Sys2Proof.core.step s = .next t := h
  simp only [Host.Core.run, h']

/-- The step is the first of the turns, taken off. -/
theorem step_withTurns {s : State} (hf : s.fault = none) (hb : s.boot ≠ .pending) (turn : Turn) (ts : List Turn) :
    step (withTurns (turn :: ts) s) = takeTurn turn (withTurns (turn :: ts) s) (withTurns ts s) :=
  step_of_turn (s := withTurns (turn :: ts) s) hf hb rfl

/-- The operation that an agent left in progress alone is the one it advances. -/
theorem find_hold {s : State} (ho : s.opens = []) (todo : List Micro) (fin : Finish) (ts : List Turn) :
    (withTurns ts (s.hold s.who todo fin)).opens.find? (fun x => decide (x.agent = s.who))
      = some ⟨s.who, todo, fin, s.b, s.acc⟩ := by
  simp [withTurns, ho]

/-- An agent that runs alone takes its operation up in the state in which it left it. -/
theorem stepping_hold {s : State} (ho : s.opens = []) (hp : s.picks = []) (todo : List Micro) (fin : Finish) (ts : List Turn) :
    (withTurns ts (s.hold s.who todo fin)).stepping ⟨s.who, todo, fin, s.b, s.acc⟩ s.who [] = withTurns ts s := by
  simp [State.stepping, State.hold, withTurns, ho, hp]

section
variable {s : State} (ts : List Turn) (fin : Finish) (hf : s.fault = none) (hb : s.boot ≠ .pending) (ho : s.opens = []) (hp : s.picks = [])
include hf hb ho hp

/-- With no step left the operation is completed. -/
theorem step_completes :
    step (withTurns (.advance s.who 0 [] :: ts) (s.hold s.who [] fin)) = .next (withTurns ts (finishOp fin s)) := by
  rw [step_withTurns (s := s.hold s.who _ fin) hf hb, takeTurn, advanceOp_last (o := ⟨s.who, [], fin, s.b, s.acc⟩) 0 (find_hold ho [] fin ts) rfl,
    stepping_hold ho hp, finishOp_withTurns]

/-- The first of the steps left is taken, and the rest stays in progress. -/
theorem step_advances {m : Micro} {ms : List Micro} (hm : Passes s m) :
    step (withTurns (.advance s.who 0 [] :: ts) (s.hold s.who (m :: ms) fin))
      = .next (withTurns ts ((runMicro m s).hold s.who (stepsAfter m s ms) fin)) := by
  rw [step_withTurns (s := s.hold s.who _ fin) hf hb, takeTurn,
    advanceOp_first (o := ⟨s.who, m :: ms, fin, s.b, s.acc⟩) (find_hold ho (m :: ms) fin ts) rfl,
    stepping_hold ho hp, execMicro_of_passes (passes_withTurns ts hm), holdRest_next, runMicro_withTurns, stepsAfter_withTurns,
    hold_withTurns]

end

/-- As many advances of agent `a` as stand here, and nothing else, happen next at the ports. -/
def advances (a : Agent) (n : Nat) : List Turn := List.replicate n (.advance a 0 [])

/-- An agent that advances its operation alone, one step for each that is left and one for the completion, reaches the state that the steps and the
completion make at once (R7, R38). -/
theorem run_advances {s : State} {todo : List Micro} (fin : Finish) (hf : s.fault = none) (hb : s.boot ≠ .pending) (ho : s.opens = [])
    (hp : s.picks = []) (h : RunsAlone s todo) :
    Sys2Proof.core.run (todo.length + 1) (withTurns (advances s.who (todo.length + 1)) (s.hold s.who todo fin))
      = .next (withTurns [] (finishOp fin (runMicros todo s))) := by
  induction hn : todo.length generalizing s todo with
  | zero =>
    obtain rfl := List.length_eq_zero_iff.mp hn
    exact run_succ_of_next 0 (step_completes [] fin hf hb ho hp)
  | succ n ih =>
    obtain ⟨m, ms, rfl⟩ := List.exists_cons_of_length_eq_add_one hn
    obtain ⟨hlen, hrest, hrun⟩ := runsAlone_stepsAfter h
    obtain ⟨_, _, _, _, _, hm⟩ := runMicro_frame m s
    have hleft := ih (s := runMicro m s) (by rw [hm]; exact hf) (by rw [hm]; exact hb) (by rw [hm]; exact ho) (by rw [hm]; exact hp) hrest
      (hlen.trans (Nat.succ.inj hn))
    rw [runMicro_who, hrun] at hleft
    exact (run_succ_of_next _ (step_advances _ fin hf hb ho hp (h.passes m List.mem_cons_self))).trans hleft

/-! ## Operations that begin where nothing is in progress -/

theorem passes_decodeMicros {s : State} {src : DecBuf} {t : Byte} {d : FrameDef} (hp : paramsAdmissible s.params = true)
    (hd : frameOf s.params t = some d) (hl : d.len ≤ (s.decBuf src).length) : ∀ m ∈ decodeMicros src d, Passes s m := by
  obtain ⟨-, -, hb, hk, hc⟩ := frameOf_wf (paramsWf_of_admissible hp) hd
  rw [decodeMicros, List.forall_mem_map]
  exact fun e he => elementFails_none (hk e he) (hc e he) (inBounds_mono hl (hb e he))

theorem passes_encodeMicros {s : State} {dst : EncBuf} {t : Byte} {d : FrameDef} (hp : paramsAdmissible s.params = true)
    (hd : frameOf s.params t = some d) (hl : d.len ≤ (s.encBuf dst).length) : ∀ m ∈ encodeMicros dst d, Passes s m := by
  obtain ⟨-, -, hb, hk, hc⟩ := frameOf_wf (paramsWf_of_admissible hp) hd
  rw [encodeMicros, List.forall_mem_cons, List.forall_mem_map]
  exact ⟨trivial, fun e he => elementFails_none (hk e he) (hc e he) (inBounds_mono hl (hb e he))⟩

theorem decodeMicros_no_encode (src : DecBuf) (d : FrameDef) : ∀ m ∈ decodeMicros src d, isEncodeStep m = false := by
  rw [decodeMicros, List.forall_mem_map]
  exact fun _ _ => rfl

theorem encodeMicros_encode (dst : EncBuf) (d : FrameDef) : ∀ m ∈ encodeMicros dst d, isEncodeStep m = true := by
  rw [encodeMicros, List.forall_mem_cons, List.forall_mem_map]
  exact ⟨rfl, fun _ _ => rfl⟩

/-- Steps that are no encode's, then the steps of an encode, stand in order (R166). -/
theorem encodesLast_append {ms es : List Micro} (hms : ∀ m ∈ ms, isEncodeStep m = false) (hes : ∀ m ∈ es, isEncodeStep m = true) :
    EncodesLast (ms ++ es) := by
  rw [EncodesLast, List.pairwise_append]
  refine ⟨List.pairwise_of_forall_mem_list fun m hm _ _ he => ?_, List.pairwise_of_forall_mem_list fun _ _ m hm _ => hes m hm,
    fun _ _ m hm _ => hes m hm⟩
  rw [hms m hm] at he
  cases he

theorem encodesLast_of_no_encode {ms : List Micro} (hms : ∀ m ∈ ms, isEncodeStep m = false) :
    EncodesLast ms := by
  simpa using encodesLast_append hms (es := []) (by simp)

theorem encodesLast_of_encode {es : List Micro} (hes : ∀ m ∈ es, isEncodeStep m = true) :
    EncodesLast es :=
  encodesLast_append (ms := []) (by simp) hes

/-- A matched dispatch's steps: the command fits the frame that came, and the response the buffer TX (R31, R163). -/
theorem runsAlone_dispatchMicros {s : State} {t : Byte} {c r : FrameDef} (h : Sound s) (hn : ReadsNewest s)
    (hpair : pairOf s.params t = some (c, r)) (hl : c.len ≤ s.rx.length) : RunsAlone s (dispatchMicros c r) := by
  obtain ⟨hc, hr, -, hdir, -⟩ := pairOf_some (paramsWf_of_admissible h.params) hpair
  have hlen : r.len ≤ s.tx.length := h.tx ▸ len_le_respBufLen (frameOf_mem hr).1 hdir
  refine ⟨?_, encodesLast_append (decodeMicros_no_encode _ _) (encodeMicros_encode _ _), hn⟩
  rw [dispatchMicros, List.forall_mem_append]
  exact ⟨passes_decodeMicros h.params hc hl, passes_encodeMicros h.params hr hlen⟩

/-- An operation that begins where no older value is left runs alone, in a state that differs in no field that turns read. -/
theorem runsAlone_begun {s s' : State} {todo : List Micro} {fin : Finish} (hb : Begun s s' todo fin) (h : Sound s) (hpast : s.past = []) :
    RunsAlone s' todo ∧ s'.fault = s.fault ∧ s'.boot = s.boot ∧ s'.opens = s.opens ∧ s'.picks = s.picks
      ∧ s'.turns = s.turns := by
  obtain ⟨hs, -, -⟩ := sound_begun hb h
  have hnew : ReadsNewest s' := readsNewest_of_past (by cases hb <;> exact hpast)
  refine ⟨?_, by cases hb <;> exact ⟨rfl, rfl, rfl, rfl, rfl⟩⟩
  cases hb with
  | store n hid hv => exact ⟨by simp [Passes], List.pairwise_singleton _ _, hnew⟩
  | decodes hd hl => exact ⟨passes_decodeMicros hs.params hd hl, encodesLast_of_no_encode (decodeMicros_no_encode _ _), hnew⟩
  | encodes hd hl => exact ⟨passes_encodeMicros hs.params hd hl.ge, encodesLast_of_encode (encodeMicros_encode _ _), hnew⟩
  | dispatches hp hl hfree => exact runsAlone_dispatchMicros hs hnew hp hl
  | serves hp hl hfree hlisten => exact runsAlone_dispatchMicros hs hnew hp hl
  | stores bits =>
    refine ⟨?_, encodesLast_of_no_encode ?_, hnew⟩
    all_goals
      rw [compatStores, List.forall_mem_map]
      intro q hq
    · trivial
    · rfl
  | loads ls hfin =>
    refine ⟨?_, encodesLast_of_no_encode ?_, hnew⟩
    all_goals
      rw [List.forall_mem_map]
      intro l hl
    · trivial
    · rfl

/-- An instruction that is begun alone and then advanced to its end reaches the state that it reaches at once (R7, R38). -/
theorem begun_and_advanced {i : Instr} {s t : State} (hl : s.legal = true) (hf : s.fault = none) (hb : s.boot ≠ .pending)
    (ho : s.opens = []) (hp : s.picks = []) (ht : s.turns = []) (he : exec i s = .next t) :
    ∃ n u, beginInstr i (withTurns (advances s.who n) s) = .next u ∧ Sys2Proof.core.run n u = .next t := by
  have hs : withTurns (advances s.who 0) s = s := by
    rw [advances, List.replicate_zero, ← ht, withTurns_self]
  cases hstart : startOf i s with
  | none => exact ⟨0, t, by rw [hs, beginInstr_of_none hstart, he], rfl⟩
  | some st =>
    rw [exec_of_start hstart] at he
    cases startOf_beginning hstart with
    | refused r => cases he
    | ended hend => exact ⟨0, t, by rw [hs, beginInstr_of_start hstart]; exact he, rfl⟩
    | @going s' todo fin hbegun =>
      obtain ⟨halone, hf', hb', ho', hp', ht'⟩ := runsAlone_begun hbegun (sound_of_legal hl) (past_of_legal hl ho)
      obtain ⟨-, hwho, -⟩ := sound_begun hbegun (sound_of_legal hl)
      have hrun := run_advances fin (hf'.trans hf) (hb' ▸ hb) (ho'.trans ho) (hp'.trans hp) halone
      have hend : withTurns [] (finishOp fin (runMicros todo s')) = t := by
        rw [← finishOp_withTurns, ← runMicros_withTurns, ← ht, ← ht', withTurns_self]
        exact Host.Outcome.next.inj he
      rw [hwho, hend] at hrun
      refine ⟨todo.length + 1, _, ?_, hrun⟩
      rw [beginInstr_of_start (startOf_withTurns _ hstart)]
      rfl

/-- Settles O51, for a host agent's operation and for the line agent's dispatch by the same lemma. -/
theorem steppedOperationAloneIsTheOperation : Obligations.SteppedOperationAloneIsTheOperation := by
  unfold Obligations.SteppedOperationAloneIsTheOperation
  intro s t i hl hf hb ho ht
  refine ⟨fun a bytes buf hd he => ?_, fun bytes hd he => ?_⟩
  · obtain ⟨n, u, hbegin, hrun⟩ := begun_and_advanced (s := { s with who := .host a, b := buf, picks := [] }) hl hf hb ho rfl ht he
    have hstep := (step_withTurns hf hb (.hostBegin a bytes buf []) (advances (.host a) n)).trans
      (takeTurn_hostBegin buf [] (by simp [State.busy, withTurns, ho]) hd)
    exact ⟨n, (run_succ_of_next n (hstep.trans hbegin)).trans hrun⟩
  · obtain ⟨n, u, hbegin, hrun⟩ := begun_and_advanced (s := { s with who := .line, picks := [] }) hl hf hb ho rfl ht he
    obtain rfl := decode_line_iff.mp hd
    have hstep := step_withTurns hf hb (.rxBegin bytes) (advances .line n)
    exact ⟨n, (run_succ_of_next n (hstep.trans hbegin)).trans hrun⟩

end Sys2Proof.Proofs
end

section
/-! PROOFS. Operations that run from beginning to end with every access at the end of its cell's order (R65): what SET, DET_CALL_OR, the frame
operations and the packer leave in the table, in the buffers and at their agent. -/

namespace Sys2Proof.Proofs

open Sys2Proof.Machine Sys2Proof.Laws

/-! ## One write -/

/-- An operation whose one step is a plain write changes the table by that write, and answers OK (R59, R60). -/
theorem finishOp_store {s : State} {id : VarId} (v : Half) (h : s.depth id = 0) :
    finishOp .replyOk (runMicros [.store id v] s)
      = { s with mem := s.mem.set id v, past := settlePast s.who (s.setVar id v).past, replies := (s.who, .ok) :: s.replies } := by
  show ((s.setVar id v).settle).reply .ok = _
  rw [setVar_plain_eq v h]
  rfl

/-- Settles O12. -/
theorem setWritesTheCell : Obligations.SetWritesTheCell := by
  unfold Obligations.SetWritesTheCell
  intro s id v hm hd hid hv
  have hrun := exec_of_start (i := .set id v) (congrArg some (startSet_going hid (decide_eq_true hv)))
  have hpast := finishOp_runMicros_past .replyOk [.store id v] (s := s)
  rw [runStarted_going] at hrun
  rw [finishOp_store v hd] at hrun hpast
  exact ⟨_, hrun, rfl, get_set_self id v hm, fun id' hne => get_set_other v hne, hpast⟩

/-- The OR of the results, as the call cell's value (R181). -/
theorem halfOfBit_any (results : List Bool) : halfOfBit (results.any id) = if true ∈ results then 1 else 0 := by
  have h : results.any id = decide (true ∈ results) := by simp [List.any_eq]
  rw [h]
  by_cases ht : true ∈ results <;> simp only [ht, decide_true, decide_false, if_true, if_false] <;> rfl

/-- Settles O44, by whether the results are as many as the detector has sensors. -/
theorem detCallIsTheOrOfTheResults : Obligations.DetCallIsTheOrOfTheResults := by
  unfold Obligations.DetCallIsTheOrOfTheResults
  intro s d results hm h1 h64 hd hid
  by_cases hn : results.length = detCount s.cfg d.toNat
  · have hrun := exec_of_start (i := .detCallOr d results) (congrArg some (startDetCallOr_going h1 h64 hid hn))
    rw [runStarted_going, finishOp_store _ hd, halfOfBit_any] at hrun
    refine ⟨_, hrun, rfl, fun id hne => get_set_other _ hne, fun _ => ⟨rfl, fun ht => ?_, fun ht => ?_⟩, fun hne => absurd hn hne⟩
    · exact (get_set_self _ _ hm).trans (if_pos ht)
    · exact (get_set_self _ _ hm).trans (if_neg ht)
  · have hrun := exec_of_start (i := .detCallOr d results) (congrArg some (startDetCallOr_free h1 h64 hid hn))
    rw [runStarted_going, finishOp_store (s := { s with freeCount := s.freeCount + 1 }) _ hd] at hrun
    exact ⟨_, hrun, rfl, fun id hne => get_set_other _ hne, fun he => absurd he hn, fun _ => ⟨rfl, get_set_self _ _ hm⟩⟩

/-! ## The packer's writes -/

/-- A pair's bit, as its cell's value. -/
theorem halfOfBit_eq_ite (v : Bool) : halfOfBit v = if v then 1 else 0 := by cases v <;> rfl

/-- The packer's writes run at once change the table alone, as `compatTable` says, and what older values are left (R151). -/
theorem finishOp_compatStores (bits : Bitset) {s : State} (h : s.plain) :
    ∃ past, finishOp .replyOk (runMicros (compatStores bits) s)
      = { s with mem := compatTable bits s.mem, past := past, replies := (s.who, .ok) :: s.replies } := by
  obtain ⟨past, hp⟩ := runMicros_compatStores bits h
  refine ⟨settlePast s.who past, ?_⟩
  rw [hp]
  generalize compatTable bits s.mem = mem
  rfl

theorem startCompatSet_going (bits : Bitset) (s : State) : startCompatSet bits s = .going s (compatStores bits) .replyOk := rfl

/-- Settles O37. -/
theorem compatSetBitsetWritesTheMatrix : Obligations.CompatSetBitsetWritesTheMatrix := by
  unfold Obligations.CompatSetBitsetWritesTheMatrix
  intro s bits hm hplain
  have hpast := finishOp_runMicros_past .replyOk (compatStores bits) (s := s)
  obtain ⟨past, hrun⟩ := finishOp_compatStores bits hplain
  rw [hrun] at hpast
  have hpair := fun l r hl hlr hr => get_compatTable_pair bits hm (mem_compatPairs.mpr ⟨hl, hlr, hr⟩ : (l, r) ∈ compatPairs)
  have hother := fun id h => get_compatTable_other bits s.mem (id := id) h
  have hexec := exec_of_start (i := .compatSetBitset bits) (congrArg some (startCompatSet_going bits s))
  rw [runStarted_going, hrun] at hexec
  generalize compatTable bits s.mem = mem at hexec hpast hpair hother
  refine ⟨_, hexec, hpast, rfl, fun l r hl hlr hr => (hpair l r hl hlr hr).trans (halfOfBit_eq_ite _), fun id hid => hother id ?_⟩
  intro l r hlr
  obtain ⟨h1, h2, h3⟩ := mem_compatPairs.mp hlr
  exact hid l r h1 h2 h3

/-! ## FRAME_DECODE -/

/-- Settles O18. -/
theorem frameDecodeLeavesTheLastElements : Obligations.FrameDecodeLeavesTheLastElements := by
  unfold Obligations.FrameDecodeLeavesTheLastElements
  intro s t bytes d hm hplain hd hdir h3 hl
  have hexec := exec_of_start (i := .frameDecode t bytes) (congrArg some (startFrameDecode_going hd hdir h3 hl))
  have hpast := finishOp_runMicros_past .replyOk (decodeMicros .b d) (s := { s with b := bytes })
  obtain ⟨past, hrun⟩ := runMicros_decode .b d.elems (s := { s with b := bytes }) hplain
  rw [runStarted_going, decodeMicros, hrun] at hexec
  rw [decodeMicros, hrun] at hpast
  exact ⟨_, hexec, hpast, rfl, get_decodeElements bytes d.elems hm⟩

/-! ## DISPATCH -/

/-- What a matched dispatch leaves of a table and of the response buffer: the command's values in their cells, then the response, encoded from
that table, at the front of TX, and TX beyond it as before (R31, R81, R161, R164, R166). -/
structure Answered (bytes : List Byte) (c r : FrameDef) (m m' : Memory) (tx tx' : List Byte) : Prop where
  cells : ∀ id, m'.get id = match lastNaming c.elems id with
    | some e => elementValue bytes e
    | none => m.get id
  response : tx' = encodeFrame m' r tx
  beyond : tx'.drop r.len = tx.drop r.len
  length : tx'.length = tx.length
  addr : byteAt tx' 0 = r.addr
  ctl : byteAt tx' 1 = 0x83
  type : byteAt tx' 2 = c.type + 128

/-- An encode changes no byte of its buffer at or beyond the definition's length (R31). -/
theorem drop_encodeFrame (m : Memory) {d : FrameDef} (h3 : 3 ≤ d.len) (hb : ∀ e ∈ d.elems, elementInBounds d.len e = true)
    {buf : List Byte} (hl : d.len ≤ buf.length) : (encodeFrame m d buf).drop d.len = buf.drop d.len := by
  refine buffer_ext (by simp) fun a _ => ?_
  rw [byteAt_drop, byteAt_drop, encodeFrame_outside m h3 hb hl (.inr (Nat.le_add_right _ _)), if_neg (by omega), if_neg (by omega),
    if_neg (by omega)]

/-- The table and the response of a pair of the dispatch table (R30, R160, R161). -/
theorem answered {p : Params} {t : Byte} {c r : FrameDef} (hp : paramsWf p = true) (hpair : pairOf p t = some (c, r)) (bytes : List Byte)
    {m : Memory} (hm : m.wf = true) {tx : List Byte} (htx : tx.length = respBufLen p) :
    Answered bytes c r m (decodeElements bytes c.elems m) tx (encodeFrame (decodeElements bytes c.elems m) r tx) := by
  obtain ⟨-, hr, -, hdir, hct, hrt, -⟩ := pairOf_some hp hpair
  obtain ⟨h3, -, hb, -⟩ := frameOf_wf hp hr
  have hl : r.len ≤ tx.length := htx ▸ len_le_respBufLen (frameOf_mem hr).1 hdir
  have header := fun a (ha : a < 3) => encodeFrame_outside (decodeElements bytes c.elems m) h3 hb hl (a := a) (.inl ha)
  exact {
    cells := get_decodeElements bytes c.elems hm
    response := rfl
    beyond := drop_encodeFrame _ h3 hb hl
    length := encodeFrame_length _ _ _
    addr := header 0 (by omega)
    ctl := header 1 (by omega)
    type := (header 2 (by omega)).trans (by rw [hct]; exact hrt) }

/-- Settles O25. -/
theorem hostDispatchAnswersAMatch : Obligations.HostDispatchAnswersAMatch := by
  unfold Obligations.HostDispatchAnswersAMatch
  intro s bytes c r hp hm hplain htx hen hloop hopen h3 hpair hl
  have hstart : startDispatch bytes s = .going { s with rx := bytes } (dispatchMicros c r) (.replyDispatched r.len) := by
    rw [startDispatch_free bytes hen hloop hopen, if_neg (Nat.not_lt.mpr h3), hpair]
    exact if_neg (Nat.not_lt.mpr hl)
  have hexec := exec_of_start (i := .dispatch bytes) (congrArg some hstart)
  obtain ⟨past, hrun⟩ := runMicros_dispatch c r (s := { s with rx := bytes }) hplain
  rw [runStarted_going, hrun] at hexec
  obtain ⟨-, -, -, -, htype, -⟩ := pairOf_some hp hpair
  have h := answered hp hpair bytes hm htx
  exact ⟨_, hexec, rfl, h.cells, h.response, h.beyond, h.length, h.addr, h.ctl, htype ▸ h.type⟩

/-- The frames of the command types are carried by the line port, with their type byte at byte 2 (R80, R85). -/
theorem encode_commandForms {a ctl : Byte} {p : List Byte} {f : Instr × Byte} (h : f ∈ commandForms a ctl p) :
    encode f.1 = .line (a :: ctl :: f.2 :: p) := by
  have hall : ∀ f ∈ commandForms a ctl p, encode f.1 = .line (a :: ctl :: f.2 :: p) := by
    simp only [commandForms, List.forall_mem_cons]
    exact ⟨rfl, rfl, rfl, rfl, rfl, rfl, rfl, rfl, rfl, rfl, rfl, rfl, rfl, rfl, rfl, rfl, List.forall_mem_nil _⟩
  exact hall f h

/-- The line agent that serves a frame is in RxRead, does not stop at A, and finds no dispatch in progress (R167, R170). -/
theorem serves_iff {s : State} :
    s.serves = true ↔ s.listening = true ∧ (s.checkAtA = false ∨ s.en = true) ∧ s.dispatchOpen = false := by
  simp only [State.serves, Bool.and_eq_true, Bool.or_eq_true, Bool.not_eq_true', and_assoc]

/-- A served frame that selects a pair and is long enough begins the dispatch of the pair (R161, R167). -/
theorem startLine_matched {s : State} {frame : List Byte} {c r : FrameDef} (hs : s.serves = true) (h3 : 3 ≤ frame.length)
    (hpair : pairOf s.params (byteAt frame 2) = some (c, r)) (hl : c.len ≤ frame.length) :
    startLine frame s = .going { s with loop := .dispatching, rx := frame } (dispatchMicros c r) (.transmit r.len) := by
  obtain ⟨hlisten, hcheck, hopen⟩ := serves_iff.mp hs
  rw [startLine_serving frame hlisten hcheck hopen, if_neg (Nat.not_lt.mpr h3), hpair]
  exact if_neg (Nat.not_lt.mpr hl)

/-- Settles O28: the forms differ in their constructor alone, so one dispatch of their bytes serves them all. -/
theorem lineCommandIsDispatched : Obligations.LineCommandIsDispatched := by
  unfold Obligations.LineCommandIsDispatched
  intro s a ctl ty p f c r hf hp hm hplain htx hs hpair hl
  have henc : encode f.1 = .line (a :: ctl :: f.2 :: p) := by
    rcases hf with hf | rfl
    · exact encode_commandForms hf
    · rfl
  have hexec := exec_of_line henc s
  rw [startLine_matched (frame := a :: ctl :: f.2 :: p) hs (by simp) hpair (by simpa using hl), runStarted_going] at hexec
  obtain ⟨past, hrun⟩ :=
    runMicros_dispatch c r (s := { s with loop := .dispatching, rx := a :: ctl :: f.2 :: p }) hplain
  rw [hrun] at hexec
  obtain ⟨-, -, -, -, htype, -⟩ := pairOf_some hp hpair
  have h := answered hp hpair (a :: ctl :: f.2 :: p) hm htx
  exact ⟨_, hexec, rfl, h.cells, h.response, h.beyond, h.length, h.addr, h.ctl, htype ▸ h.type⟩

end Sys2Proof.Proofs
end

section
/-! PROOFS. Operations that write no cell: the operands that are refused by name (R26, R111, R180, R181, R192), the outcomes of CSR_WRITE (R168),
and the ends of initialisation before the matrix is written (R222, R223). -/

namespace Sys2Proof.Proofs

open Sys2Proof.Machine Sys2Proof.Laws

/-! ## Refused operands -/

theorem exec_get_uncatalogued {s : State} {id : VarId} (h : inCatalog s.params id = false) : exec (.get id) s = .refused .badId := by
  show execGet id s = _
  simp [execGet, h]

theorem startSet_uncatalogued {s : State} {id : VarId} (v : Half) (h : inCatalog s.params id = false) :
    startSet id v s = .ended (.refused .badId) := by
  simp [startSet, h]

theorem startSet_unfit {s : State} {id : VarId} {v : Half} (h : inCatalog s.params id = true) (hv : valueFits id.ty v = false) :
    startSet id v s = .ended (.refused .badValue) := by
  simp [startSet, h, hv]

theorem exec_set_uncatalogued {s : State} {id : VarId} (v : Half) (h : inCatalog s.params id = false) :
    exec (.set id v) s = .refused .badId :=
  exec_of_start (i := .set id v) (congrArg some (startSet_uncatalogued v h))

theorem startLsIndication_channel {s : State} {c : Byte} (h : c.toNat = 0 ∨ 16 < c.toNat) :
    startLsIndication c s = .ended (.refused .badOperand) :=
  if_neg (by simp only [Config.nch]; omega)

theorem startLsIndication_uncatalogued {s : State} {c : Byte} (h1 : 1 ≤ c.toNat) (h16 : c.toNat ≤ 16)
    (h : inCatalog s.params (lsGreenId s.params c.toNat) = false ∨ inCatalog s.params (lsYellowId s.params c.toNat) = false
      ∨ inCatalog s.params (lsRedId s.params c.toNat) = false) :
    startLsIndication c s = .ended (.refused .badId) := by
  have hch : 1 ≤ c.toNat ∧ c.toNat ≤ Config.nch := ⟨h1, h16⟩
  rw [startLsIndication, if_pos hch]
  refine if_neg ?_
  rcases h with h | h | h <;> simp [h]

theorem startDetCallOr_detector {s : State} {d : Byte} (results : List Bool) (h : d.toNat = 0 ∨ 64 < d.toNat) :
    startDetCallOr d results s = .ended (.refused .badOperand) :=
  if_neg (by simp only [Config.ndet]; omega)

theorem startDetCallOr_uncatalogued {s : State} {d : Byte} (results : List Bool) (h1 : 1 ≤ d.toNat) (h64 : d.toNat ≤ 64)
    (h : inCatalog s.params (detCallId s.params d.toNat) = false) : startDetCallOr d results s = .ended (.refused .badId) := by
  have hdet : 1 ≤ d.toNat ∧ d.toNat ≤ Config.ndet := ⟨h1, h64⟩
  rw [startDetCallOr, if_pos hdet]
  exact if_pos (by simp [h])

/-- Settles O13, refusal by refusal. -/
theorem illegalOperandsAreRefused : Obligations.IllegalOperandsAreRefused := by
  unfold Obligations.IllegalOperandsAreRefused
  refine ⟨fun s id h => exec_get_uncatalogued h, fun s id v h => exec_set_uncatalogued v h, fun s id v h hv => ?_, fun s c h => ?_,
    fun s c h1 h16 h => ?_, fun s d results h => ?_, fun s d results h1 h64 h => ?_⟩
  · exact exec_of_start (i := .set id v) (congrArg some (startSet_unfit h (decide_eq_false (Nat.not_lt.mpr hv))))
  · exact exec_of_start (i := .lsIndication c) (congrArg some (startLsIndication_channel h))
  · exact exec_of_start (i := .lsIndication c) (congrArg some (startLsIndication_uncatalogued h1 h16 h))
  · exact exec_of_start (i := .detCallOr d results) (congrArg some (startDetCallOr_detector results h))
  · exact exec_of_start (i := .detCallOr d results) (congrArg some (startDetCallOr_uncatalogued results h1 h64 h))

/-- An `MMU.b1` index whose low byte is r and whose rest is l names a cell only where l is 0 or (l, r) is a pair (R20, R25). -/
theorem pairIndexOk_compatId {l r : Nat} (hr : r < 256) : pairIndexOk (compatId l r) = true ↔ l = 0 ∨ (l < r ∧ r ≤ 16) := by
  simp only [pairIndexOk, Bool.or_eq_true, Bool.and_eq_true, decide_eq_true_eq]
  simp only [compatId, Config.nch, ne_eq, not_true_eq_false, false_or]
  omega

/-- No catalogue holds a cell of a pair that is none (R25, R26). -/
theorem inCatalog_no_pair (p : Params) {l r : Nat} (hl : 1 ≤ l) (hr : r < 256) (h : r ≤ l ∨ 16 < r) :
    inCatalog p (compatId l r) = false := by
  have hok : pairIndexOk (compatId l r) = false := by
    rw [Bool.eq_false_iff, ne_eq, pairIndexOk_compatId hr]
    omega
  rw [inCatalog, catalogHas, hok, Bool.false_and]

/-- Settles O54. -/
theorem noCellForAPairThatIsNone : Obligations.NoCellForAPairThatIsNone := by
  unfold Obligations.NoCellForAPairThatIsNone
  intro s l r v hl hr h
  have hid := inCatalog_no_pair s.params hl hr h
  exact ⟨exec_get_uncatalogued hid, exec_set_uncatalogued v hid⟩

/-! ## CSR_WRITE -/

theorem execCsrWrite_register {s : State} {reg : Byte} (v : Byte) (h : reg ≠ 0) : execCsrWrite reg v s = .refused .badRegister :=
  if_pos h

/-- CSR_WRITE of CTRL with bit 0 clear (R169). -/
theorem execCsrWrite_disable {s : State} {v : Byte} (h : v.getLsbD 0 = false) :
    execCsrWrite 0 v s = .next ({ s with en := false }.reply .ok) := by
  simp only [execCsrWrite, ne_eq, not_true_eq_false, if_false, h, Bool.false_eq_true]

/-- CSR_WRITE of CTRL with bit 0 set: NOT_READY, then no effect, then RestartRace, then the start of a line agent (R168, R196). -/
theorem execCsrWrite_enable {s : State} {v : Byte} (h : v.getLsbD 0 = true) :
    execCsrWrite 0 v s =
      if s.ready = false then .next (s.reply .notReady)
      else if s.en = true then .next (s.reply .ok)
      else if s.loop ≠ .stopped then .next (raiseFault .restartRace s)
      else .next (s.startLineAgent.reply .ok) := by
  simp only [execCsrWrite, ne_eq, not_true_eq_false, if_false, h, if_true, Bool.not_eq_true']

/-- Settles O45, by bit 0 and the outcomes of `execCsrWrite_enable` in their order. -/
theorem csrWriteStartsAndStopsTheLoop : Obligations.CsrWriteStartsAndStopsTheLoop := by
  unfold Obligations.CsrWriteStartsAndStopsTheLoop
  intro s v
  refine ⟨fun hv hr he hl => ?_, fun hv => execCsrWrite_disable hv, fun hv hr => ?_, fun hv hr he => ?_, fun hv hr he hl hf => ?_,
    fun reg h => execCsrWrite_register v h⟩
  · refine (execCsrWrite_enable hv).trans ?_
    rw [if_neg (by simp [hr]), if_neg (by simp [he]), if_neg (not_not.mpr hl)]
    rfl
  · exact (execCsrWrite_enable hv).trans (if_pos hr)
  · refine (execCsrWrite_enable hv).trans ?_
    rw [if_neg (by simp [hr]), if_pos he]
    rfl
  · refine (execCsrWrite_enable hv).trans ?_
    rw [if_neg (by simp [hr]), if_neg (by simp [he]), if_pos hl, raiseFault_first _ hf]

/-! ## Initialisation that does not reach the matrix -/

theorem execInit_failed {s : State} {c : WfCheck} (h : failedCheck s.params = some c) : execInit s = .refused (.badElement c) := by
  simp only [execInit, h]

theorem execInit_unbound {s : State} (hp : paramsWf s.params = true) (hb : bindingsHeld s.params = false) :
    execInit s = .refused .badId := by
  simp only [execInit, failedCheck_none hp, hb, Bool.not_false, if_true]

theorem execInit_malformed {s : State} (hp : paramsWf s.params = true) (hb : bindingsHeld s.params = true)
    (hw : s.cfg.wiringOk = false) : execInit s = .next { s with boot := .aborted } := by
  simp only [execInit, failedCheck_none hp, hb, hw, Bool.not_true, Bool.not_false, Bool.false_eq_true, if_true, if_false]

/-- Settles O10. -/
theorem initRefusesOrAborts : Obligations.InitRefusesOrAborts := by
  unfold Obligations.InitRefusesOrAborts
  refine ⟨fun s c hf hb h => ?_, fun s hf hb hp hbind => ?_, fun s hf hb hp hbind hw => ?_⟩ <;> rw [step_of_pending hf hb]
  · exact execInit_failed h
  · exact execInit_unbound hp hbind
  · exact execInit_malformed hp hbind hw

end Sys2Proof.Proofs
end

section
/-! PROOFS. The fault latch (R35, R191, R194), the state after reset (R40), the step of an operation in progress (R38, R130, R131), and that no
step writes the parameters (R29). -/

namespace Sys2Proof.Proofs

open Sys2Proof.Machine Sys2Proof.Laws

/-! ## The status register and the fault latch -/

/-- STATUS as read, from its three fields (R35). -/
def statusByte (ready faulted : Bool) (code : Nat) : Byte :=
  (BitVec.ofBool ready).setWidth 8 ||| ((BitVec.ofBool faulted).setWidth 8 <<< 1) ||| (BitVec.ofNat 8 code <<< 4)

theorem statusReg_eq (s : State) : s.statusReg = statusByte s.ready s.faulted s.fcode := rfl

/-- The fields of STATUS do not overlap: FAULTED is bit 1 and a code below 16 is bits 7:4 (R35). -/
theorem statusByte_fields : ∀ (ready faulted : Bool) (code : Fin 16),
    (statusByte ready faulted code).getLsbD 1 = faulted ∧ (statusByte ready faulted code >>> 4).toNat = code := by decide

theorem fcode_lt (s : State) : s.fcode < 16 := by
  unfold State.fcode
  split
  · next f _ => cases f <;> simp [faultCode]
  · decide

theorem statusReg_faulted (s : State) : s.statusReg.getLsbD 1 = s.faulted := by
  rw [statusReg_eq]
  exact (statusByte_fields s.ready s.faulted ⟨s.fcode, fcode_lt s⟩).1

theorem statusReg_fcode (s : State) : (s.statusReg >>> 4).toNat = s.fcode := by
  rw [statusReg_eq]
  exact (statusByte_fields s.ready s.faulted ⟨s.fcode, fcode_lt s⟩).2

/-- Settles O7. -/
theorem faultLatchKeepsTheFirstFault : Obligations.FaultLatchKeepsTheFirstFault := by
  unfold Obligations.FaultLatchKeepsTheFirstFault
  refine ⟨fun s f hf => ?_, fun s f g hg => raiseFault_later f hg, fun s f hf => step_of_fault hf, fun p c => rfl⟩
  rw [statusReg_faulted, statusReg_fcode, raiseFault_first f hf]
  exact ⟨rfl, rfl, by cases f <;> rfl⟩

/-! ## Reset -/

/-- With an empty table, no operation and no older value, the state after reset is legal (R40). -/
theorem sound_resetWith {p : Params} (c : Cfg) (h : paramsAdmissible p = true) : Sound (State.resetWith p c) where
  params := h
  table := rfl
  tx := List.length_replicate
  opens _ ho := absurd ho List.not_mem_nil
  past _ he := absurd he List.not_mem_nil
  writers _ he := absurd he List.not_mem_nil

theorem controlled_resetWith (p : Params) (c : Cfg) : Controlled (State.resetWith p c) where
  enReady h := h
  liveReady h := absurd rfl h
  stopped _ := ⟨rfl, rfl⟩
  oneDispatch := Nat.zero_le 1
  lineDispatch _ ho := absurd ho List.not_mem_nil

/-- Settles O48. -/
theorem resetStateIsLegal : Obligations.ResetStateIsLegal := by
  unfold Obligations.ResetStateIsLegal
  intro p c h
  exact ⟨legal_iff.mpr ⟨sound_resetWith c h, fun _ he => absurd he List.not_mem_nil⟩, controlLegal_iff.mpr (controlled_resetWith p c)⟩

/-! ## The element of an operation in progress -/

theorem execMicro_dec {src : DecBuf} {x : Element} {i : Instr} (h : decode (.decElem src x.kind.code x.id x.pos) = .ok i) (s : State) :
    execMicro (.dec src x) s = exec i s := by
  simp only [execMicro, h]

theorem execMicro_enc {dst : EncBuf} {x : Element} {i : Instr} (h : decode (.encElem dst x.kind.code x.id x.pos) = .ok i) (s : State) :
    execMicro (.enc dst x) s = exec i s := by
  simp only [execMicro, h]

/-- Settles O6. -/
theorem stepRunsTheElementOfAnOperation : Obligations.StepRunsTheElementOfAnOperation := by
  unfold Obligations.StepRunsTheElementOfAnOperation
  intro s t rest picks o m todo e i hf hb ht ho htodo hdec henc hm hd hexec
  have hmicro : execMicro m (({ s with turns := rest } : State).stepping o o.agent picks) = .next t := by
    rcases hm with ⟨src, x, rfl⟩ | ⟨dst, x, rfl⟩
    · rw [execMicro_dec (hdec src x rfl ▸ hd), hexec]
    · rw [execMicro_enc (henc dst x rfl ▸ hd), hexec]
  rw [step_of_turn hf hb ht]
  show advanceOp o.agent 0 picks { s with turns := rest } = _
  rw [advanceOp_first (s := { s with turns := rest }) ho htodo, hmicro]
  rfl

/-! ## The parameters -/

theorem endsAtOnce_params {s t : State} (h : EndsAtOnce s t) : t.params = s.params := by
  cases h with
  | faults f => exact raiseFault_params s f
  | lineFaults f hl => exact raiseFault_params _ f
  | _ => rfl

theorem begun_params {s s' : State} {todo : List Micro} {fin : Finish} (h : Begun s s' todo fin) : s'.params = s.params := by
  cases h <;> rfl

theorem lineMoves_params {s t : State} (h : LineMoves s t) : t.params = s.params := by
  cases h with
  | fails stops e hl => cases stops <;> rfl
  | _ => rfl

theorem runMicros_params (ms : List Micro) (s : State) : (runMicros ms s).params = s.params := by
  obtain ⟨_, _, _, _, _, h⟩ := runMicros_frame ms s
  rw [h]

theorem finishOp_params (fin : Finish) (s : State) : (finishOp fin s).params = s.params := by cases fin <;> rfl

theorem execInit_params {s t : State} (h : execInit s = .next t) : t.params = s.params := by
  rcases execInit_next h with rfl | ⟨ready, boot, -, rfl⟩ <;> rfl

theorem advanceOp_params {s t : State} {a : Agent} {k : Nat} {picks : Picks} (h : advanceOp a k picks s = .next t) :
    t.params = s.params := by
  rcases advanceOp_cases h with ⟨-, rfl⟩ | ⟨o, -, ⟨id, rfl⟩ | rfl | ⟨j, m, u, -, hu, rfl⟩⟩
  · rfl
  · rfl
  · exact finishOp_params o.fin _
  · rw [execMicro_next hu, hold_params, runMicro_params, stepping_params]

/-- Settles O50, by the cases of a step. -/
theorem definitionStoreIsNeverWritten : Obligations.DefinitionStoreIsNeverWritten := by
  unfold Obligations.DefinitionStoreIsNeverWritten
  intro s t h
  cases step_moves h with
  | init hi => exact execInit_params hi
  | stays => rfl
  | advances turns a k picks ha => exact (advanceOp_params ha :)
  | runs turns who buf picks hp he =>
    rcases exec_next hp he with hend | ⟨s', todo, fin, hbegun, rfl⟩
    · exact (endsAtOnce_params hend :)
    · rw [finishOp_params, runMicros_params, begun_params hbegun]
  | begins turns who buf picks hp he =>
    rcases beginInstr_next hp he with hend | ⟨s', todo, fin, hbegun, rfl⟩
    · exact (endsAtOnce_params hend :)
    · rw [hold_params, begun_params hbegun]
  | line turns hm => exact (lineMoves_params hm :)

end Sys2Proof.Proofs
end

section
/-! PROOFS. Elements (R52-R54, R58, R86-R90, R120-R125, R128): the word and bit views of a buffer, what one element decode or encode leaves, and the
elements that are refused. -/

namespace Sys2Proof.Proofs

open Sys2Proof.Machine Sys2Proof.Laws

/-! ## Bits of a word -/

/-- A word's low byte is the byte at its position (R53, R90). -/
theorem getLsbD_wordAt_low (buf : List Byte) (pos : Nat) {i : Nat} (hi : i < 8) :
    (wordAt buf pos).getLsbD i = (byteAt buf pos).getLsbD i := by
  have h16 : i < 16 := by omega
  simp [wordAt, hi, h16]

/-- A word's high byte is the byte behind its position (R53, R90). -/
theorem getLsbD_wordAt_high (buf : List Byte) (pos : Nat) {i : Nat} (hi : i < 8) :
    (wordAt buf pos).getLsbD (8 + i) = (byteAt buf (pos + 1)).getLsbD i := by
  have h16 : 8 + i < 16 := by omega
  simp [wordAt, h16]

/-- Bit i of the byte at a position (R52, R88). -/
theorem bitAt_byte (buf : List Byte) (pos : Nat) {i : Nat} (hi : i < 8) : bitAt buf (8 * pos + i) = (byteAt buf pos).getLsbD i := by
  have hdiv : (8 * pos + i) / 8 = pos := by omega
  have hmod : (8 * pos + i) % 8 = i := by omega
  rw [bitAt, hdiv, hmod]

/-- Settles O14. -/
theorem wordAndBitViewsAgree : Obligations.WordAndBitViewsAgree := by
  unfold Obligations.WordAndBitViewsAgree
  intro buf pos i hi
  rw [bitAt_byte buf pos hi, bitAt_byte buf (pos + 1) hi, getLsbD_wordAt_low buf pos hi, getLsbD_wordAt_high buf pos hi]
  exact ⟨rfl, rfl⟩

/-! ## Bounds -/

/-- A bit stands in the payload of its buffer (R58). -/
theorem bit_inBounds (len : Nat) (id : VarId) (pos : Nat) : elementInBounds len ⟨.bit, id, pos⟩ = true ↔ 24 ≤ pos ∧ pos < 8 * len := by
  simp only [elementInBounds, Bool.and_eq_true, decide_eq_true_eq]
  exact Iff.rfl

/-- A byte stands in the payload of its buffer (R58). -/
theorem byte_inBounds (len : Nat) (id : VarId) (pos : Nat) : elementInBounds len ⟨.byte, id, pos⟩ = true ↔ 3 ≤ pos ∧ pos < len := by
  simp only [elementInBounds, Bool.and_eq_true, decide_eq_true_eq]
  exact Iff.rfl

/-- Both bytes of a word stand in the payload of its buffer (R58). -/
theorem word_inBounds (len : Nat) (id : VarId) (pos : Nat) : elementInBounds len ⟨.word, id, pos⟩ = true ↔ 3 ≤ pos ∧ pos + 1 < len := by
  simp only [elementInBounds, Bool.and_eq_true, decide_eq_true_eq]
  exact Iff.rfl

/-! ## Element decodes -/

/-- An element decode that passes its checks, and whose write is plain, leaves its operand in its cell, and the other cells alone (R120, R122, R124,
R128). -/
theorem decodeElement_plain {s : State} {src : DecBuf} {e : Element} (hm : s.mem.wf = true) (hd : s.depth e.id = 0)
    (hk : e.id.ty = kindType e.kind) (hid : inCatalog s.params e.id = true) (hb : elementInBounds (s.decBuf src).length e = true) :
    ∃ t, decodeElement src e s = .next t ∧ t = { s with mem := t.mem, past := t.past }
      ∧ t.getVar e.id = elementValue (s.decBuf src) e ∧ ∀ id', id' ≠ e.id → t.getVar id' = s.getVar id' :=
  ⟨s.decodeElem src e, decodeElement_ok hk hid hb, rfl, setVar_getVar_self _ hd hm, fun _ hne => setVar_getVar_other s _ hne⟩

theorem toNat_wordAt (buf : List Byte) (pos : Nat) :
    (wordAt buf pos).toNat = (byteAt buf pos).toNat + 256 * (byteAt buf (pos + 1)).toNat := by
  have hlo := (byteAt buf pos).isLt
  have hhi := (byteAt buf (pos + 1)).isLt
  have hor := Nat.two_pow_add_eq_or_of_lt hlo (byteAt buf (pos + 1)).toNat
  simp only [wordAt, BitVec.toNat_or, BitVec.toNat_setWidth, BitVec.toNat_shiftLeft, Nat.shiftLeft_eq]
  rw [Nat.mod_eq_of_lt (by omega), Nat.mod_eq_of_lt (a := (byteAt buf (pos + 1)).toNat) (by omega), Nat.mod_eq_of_lt (by omega),
    Nat.or_comm, Nat.mul_comm, ← hor]
  omega

/-- Settles O15, kind by kind from `decodeElement_plain`. -/
theorem elementDecodesWriteTheirCell : Obligations.ElementDecodesWriteTheirCell := by
  unfold Obligations.ElementDecodesWriteTheirCell
  intro s src id pos hm hd hid
  refine ⟨fun hk h3 hl => ?_, fun hk h3 hl => ?_, fun hk h3 hl => ?_⟩
  · obtain ⟨t, ht, hframe, hval, hother⟩ := decodeElement_plain (src := src) (e := ⟨.bit, id, pos⟩) hm hd hk hid
      ((bit_inBounds _ _ _).mpr ⟨h3, hl⟩)
    exact ⟨t, ht, hframe, hval.trans (halfOfBit_eq_ite _), hother⟩
  · obtain ⟨t, ht, hframe, hval, hother⟩ := decodeElement_plain (src := src) (e := ⟨.byte, id, pos⟩) hm hd hk hid
      ((byte_inBounds _ _ _).mpr ⟨h3, hl⟩)
    have hbyte : (t.getVar id).toNat = (byteAt (s.decBuf src) pos).toNat := by
      rw [hval]
      exact BitVec.toNat_setWidth_of_le (by decide)
    exact ⟨t, ht, hframe, hbyte, hother⟩
  · obtain ⟨t, ht, hframe, hval, hother⟩ := decodeElement_plain (src := src) (e := ⟨.word, id, pos⟩) hm hd hk hid
      ((word_inBounds _ _ _).mpr ⟨h3, hl⟩)
    exact ⟨t, ht, hframe, (congrArg BitVec.toNat hval).trans (toNat_wordAt _ _), hother⟩

/-! ## Element encodes -/

theorem encBuf_setEncBuf (s : State) (dst : EncBuf) (buf : List Byte) : (s.setEncBuf dst buf).encBuf dst = buf := by cases dst <;> rfl

/-- An element encode that passes its checks, and whose read is plain, makes of its buffer what `elementPut` says, and changes what its agent may
still read, and nothing else (R121, R123, R125, R128). -/
theorem encodeElement_plain {s : State} {dst : EncBuf} {e : Element} (hd : s.depth e.id = 0) (hk : e.id.ty = kindType e.kind)
    (hid : inCatalog s.params e.id = true) (hb : elementInBounds (s.encBuf dst).length e = true) :
    ∃ t, encodeElement dst e s = .next t ∧ t = { s.setEncBuf dst (t.encBuf dst) with past := t.past }
      ∧ t.encBuf dst = elementPut (s.encBuf dst) e (s.getVar e.id) := by
  refine ⟨s.encodeElem dst e, encodeElement_ok hk hid hb, ?_, ?_⟩
  · cases dst <;> rfl
  · rw [State.encodeElem, encBuf_setEncBuf, readVar_plain hd]

/-- The bytes of a word that was put (R53, R125). -/
theorem byteAt_putWord {buf : List Byte} {pos : Nat} (h : pos + 1 < buf.length) (v : Half) (a : Nat) :
    byteAt (putWord buf pos v) a =
      if a = pos then v.extractLsb' 0 8 else if a = pos + 1 then v.extractLsb' 8 8 else byteAt buf a := by
  have hlow : v.setWidth 8 = v.extractLsb' 0 8 := by ext; simp
  have hhigh : (v >>> 8).setWidth 8 = v.extractLsb' 8 8 := by ext; simp
  rw [putWord, hlow, hhigh]
  by_cases h0 : a = pos
  · rw [byteAt_putByte_other _ _ (by omega), h0, byteAt_putByte_self _ (by omega), if_pos rfl]
  · rw [if_neg h0]
    by_cases h1 : a = pos + 1
    · rw [h1, byteAt_putByte_self _ (by simpa using h), if_pos rfl]
    · rw [byteAt_putByte_other _ _ h1, byteAt_putByte_other _ _ h0, if_neg h1]

/-- Settles O16, kind by kind from `encodeElement_plain`. -/
theorem elementEncodesWriteTheirBytes : Obligations.ElementEncodesWriteTheirBytes := by
  unfold Obligations.ElementEncodesWriteTheirBytes
  intro s dst id pos hd hid
  refine ⟨fun hk h3 hl => ?_, fun hk h3 hl => ?_, fun hk h3 hl => ?_⟩
  · obtain ⟨t, ht, hframe, hbuf⟩ := encodeElement_plain (dst := dst) (e := ⟨.bit, id, pos⟩) hd hk hid
      ((bit_inBounds _ _ _).mpr ⟨h3, hl⟩)
    refine ⟨t, ht, hframe, by rw [hbuf, elementPut_length], fun p => ?_⟩
    rw [hbuf]
    exact bitAt_orBit _ _ _ _ hl
  · obtain ⟨t, ht, hframe, hbuf⟩ := encodeElement_plain (dst := dst) (e := ⟨.byte, id, pos⟩) hd hk hid
      ((byte_inBounds _ _ _).mpr ⟨h3, hl⟩)
    refine ⟨t, ht, hframe, by rw [hbuf, elementPut_length], fun a => ?_⟩
    rw [hbuf]
    exact (byteAt_putByte _ pos a _).trans (by simp only [hl, and_true])
  · obtain ⟨t, ht, hframe, hbuf⟩ := encodeElement_plain (dst := dst) (e := ⟨.word, id, pos⟩) hd hk hid
      ((word_inBounds _ _ _).mpr ⟨h3, hl⟩)
    refine ⟨t, ht, hframe, by rw [hbuf, elementPut_length], fun a => ?_⟩
    rw [hbuf]
    exact byteAt_putWord hl _ a

/-! ## Refused elements -/

theorem elementFails_kindType (p : Params) (len : Nat) {e : Element} (h : e.id.ty ≠ kindType e.kind) :
    elementFails p len e = some .kindType := if_pos h

theorem elementFails_id {p : Params} (len : Nat) {e : Element} (hk : e.id.ty = kindType e.kind) (h : inCatalog p e.id = false) :
    elementFails p len e = some .id := by
  rw [elementFails, if_neg (not_not.mpr hk), if_pos (by simp [h])]

theorem elementFails_bounds {p : Params} {len : Nat} {e : Element} (hk : e.id.ty = kindType e.kind) (hid : inCatalog p e.id = true)
    (h : elementInBounds len e = false) : elementFails p len e = some .bounds := by
  rw [elementFails, if_neg (not_not.mpr hk), if_neg (by simp [hid]), if_pos (by simp [h])]

/-- An element decode that fails a check is refused by its name (R87, R192). -/
theorem decodeElement_fails {s : State} {src : DecBuf} {e : Element} {c : WfCheck}
    (h : elementFails s.params (s.decBuf src).length e = some c) : decodeElement src e s = .refused (.badElement c) := by
  simp only [decodeElement, h]

/-- An element encode that fails a check is refused by its name (R87, R192). -/
theorem encodeElement_fails {s : State} {dst : EncBuf} {e : Element} {c : WfCheck}
    (h : elementFails s.params (s.encBuf dst).length e = some c) : encodeElement dst e s = .refused (.badElement c) := by
  simp only [encodeElement, h]

/-- An element of any kind that fails a check is refused, by its decode and by its encode. -/
theorem element_refused (s : State) (src : DecBuf) (dst : EncBuf) (e : Element) :
    (e.id.ty ≠ kindType e.kind → decodeElement src e s = .refused (.badElement .kindType)
      ∧ encodeElement dst e s = .refused (.badElement .kindType))
    ∧ (e.id.ty = kindType e.kind → inCatalog s.params e.id = false → decodeElement src e s = .refused (.badElement .id)
      ∧ encodeElement dst e s = .refused (.badElement .id))
    ∧ (e.id.ty = kindType e.kind → inCatalog s.params e.id = true →
      (elementInBounds (s.decBuf src).length e = false → decodeElement src e s = .refused (.badElement .bounds))
      ∧ (elementInBounds (s.encBuf dst).length e = false → encodeElement dst e s = .refused (.badElement .bounds))) :=
  ⟨fun hk => ⟨decodeElement_fails (elementFails_kindType _ _ hk), encodeElement_fails (elementFails_kindType _ _ hk)⟩,
    fun hk hid => ⟨decodeElement_fails (elementFails_id _ hk hid), encodeElement_fails (elementFails_id _ hk hid)⟩,
    fun hk hid => ⟨fun hb => decodeElement_fails (elementFails_bounds hk hid hb),
      fun hb => encodeElement_fails (elementFails_bounds hk hid hb)⟩⟩

/-- Settles O17, kind by kind from `element_refused`. -/
theorem illFormedElementsAreRefused : Obligations.IllFormedElementsAreRefused := by
  unfold Obligations.IllFormedElementsAreRefused
  intro s src dst id pos
  obtain ⟨bitKind, bitId, bitBounds⟩ := element_refused s src dst ⟨.bit, id, pos⟩
  obtain ⟨byteKind, byteId, byteBounds⟩ := element_refused s src dst ⟨.byte, id, pos⟩
  obtain ⟨wordKind, wordId, wordBounds⟩ := element_refused s src dst ⟨.word, id, pos⟩
  refine ⟨bitKind, byteKind, wordKind, bitId, byteId, wordId, fun hk hid => ?_, fun hk hid => ?_, fun hk hid => ?_⟩
  · obtain ⟨dec, enc⟩ := bitBounds hk hid
    have bounds : ∀ len, pos < 24 ∨ 8 * len ≤ pos → elementInBounds len ⟨.bit, id, pos⟩ = false := fun len h => by
      rw [Bool.eq_false_iff, ne_eq, bit_inBounds]
      omega
    exact ⟨fun h => dec (bounds _ h), fun h => enc (bounds _ h)⟩
  · obtain ⟨dec, enc⟩ := byteBounds hk hid
    have bounds : ∀ len, pos < 3 ∨ len ≤ pos → elementInBounds len ⟨.byte, id, pos⟩ = false := fun len h => by
      rw [Bool.eq_false_iff, ne_eq, byte_inBounds]
      omega
    exact ⟨fun h => dec (bounds _ h), fun h => enc (bounds _ h)⟩
  · obtain ⟨dec, enc⟩ := wordBounds hk hid
    have bounds : ∀ len, pos < 3 ∨ len ≤ pos + 1 → elementInBounds len ⟨.word, id, pos⟩ = false := fun len h => by
      rw [Bool.eq_false_iff, ne_eq, word_inBounds]
      omega
    exact ⟨fun h => dec (bounds _ h), fun h => enc (bounds _ h)⟩

end Sys2Proof.Proofs
end

section
/-! PROOFS. The packer's hex string and reads, and the adapter's reads (R59, R62, R92, R152, R153, R180), where every access stands at the end of
its cell's order. -/

namespace Sys2Proof.Proofs

open Sys2Proof.Machine Sys2Proof.Laws

/-! ## Hex strings -/

/-- The hex characters and their values (R92). -/
theorem hexDigit_eq_some_iff (c : Byte) (d : Nat) :
    hexDigit c = some d ↔
      (48 ≤ c.toNat ∧ c.toNat ≤ 57 ∧ c.toNat = d + 48) ∨ (65 ≤ c.toNat ∧ c.toNat ≤ 70 ∧ c.toNat = d + 55)
        ∨ (97 ≤ c.toNat ∧ c.toNat ≤ 102 ∧ c.toNat = d + 87) := by
  simp only [hexDigit]
  split
  · simp only [Option.some.injEq]
    omega
  · split
    · simp only [Option.some.injEq]
      omega
    · split
      · simp only [Option.some.injEq]
        omega
      · simp only [reduceCtorEq, false_iff]
        omega

/-- A string whose characters all have values is read as these. -/
theorem hexNibbles_of_map {str : List Byte} {ds : List Nat} (h : str.map hexDigit = ds.map some) : hexNibbles str = some ds := by
  induction str generalizing ds with
  | nil =>
    cases ds with
    | nil => rfl
    | cons d ds => cases h
  | cons c cs ih =>
    cases ds with
    | nil => cases h
    | cons d ds =>
      rw [List.map_cons, List.map_cons, List.cons.injEq] at h
      simp only [hexNibbles, h.1, ih h.2]

/-- The bitset of 30 hex characters (R153). -/
theorem hexBitset_of_map {str : List Byte} {ds : List Nat} (hl : str.length = 30) (h : str.map hexDigit = ds.map some) :
    hexBitset str = some (BitVec.ofNat 120 (nibblesNumber ds)) := by
  have hlen : str.length = Config.hexLen := hl
  rw [hexBitset, if_pos hlen, hexNibbles_of_map h]
  rfl

/-- Bit 119-(4c+j) of the bitset is bit 3-j of character c's value (R55, R153). -/
theorem getLsbD_nibblesNumber {ds : List Nat} (hd : ∀ d ∈ ds, d < 16) (hl : ds.length = 30) {c j : Nat} (hc : c < 30) (hj : j < 4) :
    (BitVec.ofNat 120 (nibblesNumber ds)).getLsbD (119 - (4 * c + j)) = (ds.getD c 0).testBit (3 - j) := by
  have hpos : 119 - (4 * c + j) = 4 * (ds.length - 1 - c) + (3 - j) := by omega
  have hlt : 119 - (4 * c + j) < 120 := by omega
  rw [BitVec.getLsbD_ofNat, decide_eq_true hlt, Bool.true_and, hpos]
  exact testBit_nibblesNumber hd (by omega) (by omega)

theorem startCompatHex_going {str : List Byte} {bits : Bitset} (h : hexBitset str = some bits) (s : State) :
    startCompatHex str s = .going s (compatStores bits) .replyOk := by
  simp only [startCompatHex, h, startCompatSet_going]

/-- COMPAT_SET_HEX of an accepted string is COMPAT_SET_BITSET of its bitset (R153). -/
theorem exec_compatSetHex {str : List Byte} {bits : Bitset} (h : hexBitset str = some bits) (s : State) :
    exec (.compatSetHex str) s = exec (.compatSetBitset bits) s := by
  rw [exec_of_start (i := .compatSetHex str) (congrArg some (startCompatHex_going h s)),
    exec_of_start (i := .compatSetBitset bits) (congrArg some (startCompatSet_going bits s))]

/-- Settles O39, from what COMPAT_SET_BITSET of the string's bitset leaves. -/
theorem compatSetHexExpandsTheString : Obligations.CompatSetHexExpandsTheString := by
  unfold Obligations.CompatSetHexExpandsTheString
  refine ⟨hexDigit_eq_some_iff, fun s str ds hm hplain hl hds => ?_⟩
  have hlen : ds.length = 30 := by rw [hexNibbles_length (hexNibbles_of_map hds), hl]
  have hlt := hexNibbles_lt (hexNibbles_of_map hds)
  obtain ⟨t, ht, -, hframe, hpair, hother⟩ := compatSetBitsetWritesTheMatrix s (BitVec.ofNat 120 (nibblesNumber ds)) hm hplain
  refine ⟨t, (exec_compatSetHex (hexBitset_of_map hl hds) s).trans ht, hframe, fun c j l r hc hj h1 hlr h16 hoff => ?_, hother⟩
  rw [hpair l r h1 hlr h16, hoff, getLsbD_nibblesNumber hlt hlen hc hj]

/-! ## Reads into a result -/

/-- Settles O41. -/
theorem compatGetBitsetReadsTheMatrix : Obligations.CompatGetBitsetReadsTheMatrix := by
  unfold Obligations.CompatGetBitsetReadsTheMatrix
  intro s hplain
  obtain ⟨bits, past, hrun, hbits⟩ := runMicros_compatLoads (s := { s with acc := 0 }) hplain
  have hexec : exec .compatGetBitset s = runStarted (.going { s with acc := 0 } compatLoads .replyBitset) := rfl
  rw [runStarted_going, hrun] at hexec
  exact ⟨bits, settlePast s.who past, hexec, fun l r h1 hlr h16 => hbits l r (mem_compatPairs.mpr ⟨h1, hlr, h16⟩)⟩

/-- The three drivers' reads, with plain accesses, put one driver into each of the three lowest bits of the result (R59, R180). -/
theorem runMicros_threeLoads {s : State} (h : s.plain) (g y r : VarId) :
    ∃ (bits : Bitset) (past : List Superseded), runMicros [.load g 0, .load y 1, .load r 2] s = { s with acc := bits, past := past }
      ∧ bits.getLsbD 0 = s.getBit g ∧ bits.getLsbD 1 = s.getBit y ∧ bits.getLsbD 2 = s.getBit r := by
  obtain ⟨past, hrun⟩ := runMicros_loads [(g, 0), (y, 1), (r, 2)] h
  have hbit := fun l hl => getLsbD_foldl_setSlot s.getBit (ls := [(g, 0), (y, 1), (r, 2)]) (by simp) (by simp) s.acc (l := l) hl
  exact ⟨_, past, hrun, hbit (g, 0) (by simp), hbit (y, 1) (by simp), hbit (r, 2) (by simp)⟩

/-- R180's table, read from its results: each colour says that its driver alone is on. -/
theorem indicationOf_iff : ∀ g y r : Bool,
    (indicationOf g y r = .green ↔ g = true ∧ y = false ∧ r = false)
    ∧ (indicationOf g y r = .yellow ↔ g = false ∧ y = true ∧ r = false)
    ∧ (indicationOf g y r = .red ↔ g = false ∧ y = false ∧ r = true) := by decide

/-- Settles O43. -/
theorem lsIndicationIsTheDriversTable : Obligations.LsIndicationIsTheDriversTable := by
  unfold Obligations.LsIndicationIsTheDriversTable
  intro s c h1 h16 hplain hg hy hr
  have hexec := exec_of_start (i := .lsIndication c) (congrArg some (startLsIndication_going h1 h16 hg hy hr))
  obtain ⟨bits, past, hrun, b0, b1, b2⟩ := runMicros_threeLoads (s := { s with acc := 0 }) hplain
    (lsGreenId s.params c.toNat) (lsYellowId s.params c.toNat) (lsRedId s.params c.toNat)
  rw [runStarted_going, hrun] at hexec
  refine ⟨bits, settlePast s.who past, _, hexec, ?_⟩
  show (indicationOf (bits.getLsbD 0) (bits.getLsbD 1) (bits.getLsbD 2) = .green ↔ _)
    ∧ (indicationOf (bits.getLsbD 0) (bits.getLsbD 1) (bits.getLsbD 2) = .yellow ↔ _)
    ∧ (indicationOf (bits.getLsbD 0) (bits.getLsbD 1) (bits.getLsbD 2) = .red ↔ _)
  rw [b0, b1, b2]
  exact indicationOf_iff _ _ _

end Sys2Proof.Proofs
end

section
/-! PROOFS. Accesses that overlap operations in progress (R64, R65, R66): what a read can return and a write can leave, and that a completed
operation's writes are read by all. -/

namespace Sys2Proof.Proofs

open Sys2Proof.Machine Sys2Proof.Laws

/-! ## Choosing a depth -/

/-- The choices of the turn, given anew (R64, R66). -/
def withPicks (picks : Picks) (s : State) : State := { s with picks := picks }

@[simp] theorem withPicks_unseen (picks : Picks) (s : State) (id : VarId) : (withPicks picks s).unseen id = s.unseen id := rfl
@[simp] theorem withPicks_getVar (picks : Picks) (s : State) (id : VarId) : (withPicks picks s).getVar id = s.getVar id := rfl

/-- Every depth that leaves the agent a value to read can be chosen, whatever is chosen for other cells. -/
theorem depth_withPicks {s : State} {id : VarId} {n : Nat} (picks : Picks) (h : n ≤ (s.unseen id).length) :
    (withPicks ((id, n) :: picks) s).depth id = n := by
  have hpick : pickOf (withPicks ((id, n) :: picks) s).picks id = n := if_pos rfl
  rw [State.depth, hpick, withPicks_unseen, if_pos h]

/-- With the newest value chosen, a read returns it. -/
theorem readVar_withPicks_newest (picks : Picks) (s : State) (id : VarId) : (withPicks ((id, 0) :: picks) s).readVar id = s.getVar id :=
  readVar_plain (depth_withPicks picks (Nat.zero_le _))

/-- Every older value that its agent may still read is returned for some choice (R64). -/
theorem exists_readVar_eq {s : State} {id : VarId} {e : Superseded} (picks : Picks) (h : e ∈ s.unseen id) :
    ∃ n, (withPicks ((id, n) :: picks) s).readVar id = e.value := by
  obtain ⟨i, hi, rfl⟩ := List.getElem_of_mem h
  refine ⟨(s.unseen id).length - i, ?_⟩
  have hplace : (s.unseen id).length - ((s.unseen id).length - i) = i := by omega
  rw [State.readVar, depth_withPicks picks (Nat.sub_le _ _), withPicks_unseen, oldValue, hplace, List.getElem?_eq_getElem hi]

/-! ## GET -/

/-- GET of a catalogued cell answers what its read returns (R110). -/
theorem exec_get_catalogued {s : State} {id : VarId} (h : inCatalog s.params id = true) :
    exec (.get id) s = .next ((s.seeVar id).reply (.value (s.readVar id))) := if_pos h

/-- A read returns the newest value, or an older one that its agent has not passed, from wherever these are listed (R64). -/
theorem readVar_newest_or_past (s : State) (id : VarId) :
    s.readVar id = s.getVar id ∨ ∃ e ∈ s.past, e.id = id ∧ s.who ∉ e.seen ∧ s.readVar id = e.value := by
  rcases readVar_cases s id with h | ⟨e, he, hv⟩
  · exact .inl h
  · obtain ⟨hpast, hid, hseen⟩ := mem_unseen.mp he
    exact .inr ⟨e, hpast, hid, hseen, hv⟩

/-- Where the table's and the older values fit their cells, so does what a read returns (R21). -/
theorem valueFits_readVar {s : State} (ht : s.mem.typed = true) (hp : ∀ e ∈ s.past, valueFits e.id.ty e.value = true) (id : VarId) :
    valueFits id.ty (s.readVar id) = true := by
  rcases readVar_newest_or_past s id with h | ⟨e, he, rfl, -, hv⟩
  · rw [h]
    exact typed_get ht id
  · rw [hv]
    exact hp e he

/-- Settles O11. -/
theorem getReturnsTheCell : Obligations.GetReturnsTheCell := by
  unfold Obligations.GetReturnsTheCell
  intro s id hid
  exact ⟨s.readVar id, (s.seeVar id).past, exec_get_catalogued hid, readVar_newest_or_past s id, readVar_plain,
    fun ht hp => of_decide_eq_true (valueFits_readVar ht hp id)⟩

/-- Settles O56. -/
theorem overlappingGetReturnsOldOrNew : Obligations.OverlappingGetReturnsOldOrNew := by
  unfold Obligations.OverlappingGetReturnsOldOrNew
  intro s id hid
  refine ⟨⟨s.readVar id, _, exec_get_catalogued hid, rfl, readVar_newest_or_past s id⟩, fun picks v hv => ?_⟩
  suffices h : ∃ n, (withPicks ((id, n) :: picks) s).readVar id = v by
    obtain ⟨n, hread⟩ := h
    refine ⟨n, _, exec_get_catalogued (s := withPicks ((id, n) :: picks) s) hid, ?_⟩
    rw [hread]
    rfl
  rcases hv with rfl | ⟨e, he, hi, hseen, rfl⟩
  · exact ⟨0, readVar_withPicks_newest picks s id⟩
  · exact exists_readVar_eq picks (mem_unseen.mpr ⟨he, hi, hseen⟩)

/-! ## Racing writes -/

/-- A write that comes before a newer one leaves every cell as it stood (R66). -/
theorem setVar_getVar_behind {s : State} {id : VarId} (v : Half) (hd : s.depth id ≠ 0) :
    (s.setVar id v).getVar id = s.getVar id := by
  rw [State.getVar, setVar_mem, if_neg hd]
  rfl

/-- A write leaves its value in its cell, or the one that stood there (R66). -/
theorem setVar_getVar_cases {s : State} (id : VarId) (v : Half) (hm : s.mem.wf = true) :
    (s.setVar id v).getVar id = v ∨ (s.setVar id v).getVar id = s.getVar id := by
  by_cases hd : s.depth id = 0
  · exact .inl (setVar_getVar_self v hd hm)
  · exact .inr (setVar_getVar_behind v hd)

/-- SET of a catalogued cell and a value of its type is one write (R111). -/
theorem exec_set_catalogued {s : State} {id : VarId} {v : Half} (hid : inCatalog s.params id = true) (hv : v.toNat < 2 ^ typeWidth id.ty) :
    exec (.set id v) s = .next ((s.setVar id v).settle.reply .ok) :=
  exec_of_start (i := .set id v) (congrArg some (startSet_going hid (decide_eq_true hv)))

/-- Settles O59: the choice of depth 0, and of the depth of every write that the agent has not read. -/
theorem racingWritesLeaveEitherValue : Obligations.RacingWritesLeaveEitherValue := by
  unfold Obligations.RacingWritesLeaveEitherValue
  intro s id v hm hid hv
  refine ⟨⟨_, exec_set_catalogued hid hv, setVar_getVar_cases id v hm, fun id' hne => setVar_getVar_other s v hne⟩, ?_, fun hne => ?_⟩
  · exact ⟨_, _, exec_set_catalogued (s := withPicks [(id, 0)] s) hid hv,
      setVar_getVar_self (s := withPicks [(id, 0)] s) v (depth_withPicks [] (Nat.zero_le _)) hm⟩
  · have hd : (withPicks [(id, (s.unseen id).length)] s).depth id ≠ 0 := by
      rw [depth_withPicks [] (Nat.le_refl _)]
      exact fun h => hne (List.length_eq_zero_iff.mp h)
    exact ⟨_, _, exec_set_catalogued (s := withPicks [(id, (s.unseen id).length)] s) hid hv, setVar_getVar_behind v hd⟩

/-! ## Steps of an operation in progress -/

/-- A single-variable step leaves a cell as it was, or writes it (R60, R62). -/
theorem runMicro_getVar_cases {m : Micro} {s : State} (hm : s.mem.wf = true) (id : VarId) :
    (runMicro m s).getVar id = s.getVar id ∨ (id, (runMicro m s).getVar id) ∈ microWrites s m := by
  have write : ∀ (k : VarId) (v : Half), (s.setVar k v).getVar id = s.getVar id ∨ (id, (s.setVar k v).getVar id) = (k, v) := fun k v => by
    by_cases hk : id = k
    · subst hk
      exact (setVar_getVar_cases id v hm).symm.imp_right (congrArg (Prod.mk id))
    · exact .inl (setVar_getVar_other s v hk)
  cases m with
  | dec src e => exact (write e.id _).imp_right List.mem_singleton.mpr
  | fill dst addr type len => cases dst <;> exact .inl rfl
  | enc dst e => cases dst <;> exact .inl rfl
  | put dst e v => cases dst <;> exact .inl rfl
  | store k v => exact (write k v).imp_right List.mem_singleton.mpr
  | load k slot => exact .inl rfl

/-- The write that a step makes is a store's, or an element decode's of its buffer. -/
theorem mem_microWrites {s : State} {m : Micro} {id : VarId} {v : Half} (h : (id, v) ∈ microWrites s m) :
    m = .store id v ∨ ∃ src e, m = .dec src e ∧ e.id = id ∧ v = elementValue (s.decBuf src) e := by
  cases m with
  | store k w =>
    simp only [microWrites, List.mem_singleton, Prod.mk.injEq] at h
    obtain ⟨rfl, rfl⟩ := h
    exact .inl rfl
  | dec src e =>
    simp only [microWrites, List.mem_singleton, Prod.mk.injEq] at h
    obtain ⟨rfl, rfl⟩ := h
    exact .inr ⟨src, e, rfl, rfl, rfl⟩
  | _ => cases h

/-- Settles O52, by what an agent's advance can do. -/
theorem overlappedCellIsOldOrNew : Obligations.OverlappedCellIsOldOrNew := by
  unfold Obligations.OverlappedCellIsOldOrNew
  intro s t a k picks o id hm ho h
  rcases advanceOp_cases h with ⟨hnone, -⟩ | ⟨o', ho', hcase⟩
  · rw [ho] at hnone
    cases hnone
  obtain rfl : o = o' := Option.some.inj (ho.symm.trans ho')
  rcases hcase with ⟨cell, rfl⟩ | rfl | ⟨j, m, u, hj, hu, rfl⟩
  · exact .inl rfl
  · exact .inl (congrArg (Memory.get · id) (by cases o.fin <;> rfl))
  · obtain rfl := execMicro_next hu
    have hmem : m ∈ o.todo := List.mem_of_getElem? hj
    rcases runMicro_getVar_cases (m := m) (s := s.stepping o a picks) hm id with hkeep | hwrite
    · exact .inl hkeep
    · rcases mem_microWrites hwrite with hstore | ⟨src, e, hdec, he, hv⟩
      · exact .inr (.inl ⟨_, hstore ▸ hmem, rfl⟩)
      · exact .inr (.inr ⟨src, e, hdec ▸ hmem, he, hv.trans (by cases src <;> rfl)⟩)

/-! ## Completion -/

/-- What a completion leaves of a cell stands behind every write of its operation to that cell (R65). -/
theorem mem_settlePast_behind {who : Agent} {before after : List Superseded} {e x : Superseded} (he : e.writer = who)
    (hx : x ∈ settlePast who (before ++ e :: after)) (hid : x.id = e.id) : x ∈ after := by
  induction before with
  | nil =>
    rw [List.nil_append, settlePast, if_pos (.inl he)] at hx
    exact (mem_settlePast hx).1
  | cons b before ih =>
    rw [List.cons_append, settlePast] at hx
    split at hx
    · exact ih hx
    · next hkept =>
      rcases List.mem_cons.mp hx with rfl | hx
      · refine absurd (.inr ?_) hkept
        exact List.any_eq_true.mpr ⟨e, by simp, by simp [he, hid]⟩
      · exact ih hx

/-- Settles O58. -/
theorem completedWritesAreSeenByAll : Obligations.CompletedWritesAreSeenByAll := by
  unfold Obligations.CompletedWritesAreSeenByAll
  refine ⟨fun s t a k picks o before after e ho htodo h hpast he x hx hid => ?_, fun s a picks id hl ho => ?_⟩
  · rw [advanceOp_last k ho htodo] at h
    cases h
    rw [finishOp_past, stepping_past, hpast, List.append_assoc, List.singleton_append] at hx
    exact mem_settlePast_behind he hx hid
  · exact readVar_of_readsNewest (s := { s with who := a, picks := picks }) (readsNewest_of_past (past_of_legal hl ho)) id

end Sys2Proof.Proofs
end

section
/-! PROOFS. The order of a cell's values as each agent sees it (R65): no step gives an agent back a value that it could no longer read, but by a
write of that step's operation; and an agent's reads go forward. -/

namespace Sys2Proof.Proofs

open Sys2Proof.Machine Sys2Proof.Laws

/-! ## Single-variable steps -/

/-- A step takes the oldest values from its agent at most, and puts in what it writes. -/
theorem readable_runMicro {s : State} (hm : s.mem.wf = true) (m : Micro) (a : Agent) (id : VarId) :
    Advances (fun v => (id, v) ∈ microWrites s m) (s.readable a id) ((runMicro m s).readable a id) := by
  have write : ∀ (k : VarId) (v : Half), Advances (fun w => (id, w) ∈ [(k, v)]) (s.readable a id) ((s.setVar k v).readable a id) := fun k v => by
    by_cases hk : id = k
    · subst hk
      exact advances_mono (fun w hw => by simp [hw]) (readable_setVar hm a id v)
    · rw [readable_setVar_other s a v hk]
      exact advances_refl _ _
  cases m with
  | dec src e => exact write e.id _
  | fill dst addr type len => cases dst <;> exact advances_refl _ _
  | enc dst e => cases dst <;> exact readable_seeVar _ s a e.id id
  | put dst e v => cases dst <;> exact advances_refl _ _
  | store k v => exact write k v
  | load k slot => exact readable_seeVar _ s a k id

theorem runMicro_wf {s : State} (m : Micro) (hm : s.mem.wf = true) : (runMicro m s).mem.wf = true := by
  cases m with
  | dec src e => exact setVar_wf hm
  | fill dst addr type len => cases dst <;> exact hm
  | enc dst e => cases dst <;> exact hm
  | put dst e v => cases dst <;> exact hm
  | store k v => exact setVar_wf hm
  | load k slot => exact hm

/-- No step decodes a buffer that a step encodes into: RX is never encoded into, and the steps that encode into B come with none that decodes B. -/
def DecodesApart (ms : List Micro) : Prop := ∀ m ∈ ms, isEncodeStep m = true → ∀ e, Micro.dec .b e ∉ ms

theorem decodesApart_of_no_encode {ms : List Micro} (h : ∀ m ∈ ms, isEncodeStep m = false) : DecodesApart ms := fun m hm he => by
  rw [h m hm] at he
  cases he

theorem runMicro_rx (m : Micro) (s : State) : (runMicro m s).rx = s.rx := by
  obtain ⟨_, _, _, _, _, h⟩ := runMicro_frame m s
  rw [h]

/-- What a step writes does not change with a step that leaves the buffer alone which it decodes. -/
theorem microWrites_runMicro {m m' : Micro} (h : isEncodeStep m = true → ∀ e, m' ≠ .dec .b e) (s : State) :
    microWrites (runMicro m s) m' = microWrites s m' := by
  cases m' with
  | dec src e =>
    have hbuf : (runMicro m s).decBuf src = s.decBuf src := by
      cases src with
      | rx => exact runMicro_rx m s
      | b =>
        have henc : isEncodeStep m = false := Bool.eq_false_iff.mpr fun he => h he e rfl
        cases m with
        | dec src' e' => rfl
        | store k v => rfl
        | load k slot => rfl
        | _ => cases henc
    simp only [microWrites, hbuf]
  | _ => rfl

/-- Steps that decode apart take the oldest values from an agent at most, and put in what they write. -/
theorem readable_runMicros {s : State} {ms : List Micro} (hm : s.mem.wf = true) (hms : DecodesApart ms) (a : Agent) (id : VarId) :
    Advances (fun v => (id, v) ∈ ms.flatMap (microWrites s)) (s.readable a id) ((runMicros ms s).readable a id) := by
  induction ms generalizing s with
  | nil => exact advances_refl _ _
  | cons m ms ih =>
    have hrest : DecodesApart ms := fun x hx he e hmem => hms x (List.mem_cons_of_mem _ hx) he e (List.mem_cons_of_mem _ hmem)
    have hsame : ms.flatMap (microWrites (runMicro m s)) = ms.flatMap (microWrites s) :=
      List.flatMap_congr fun x hx => microWrites_runMicro (fun he e hxe => hms m List.mem_cons_self he e (hxe ▸ List.mem_cons_of_mem _ hx)) s
    have hleft := ih (runMicro_wf m hm) hrest
    rw [hsame] at hleft
    rw [List.flatMap_cons]
    exact advances_trans (advances_mono (fun v hv => List.mem_append_left _ hv) (readable_runMicro hm m a id))
      (advances_mono (fun v hv => List.mem_append_right _ hv) hleft)

/-! ## Operations that begin, move and end -/

theorem readable_finishOp (new : Half → Prop) (fin : Finish) (s : State) (a : Agent) (id : VarId) :
    Advances new (s.readable a id) ((finishOp fin s).readable a id) := by
  have hmem : (finishOp fin s).mem = s.settle.mem := by cases fin <;> rfl
  rw [readable_congr hmem (finishOp_past fin s)]
  exact readable_settle new s a id

theorem readable_endsAtOnce (new : Half → Prop) {s t : State} (h : EndsAtOnce s t) (a : Agent) (id : VarId) :
    Advances new (s.readable a id) (t.readable a id) := by
  cases h with
  | reads k r => exact readable_seeVar new s a k id
  | faults f =>
    rw [readable_congr (raiseFault_mem s f) (raiseFault_past s f)]
    exact advances_refl _ _
  | lineFaults f hl =>
    rw [readable_congr (raiseFault_mem _ f) (raiseFault_past _ f)]
    exact advances_refl _ _
  | _ => exact advances_refl _ _

theorem readable_lineMoves (new : Half → Prop) {s t : State} (h : LineMoves s t) (a : Agent) (id : VarId) :
    Advances new (s.readable a id) (t.readable a id) := by
  cases h with
  | fails stops e hl => cases stops <;> exact advances_refl _ _
  | _ => exact advances_refl _ _

theorem readable_begun {s s' : State} {todo : List Micro} {fin : Finish} (h : Begun s s' todo fin) (a : Agent) (id : VarId) :
    s'.readable a id = s.readable a id := by
  cases h <;> rfl

theorem begun_wf {s s' : State} {todo : List Micro} {fin : Finish} (h : Begun s s' todo fin) (hm : s.mem.wf = true) :
    s'.mem.wf = true := by
  cases h <;> exact hm

/-- An operation's decodes come before its encodes, from another buffer (R130, R131, R166). -/
theorem decodesApart_begun {s s' : State} {todo : List Micro} {fin : Finish} (h : Begun s s' todo fin) : DecodesApart todo := by
  cases h with
  | store n hid hv => exact decodesApart_of_no_encode (by simp [isEncodeStep])
  | decodes hd hl => exact decodesApart_of_no_encode (decodeMicros_no_encode _ _)
  | encodes hd hl => exact fun m hm he e hmem => by simp [encodeMicros] at hmem
  | dispatches hp hl hfree => exact fun m hm he e hmem => by simp [dispatchMicros, decodeMicros, encodeMicros] at hmem
  | serves hp hl hfree hlisten => exact fun m hm he e hmem => by simp [dispatchMicros, decodeMicros, encodeMicros] at hmem
  | stores bits =>
    refine decodesApart_of_no_encode ?_
    rw [compatStores, List.forall_mem_map]
    exact fun _ _ => rfl
  | loads ls hfin =>
    refine decodesApart_of_no_encode ?_
    rw [List.forall_mem_map]
    exact fun _ _ => rfl

theorem issuedWrites_going {s s' : State} {e : Encoded} {i : Instr} {todo : List Micro} {fin : Finish} (hd : decode e = .ok i)
    (hs : startOf i s = some (.going s' todo fin)) : s.issuedWrites e = todo.flatMap (microWrites s') := by
  simp only [State.issuedWrites, hd, hs]

/-- A port's instruction that runs at once puts in what its operation writes. -/
theorem readable_exec {s t : State} {e : Encoded} {i : Instr} (hm : s.mem.wf = true) (hd : decode e = .ok i) (hp : OnPort i)
    (h : exec i s = .next t) (a : Agent) (id : VarId) :
    Advances (fun v => (id, v) ∈ s.issuedWrites e) (s.readable a id) (t.readable a id) := by
  cases hs : startOf i s with
  | none => exact readable_endsAtOnce _ (exec_of_no_start hp hs h) a id
  | some st =>
    rw [exec_of_start hs] at h
    cases startOf_beginning hs with
    | refused r => cases h
    | ended he =>
      cases h
      exact readable_endsAtOnce _ he a id
    | @going s' todo fin hb =>
      cases h
      rw [issuedWrites_going hd hs, ← readable_begun hb]
      exact advances_trans (readable_runMicros (begun_wf hb hm) (decodesApart_begun hb) a id) (readable_finishOp _ fin _ a id)

/-- A port's instruction that begins writes nothing yet. -/
theorem readable_beginInstr (new : Half → Prop) {s t : State} {i : Instr} (hp : OnPort i) (h : beginInstr i s = .next t) (a : Agent)
    (id : VarId) : Advances new (s.readable a id) (t.readable a id) := by
  rcases beginInstr_next hp h with he | ⟨s', todo, fin, hb, rfl⟩
  · exact readable_endsAtOnce new he a id
  · rw [← readable_begun hb]
    exact advances_refl _ _

theorem pendingWrites_of_open {s : State} {a : Agent} {o : OpenOp} (h : s.opens.find? (fun x => decide (x.agent = a)) = some o) :
    s.pendingWrites a = o.todo.flatMap (microWrites { s with b := o.buf }) := by
  simp only [State.pendingWrites, h]

/-- An agent's advance of its operation puts in what that operation has still to write. -/
theorem readable_advanceOp {s t : State} {a : Agent} {k : Nat} {picks : Picks} (hm : s.mem.wf = true) (h : advanceOp a k picks s = .next t)
    (b : Agent) (id : VarId) : Advances (fun v => (id, v) ∈ s.pendingWrites a) (s.readable b id) (t.readable b id) := by
  rcases advanceOp_cases h with ⟨-, rfl⟩ | ⟨o, ho, hcase⟩
  · exact advances_refl _ _
  rw [pendingWrites_of_open ho]
  rcases hcase with ⟨cell, rfl⟩ | rfl | ⟨j, m, u, hj, hu, rfl⟩
  · exact readable_seeVar _ (s.stepping o a picks) b cell id
  · exact readable_finishOp _ o.fin (s.stepping o a picks) b id
  · obtain rfl := execMicro_next hu
    have hsame : microWrites (s.stepping o a picks) m = microWrites { s with b := o.buf } m := by
      cases m with
      | dec src e => cases src <;> rfl
      | _ => rfl
    refine advances_mono (fun v hv => ?_) (readable_runMicro (s := s.stepping o a picks) hm m b id)
    exact List.mem_flatMap.mpr ⟨m, List.mem_of_getElem? hj, hsame ▸ hv⟩

/-! ## Steps -/

/-- A turn puts in what its operation writes (R64, R65). -/
theorem readable_takeTurn {s t : State} {turn : Turn} {rest : List Turn} (hm : s.mem.wf = true) (ht : s.turns = turn :: rest)
    (h : takeTurn turn s { s with turns := rest } = .next t) (a : Agent) (id : VarId) :
    Advances (fun v => (id, v) ∈ s.stepWrites) (s.readable a id) (t.readable a id) := by
  cases turn with
  | host n bytes buf picks =>
    have hw : s.stepWrites = if s.busy (.host n) then s.pendingWrites (.host n)
        else { s with turns := rest, who := .host n, b := buf, picks := picks }.issuedWrites (.host bytes) := by
      simp only [State.stepWrites, ht]
    have hbusy : State.busy { s with turns := rest } (.host n) = s.busy (.host n) := rfl
    rw [hw]
    simp only [takeTurn, hbusy] at h
    split at h
    · next hb =>
      rw [if_pos hb]
      exact readable_advanceOp hm h a id
    · next hb =>
      rw [if_neg hb]
      unfold runHost at h
      split at h
      · next i hd =>
        exact readable_exec (s := { s with turns := rest, who := .host n, b := buf, picks := picks }) hm hd (decode_host_onPort hd) h a id
      · cases h
  | hostBegin n bytes buf picks =>
    have hw : s.stepWrites = s.pendingWrites (.host n) := by simp only [State.stepWrites, ht]
    rw [hw]
    simp only [takeTurn] at h
    split at h
    · exact readable_advanceOp hm h a id
    · unfold beginHost at h
      split at h
      · next i hd => exact (readable_beginInstr _ (decode_host_onPort hd) h a id :)
      · cases h
  | rx bytes picks =>
    have hw : s.stepWrites = { s with turns := rest, who := .line, picks := picks }.issuedWrites (.line bytes) := by
      simp only [State.stepWrites, ht]
    rw [hw]
    exact readable_exec (s := { s with turns := rest, who := .line, picks := picks }) hm rfl (decodeLine_onPort bytes) h a id
  | rxBegin bytes => exact (readable_beginInstr _ (decodeLine_onPort bytes) h a id :)
  | advance n k picks =>
    have hw : s.stepWrites = s.pendingWrites n := by simp only [State.stepWrites, ht]
    rw [hw]
    exact readable_advanceOp (s := { s with turns := rest }) hm h a id
  | lineHead checksHere =>
    cases h
    exact readable_lineMoves _ (passHead_moves checksHere { s with turns := rest }) a id
  | rxError code stops =>
    cases h
    exact readable_lineMoves _ (failRead_moves code stops { s with turns := rest }) a id
  | txDone =>
    cases h
    exact readable_lineMoves _ (completeWrite_moves { s with turns := rest }) a id
  | txError code stops =>
    cases h
    exact readable_lineMoves _ (failWrite_moves code stops { s with turns := rest }) a id

/-- Once initialisation has ended, a step puts in what its turn's operation writes. -/
theorem readable_step {s t : State} (hm : s.mem.wf = true) (hb : s.boot ≠ .pending) (h : step s = .next t) (a : Agent) (id : VarId) :
    Advances (fun v => (id, v) ∈ s.stepWrites) (s.readable a id) (t.readable a id) := by
  cases hf : s.fault with
  | some f =>
    rw [step_of_fault hf] at h
    cases h
  | none =>
    cases ht : s.turns with
    | nil =>
      rw [step_idle hf hb ht] at h
      cases h
      exact advances_refl _ _
    | cons turn rest => exact readable_takeTurn hm ht (step_of_turn hf hb ht ▸ h) a id

/-! ## GET -/

/-- The value at a depth, counted from the front of the order. -/
theorem oldValue_eq_getD (es : List Superseded) {k : Nat} (hk : k ≤ es.length) (newest : Half) :
    oldValue es k newest = (es.map (·.value) ++ [newest]).getD (es.length - k) 0 := by
  rw [oldValue, List.getD_eq_getElem?_getD]
  by_cases h0 : k = 0
  · subst h0
    simp
  · have hlt : es.length - k < es.length := by omega
    rw [List.getElem?_append_left (by simpa using hlt), List.getElem?_map, List.getElem?_eq_getElem hlt]
    rfl

/-- A GET returns one of the values that its agent may read, and takes every value before it (R65). -/
theorem exec_get_order {s t : State} {id : VarId} (h : exec (.get id) s = .next t) :
    inCatalog s.params id = true ∧ t.params = s.params ∧ t.who = s.who
      ∧ ∃ i, i < (s.readable s.who id).length ∧ t.replies.head? = some (s.who, .value ((s.readable s.who id).getD i 0))
        ∧ t.readable s.who id = (s.readable s.who id).drop i := by
  have hid : inCatalog s.params id = true := by
    by_contra hno
    rw [exec_get_uncatalogued (Bool.eq_false_iff.mpr hno)] at h
    cases h
  rw [exec_get_catalogued hid] at h
  cases h
  have hread : s.readVar id = (s.readable s.who id).getD ((s.unseen id).length - s.depth id) 0 := oldValue_eq_getD _ (depth_le s id) _
  have hlen : (s.readable s.who id).length = (s.unseen id).length + 1 := by simp [readable_eq, unseen_eq]
  exact ⟨hid, rfl, rfl, (s.unseen id).length - s.depth id, by omega, hread ▸ rfl, readable_seeVar_self s id⟩

/-- Settles O57. -/
theorem agentsNeverReadBackwards : Obligations.AgentsNeverReadBackwards := by
  unfold Obligations.AgentsNeverReadBackwards
  refine ⟨fun s t a id hm hb h => readable_step hm hb h a id, fun s t id h => ?_⟩
  obtain ⟨hid, hparams, hwho, i, hi, hreply, hleft⟩ := exec_get_order h
  refine ⟨i, hi, hreply, hleft, fun picks => ?_⟩
  have hnext := exec_get_catalogued (s := withPicks picks t) (id := id) (hparams ▸ hid)
  obtain ⟨-, -, -, k, hk, hreply', -⟩ := exec_get_order hnext
  have hagain : (withPicks picks t).readable (withPicks picks t).who id = (s.readable s.who id).drop i := by
    rw [← hleft, ← hwho]
    rfl
  have hagent : (withPicks picks t).who = s.who := hwho
  rw [hagain] at hk hreply'
  rw [List.length_drop] at hk
  rw [hagent, List.getD_eq_getElem?_getD, List.getElem?_drop, ← List.getD_eq_getElem?_getD] at hreply'
  exact ⟨i + k, _, Nat.le_add_right i k, by omega, hnext, hreply'⟩

end Sys2Proof.Proofs
end

section
/-! PROOFS. Every mix of old and new (R64, R152): COMPAT_GET_BITSET of one agent while COMPAT_SET_BITSET of another has made its writes and not
completed. The writes leave one older value for each pair's cell, and the reader's choice for a cell decides which of the two it reads. -/

namespace Sys2Proof.Proofs

open Sys2Proof.Machine Sys2Proof.Laws

/-! ## The operations' bytes -/

theorem decode_compatSetBitset (bits : Bitset) : decode (.host (0x10 :: leBytes 15 bits.toNat)) = .ok (.compatSetBitset bits) := by
  have htake : takeBytes 15 (leBytes 15 bits.toNat) = some (leBytes 15 bits.toNat, []) := by
    simpa [leBytes_length] using takeBytes_append (leBytes 15 bits.toNat) []
  have hnum : leNat (leBytes 15 bits.toNat) = bits.toNat := leNat_leBytes 15 _ bits.isLt
  have hfront : decodeHostFront (0x10 :: leBytes 15 bits.toNat) = .ok (.compatSetBitset (BitVec.ofNat 120 bits.toNat), []) := by
    generalize leBytes 15 bits.toNat = bytes at htake hnum
    rw [← hnum]
    simp [decodeHostFront, htake]
  rw [BitVec.ofNat_toNat, BitVec.setWidth_eq] at hfront
  simp only [decode, decodeHost, hfront]

/-! ## An operation advanced up to its completion -/

/-- An agent that advances its operation alone, one step for each that is left, makes all of them and leaves the operation in progress (R7, R38). -/
theorem run_advances_steps {s : State} {todo : List Micro} (fin : Finish) (ts : List Turn) (k : Nat) (hf : s.fault = none)
    (hb : s.boot ≠ .pending) (ho : s.opens = []) (hp : s.picks = []) (h : RunsAlone s todo) :
    Sys2Proof.core.run (k + todo.length) (withTurns (advances s.who todo.length ++ ts) (s.hold s.who todo fin))
      = Sys2Proof.core.run k (withTurns ts ((runMicros todo s).hold s.who [] fin)) := by
  induction hn : todo.length generalizing s todo with
  | zero =>
    obtain rfl := List.length_eq_zero_iff.mp hn
    rfl
  | succ n ih =>
    obtain ⟨m, ms, rfl⟩ := List.exists_cons_of_length_eq_add_one hn
    obtain ⟨hlen, hrest, hrun⟩ := runsAlone_stepsAfter h
    obtain ⟨_, _, _, _, _, hm⟩ := runMicro_frame m s
    have hleft := ih (s := runMicro m s) (by rw [hm]; exact hf) (by rw [hm]; exact hb) (by rw [hm]; exact ho) (by rw [hm]; exact hp) hrest
      (hlen.trans (Nat.succ.inj hn))
    rw [runMicro_who, hrun] at hleft
    exact (run_succ_of_next _ (step_advances _ fin hf hb ho hp (h.passes m List.mem_cons_self))).trans hleft

/-- The packer's writes run alone where no older value is left (R151). -/
theorem runsAlone_compatStores {s : State} (bits : Bitset) (h : s.past = []) : RunsAlone s (compatStores bits) where
  passes := by
    rw [compatStores, List.forall_mem_map]
    exact fun _ _ => trivial
  order := encodesLast_of_no_encode (by
    rw [compatStores, List.forall_mem_map]
    exact fun _ _ => rfl)
  newest := readsNewest_of_past h

/-! ## What the writes leave to read -/

/-- The value that a write of the agent whose turn it is supersedes. -/
def supersededBy (s : State) (w : VarId × Half) : Superseded := ⟨w.1, s.getVar w.1, s.who, [s.who]⟩

/-- Writes to different cells, by an agent with nothing older to read, leave the value before each of them (R64). -/
theorem runMicros_stores_past {s : State} {ws : List (VarId × Half)} (hn : (ws.map (·.1)).Nodup) (h : ReadsNewest s) :
    (runMicros (ws.map fun w => .store w.1 w.2) s).past = s.past ++ ws.map (supersededBy s) := by
  induction ws generalizing s with
  | nil => simp
  | cons w ws ih =>
    rw [List.map_cons, List.nodup_cons] at hn
    have hpast : (s.setVar w.1 w.2).past = s.past ++ [supersededBy s w] := by
      rw [setVar_past, if_pos (depth_of_unseen (h w.1)), h w.1, List.length_nil, markSeen]
      rfl
    have hsame : ws.map (supersededBy (s.setVar w.1 w.2)) = ws.map (supersededBy s) := by
      refine List.map_congr_left fun x hx => ?_
      have hne : x.1 ≠ w.1 := fun he => hn.1 (he ▸ List.mem_map_of_mem hx)
      rw [supersededBy, supersededBy, setVar_getVar_other s w.2 hne, setVar_who]
    rw [List.map_cons, runMicros_cons]
    refine (ih hn.2 (readsNewest_setVar w.1 w.2 h)).trans ?_
    rw [hpast, hsame, List.append_assoc, List.singleton_append, List.map_cons]

/-- Another agent may read one older value of each cell that was written so. -/
theorem unseenOf_supersededBy {s : State} {who : Agent} (hwho : who ≠ s.who) {ws : List (VarId × Half)} (hn : (ws.map (·.1)).Nodup)
    {w : VarId × Half} (hw : w ∈ ws) : unseenOf who w.1 (ws.map (supersededBy s)) = [supersededBy s w] := by
  have hseen : ∀ x, who ∉ (supersededBy s x).seen := fun x => by simpa [supersededBy] using hwho
  have others : ∀ xs : List (VarId × Half), w.1 ∉ xs.map (·.1) → unseenOf who w.1 (xs.map (supersededBy s)) = [] := fun xs hx => by
    rw [unseenOf, List.filter_eq_nil_iff, List.forall_mem_map]
    intro x hmem he
    simp only [Bool.and_eq_true, decide_eq_true_eq] at he
    exact hx (List.mem_map.mpr ⟨x, hmem, he.1⟩)
  induction ws with
  | nil => cases hw
  | cons x xs ih =>
    rw [List.map_cons, List.nodup_cons] at hn
    rw [List.map_cons, unseenOf_cons]
    rcases List.mem_cons.mp hw with rfl | hw
    · rw [if_pos ⟨rfl, hseen w⟩, others xs hn.1]
    · rw [if_neg fun he => hn.1 (List.mem_map.mpr ⟨w, hw, he.1.symm⟩), ih hn.2 hw]

/-! ## Reads that choose -/

/-- Reading a cell leaves what every read of the turn returns (R126). -/
theorem readVar_seeVar_any (s : State) (id id' : VarId) : (s.seeVar id).readVar id' = s.readVar id' := by
  by_cases h : id' = id
  · rw [h, readVar_seeVar]
  · exact readVar_seeVar_other s h

/-- Reads into a result put into each slot what the read of its cell returns, whatever the turn chooses. -/
theorem runMicros_loads_acc (ls : List (VarId × Nat)) (s : State) :
    (runMicros (ls.map fun l => .load l.1 l.2) s).acc = ls.foldl (fun acc l => setSlot acc l.2 ((s.readVar l.1).getLsbD 0)) s.acc := by
  induction ls generalizing s with
  | nil => rfl
  | cons l ls ih =>
    have hread : ∀ id, (runMicro (.load l.1 l.2) s).readVar id = s.readVar id := readVar_seeVar_any s l.1
    rw [List.map_cons, runMicros_cons, ih, List.foldl_cons]
    simp only [hread]
    rfl

/-- The bit of each pair in COMPAT_GET_BITSET's result is what the read of its cell returns (R64, R152). -/
theorem getLsbD_compatLoads (s : State) {l r : Nat} (h : (l, r) ∈ compatPairs) :
    (runMicros compatLoads s).acc.getLsbD (compatOff l r) = (s.readVar (compatId l r)).getLsbD 0 := by
  have hloads : compatLoads = compatReads.map fun l => .load l.1 l.2 := by simp [compatLoads, compatReads]
  have hslots : compatReads.map (·.2) = List.range 120 := by
    rw [← compatPairs_offsets, compatReads, List.map_map]
    rfl
  have hmem : (compatId l r, compatOff l r) ∈ compatReads := List.mem_map.mpr ⟨(l, r), h, rfl⟩
  rw [hloads, runMicros_loads_acc]
  refine getLsbD_foldl_setSlot (fun id => (s.readVar id).getLsbD 0) (hslots ▸ List.nodup_range) (fun x hx => ?_) _ hmem
  exact List.mem_range.mp (hslots ▸ List.mem_map_of_mem hx)

/-- The choices that come before the newest write of the cells of all pairs but the chosen ones (R64). -/
def picksOld (chosen : List (Nat × Nat)) : List (Nat × Nat) → Picks
  | [] => []
  | q :: qs => if q ∈ chosen then picksOld chosen qs else (compatId q.1 q.2, 1) :: picksOld chosen qs

theorem pickOf_picksOld (chosen : List (Nat × Nat)) {qs : List (Nat × Nat)} (hqs : qs ⊆ compatPairs) {q : Nat × Nat}
    (hq : q ∈ compatPairs) :
    pickOf (picksOld chosen qs) (compatId q.1 q.2) = if q ∈ qs ∧ q ∉ chosen then 1 else 0 := by
  induction qs with
  | nil => simp [picksOld, pickOf]
  | cons x xs ih =>
    rw [List.cons_subset] at hqs
    have hcell : compatId x.1 x.2 = compatId q.1 q.2 ↔ x = q :=
      ⟨fun h => by_contra fun hne => compatId_ne hqs.1 hq hne h, fun h => h ▸ rfl⟩
    have hrest := ih hqs.2
    by_cases hxq : x = q
    · subst hxq
      by_cases hc : x ∈ chosen
      · rw [picksOld, if_pos hc, hrest]
        simp [hc]
      · simp [picksOld, pickOf, hc]
    · have hqx : q ≠ x := fun h => hxq h.symm
      have hsame : pickOf (picksOld chosen (x :: xs)) (compatId q.1 q.2) = pickOf (picksOld chosen xs) (compatId q.1 q.2) := by
        rw [picksOld]
        split
        · rfl
        · rw [pickOf, if_neg fun h => hxq (hcell.mp h)]
      rw [hsame, hrest]
      simp [hqx]

/-- A cell with one older value to read gives that one where the turn's choice is 1, and the newest where it is 0. -/
theorem readVar_one_older {s : State} {id : VarId} {e : Superseded} (h : s.unseen id = [e]) {P : Prop} [Decidable P]
    (hp : pickOf s.picks id = if P then 1 else 0) : s.readVar id = if P then e.value else s.getVar id := by
  by_cases hP : P
  · rw [if_pos hP] at hp ⊢
    simp [State.readVar, State.depth, oldValue, h, hp]
  · rw [if_neg hP] at hp ⊢
    exact readVar_plain (depth_of_pick hp)

/-! ## The mix -/

/-- Another agent's state after COMPAT_SET_BITSET's writes, with the operation in progress and the choices of old and new. -/
structure Mixing (s0 s : State) (bits : Bitset) (chosen : List (Nat × Nat)) : Prop where
  unseen : ∀ q ∈ compatPairs, ∃ e, s.unseen (compatId q.1 q.2) = [e] ∧ e.value = s0.getVar (compatId q.1 q.2)
  newest : ∀ q ∈ compatPairs, s.getVar (compatId q.1 q.2) = halfOfBit (bits.getLsbD (compatOff q.1 q.2))
  picks : ∀ q ∈ compatPairs, pickOf s.picks (compatId q.1 q.2) = if q ∉ chosen then 1 else 0

/-- The packer's writes leave its bits in the pairs' cells. -/
theorem get_compatStores {s : State} (bits : Bitset) (hm : s.mem.wf = true) (hpast : s.past = []) {q : Nat × Nat} (hq : q ∈ compatPairs) :
    (runMicros (compatStores bits) s).mem.get (compatId q.1 q.2) = halfOfBit (bits.getLsbD (compatOff q.1 q.2)) := by
  obtain ⟨past, hrun⟩ := runMicros_compatStores bits (plain_of_past hpast)
  have hget := get_compatTable_pair bits hm hq
  rw [hrun]
  generalize compatTable bits s.mem = mem at hget ⊢
  exact hget

/-- The packer's writes leave another agent the value before each of them. -/
theorem unseenOf_compatStores {s : State} {who : Agent} (bits : Bitset) (hpast : s.past = []) (hwho : who ≠ s.who) {q : Nat × Nat}
    (hq : q ∈ compatPairs) :
    ∃ e, unseenOf who (compatId q.1 q.2) (runMicros (compatStores bits) s).past = [e] ∧ e.value = s.getVar (compatId q.1 q.2) := by
  have hw : (compatId q.1 q.2, halfOfBit (bits.getLsbD (compatOff q.1 q.2))) ∈ compatWrites bits := List.mem_map.mpr ⟨q, hq, rfl⟩
  refine ⟨supersededBy s (compatId q.1 q.2, halfOfBit (bits.getLsbD (compatOff q.1 q.2))), ?_, rfl⟩
  rw [compatStores_eq, runMicros_stores_past (compatWrites_nodup bits) (readsNewest_of_past hpast), hpast, List.nil_append]
  exact unseenOf_supersededBy hwho (compatWrites_nodup bits) hw

theorem mixing_compatStores {s s' : State} {bits : Bitset} {chosen : List (Nat × Nat)} (hm : s.mem.wf = true) (hpast : s.past = [])
    (hmem : s'.mem = (runMicros (compatStores bits) s).mem) (hpast' : s'.past = (runMicros (compatStores bits) s).past)
    (hwho : s'.who ≠ s.who) (hpicks : s'.picks = picksOld chosen compatPairs) : Mixing s s' bits chosen where
  unseen q hq := by
    rw [unseen_eq, hpast']
    exact unseenOf_compatStores bits hpast hwho hq
  newest q hq := by
    rw [State.getVar, hmem]
    exact get_compatStores bits hm hpast hq
  picks q hq := by
    rw [hpicks, pickOf_picksOld chosen (List.Subset.refl _) hq]
    simp only [hq, true_and]

/-- The result of a COMPAT_GET_BITSET that mixes: the new bit for the chosen pairs, the old cell for the others. -/
theorem getLsbD_mixing {s0 s : State} {bits : Bitset} {chosen : List (Nat × Nat)} (h : Mixing s0 s bits chosen) {l r : Nat}
    (hq : (l, r) ∈ compatPairs) :
    (runMicros compatLoads s).acc.getLsbD (compatOff l r) =
      if (l, r) ∈ chosen then bits.getLsbD (compatOff l r) else s0.getBit (compatId l r) := by
  obtain ⟨e, he, hold⟩ := h.unseen (l, r) hq
  rw [getLsbD_compatLoads s hq, readVar_one_older he (h.picks (l, r) hq), h.newest (l, r) hq]
  by_cases hc : (l, r) ∈ chosen
  · rw [if_neg (not_not.mpr hc), if_pos hc, halfOfBit_bit]
  · rw [if_pos hc, if_neg hc, hold]
    rfl

theorem replies_finishOp_replyBitset (ms : List Micro) (s : State) :
    (finishOp .replyBitset (runMicros ms s)).replies.head? = some (s.who, .bitset (runMicros ms s).acc) := by
  rw [← runMicros_who ms s]
  rfl

/-- The state in which host agent `a` issues an operation. -/
def asHost (a : Nat) (buf : List Byte) (picks : Picks) (s : State) : State := { s with who := .host a, b := buf, picks := picks }

/-- The state in which host agent `a`'s COMPAT_SET_BITSET has made its writes and not completed. -/
def written (a : Nat) (buf : List Byte) (bits : Bitset) (s : State) : State :=
  (runMicros (compatStores bits) (asHost a buf [] s)).hold (.host a) [] .replyOk

theorem written_mem (a : Nat) (buf : List Byte) (bits : Bitset) (s : State) :
    (written a buf bits s).mem = (runMicros (compatStores bits) (asHost a buf [] s)).mem := by
  rw [written, hold_mem]

theorem written_past (a : Nat) (buf : List Byte) (bits : Bitset) (s : State) :
    (written a buf bits s).past = (runMicros (compatStores bits) (asHost a buf [] s)).past := by
  rw [written, hold_past]

/-- The state in which host agent `a`'s COMPAT_GET_BITSET begins its reads, with no turn left. -/
def getting (a : Nat) (buf : List Byte) (picks : Picks) (s : State) : State := { asHost a buf picks (withTurns [] s) with acc := 0 }

theorem getting_mem (a : Nat) (buf : List Byte) (picks : Picks) (s : State) : (getting a buf picks s).mem = s.mem := rfl
theorem getting_past (a : Nat) (buf : List Byte) (picks : Picks) (s : State) : (getting a buf picks s).past = s.past := rfl

/-- COMPAT_GET_BITSET at once: the result is what its reads have put together (R152). -/
theorem exec_compatGetBitset_asHost (a : Nat) (buf : List Byte) (picks : Picks) (s : State) :
    exec .compatGetBitset (asHost a buf picks (withTurns [] s))
      = .next (finishOp .replyBitset (runMicros compatLoads (getting a buf picks s))) := rfl

/-- The turn that begins the setter's operation and 120 advances make its writes. -/
theorem run_written {s : State} (a : Nat) (bits : Bitset) (buf : List Byte) (turn : Turn) (hf : s.fault = none) (hb : s.boot ≠ .pending)
    (ho : s.opens = []) (hpast : s.past = []) :
    Sys2Proof.core.run 122 (withTurns
        (.hostBegin a (0x10 :: leBytes 15 bits.toNat) buf [] :: (List.replicate 120 (.advance (.host a) 0 []) ++ [turn])) s)
      = Sys2Proof.core.run 1 (withTurns [turn] (written a buf bits s)) := by
  have hlen : (compatStores bits).length = 120 := by rw [compatStores, List.length_map, compatPairs_length]
  have hbegin := (step_withTurns hf hb (.hostBegin a (0x10 :: leBytes 15 bits.toNat) buf []) (advances (.host a) 120 ++ [turn])).trans
    (takeTurn_hostBegin buf [] (by simp [State.busy, withTurns, ho]) (decode_compatSetBitset bits))
  have hsteps := run_advances_steps (s := asHost a buf [] s) .replyOk [turn] 1 hf hb ho rfl (runsAlone_compatStores bits hpast)
  rw [hlen] at hsteps
  exact (run_succ_of_next 121 hbegin).trans hsteps

/-- The getter's turn runs its operation at once, while the setter's is in progress. -/
theorem step_written {s : State} {a a' : Nat} (bits : Bitset) (buf buf' : List Byte) (picks : Picks) (hf : s.fault = none)
    (hb : s.boot ≠ .pending) (ho : s.opens = []) (hne : a ≠ a') :
    step (withTurns [.host a' [0x11] buf' picks] (written a buf bits s))
      = exec .compatGetBitset (asHost a' buf' picks (withTurns [] (written a buf bits s))) := by
  obtain ⟨_, _, _, _, _, hrun⟩ := runMicros_frame (compatStores bits) (asHost a buf [] s)
  have hfault : (written a buf bits s).fault = none := by rw [written, hrun]; exact hf
  have hboot : (written a buf bits s).boot ≠ .pending := by rw [written, hrun]; exact hb
  have hbusy : (withTurns [] (written a buf bits s)).busy (.host a') = false := by
    rw [written, hrun]
    simp [State.busy, withTurns, asHost, ho, hne]
  exact (step_withTurns hfault hboot _ _).trans (takeTurn_host buf' picks hbusy rfl)

/-- Settles O53: the setter's 120 writes, then the getter's reads with `picksOld`. -/
theorem everyMixOfOldAndNewIsReachable : Obligations.EveryMixOfOldAndNewIsReachable := by
  unfold Obligations.EveryMixOfOldAndNewIsReachable
  intro s a a' bits buf buf' chosen hm hf hb ho hpast ht hne
  have hrun := run_written a bits buf (.host a' [0x11] buf' (picksOld chosen compatPairs)) hf hb ho hpast
  have hget := (step_written bits buf buf' (picksOld chosen compatPairs) hf hb ho hne).trans (exec_compatGetBitset_asHost _ _ _ _)
  have hmix : Mixing (asHost a buf [] s) (getting a' buf' (picksOld chosen compatPairs) (written a buf bits s)) bits chosen :=
    mixing_compatStores hm hpast ((getting_mem _ _ _ _).trans (written_mem a buf bits s))
      ((getting_past _ _ _ _).trans (written_past a buf bits s)) (by simpa [asHost, getting] using hne.symm) rfl
  rw [run_succ_of_next 0 hget] at hrun
  refine ⟨0x10 :: leBytes 15 bits.toNat, [0x11], picksOld chosen compatPairs, _, _, rfl, rfl, hrun, replies_finishOp_replyBitset _ _, ?_⟩
  exact fun l r h1 hlr h16 => getLsbD_mixing hmix (mem_compatPairs.mpr ⟨h1, hlr, h16⟩)

end Sys2Proof.Proofs
end

section
/-! PROOFS. The encodings (R80, R83, R86, R94, R100, R101): the decoder reads back what the encoder writes, and every encoding that it accepts
is the encoding of what it answers. The line port and the definition store carry one layout each; the host port's operations are read
operand by operand. -/

namespace Sys2Proof.Proofs

open Sys2Proof.Machine Sys2Proof.Laws

/-! ## The line port -/

/-- A byte string with no type byte is a runt (R163). -/
theorem decodeLine_of_runt {bytes : List Byte} (h : bytes.length < 3) : decodeLine bytes = .runtFrame bytes := by
  match bytes, h with
  | [], _ => rfl
  | [_], _ => rfl
  | [_, _], _ => rfl

/-- A type byte that has no row in the opcode table selects UNMATCHED_TYPE (R95). -/
theorem frameInstr_of_not_tableType {t : Byte} (h : t ∉ tableTypes) (a c : Byte) (p : List Byte) :
    frameInstr a c t p = .unmatchedType a c t p := by
  have hne : ∀ n ∈ tableTypes.map BitVec.toNat, t.toNat ≠ n := by
    rw [List.forall_mem_map]
    exact fun k hk he => h (BitVec.eq_of_toNat_eq he ▸ hk)
  unfold frameInstr
  split
  case h_31 => rfl
  all_goals exact absurd ‹t.toNat = _› (hne _ (by decide))

/-- The line port's bytes are those of the instruction that they are (R80, R83). -/
theorem encode_decodeLine (bytes : List Byte) : encode (decodeLine bytes) = .line bytes := by
  unfold decodeLine
  split
  · exact frameInstr_enc _ _ _ _
  · rfl

/-! ## The host port: what the encoder writes is read back -/

/-- An operation of the host port stands in its bytes alone (R100, R101). -/
theorem decode_host_iff {bytes : List Byte} {i : Instr} : decode (.host bytes) = .ok i ↔ decodeHostFront bytes = .ok (i, []) := by
  simp only [decode, decodeHost]
  split <;> simp_all

theorem decode_get {id : VarId} (h : id.wf = true) : decode (encode (.get id)) = .ok (.get id) := by
  have hid := decodeId_enc id h []
  rw [List.append_nil] at hid
  rw [encode, decode_host_iff]
  simp [decodeHostFront, hid]

theorem decode_set {id : VarId} (h : id.wf = true) (v : Half) : decode (encode (.set id v)) = .ok (.set id v) := by
  have hid := decodeId_enc id h (leBytes 2 v.toNat)
  have hv : leNat (leBytes 2 v.toNat) = v.toNat := leNat_leBytes 2 _ v.isLt
  rw [encode, decode_host_iff]
  obtain ⟨lo, hi, hbytes⟩ : ∃ lo hi, leBytes 2 v.toNat = [lo, hi] := ⟨_, _, rfl⟩
  rw [hbytes] at hid hv ⊢
  simp [decodeHostFront, hid, hv]

theorem decode_frameDecode (t : Byte) {bytes : List Byte} (h : bytes.length < 65536) :
    decode (encode (.frameDecode t bytes)) = .ok (.frameDecode t bytes) := by
  rw [encode, decode_host_iff]
  simp [decodeHostFront, takeString16_enc bytes h]

theorem decode_dispatch {bytes : List Byte} (h : bytes.length < 65536) : decode (encode (.dispatch bytes)) = .ok (.dispatch bytes) := by
  rw [encode, decode_host_iff]
  simp [decodeHostFront, takeString16_enc bytes h]

theorem decode_compatSetHex {str : List Byte} (h : str.length < 256) :
    decode (encode (.compatSetHex str)) = .ok (.compatSetHex str) := by
  rw [encode, decode_host_iff]
  simp [decodeHostFront, takeString8_enc str h]

theorem decode_detCallOr (d : Byte) {results : List Bool} (h : results.length < 256) :
    decode (encode (.detCallOr d results)) = .ok (.detCallOr d results) := by
  have hstr := takeString8_enc (results.map sensorByte) (by simpa using h)
  rw [List.length_map] at hstr
  rw [encode, decode_host_iff]
  simp [decodeHostFront, hstr, sensorResults_enc]

/-- Every well-formed instruction is read back: the operands of variable size by their layouts, and the others from fixed bytes. -/
theorem decode_encode {i : Instr} (h : i.wf = true) : decode (encode i) = .ok i := by
  cases i with
  | unmatchedType a c t p => exact congrArg Except.ok (frameInstr_of_not_tableType (by simpa [Instr.wf] using h) a c p)
  | runtFrame bytes => exact congrArg Except.ok (decodeLine_of_runt (of_decide_eq_true h))
  | get id => exact decode_get h
  | set id v => exact decode_set h v
  | frameDecode t bytes => exact decode_frameDecode t (of_decide_eq_true h)
  | dispatch bytes => exact decode_dispatch (of_decide_eq_true h)
  | compatSetBitset bits => exact decode_compatSetBitset bits
  | compatSetHex str => exact decode_compatSetHex (of_decide_eq_true h)
  | detCallOr d results => exact decode_detCallOr d (of_decide_eq_true h)
  | _ => rfl

/-- Settles O1. -/
theorem decodeOfEncodeIsTheInstruction : Obligations.DecodeOfEncodeIsTheInstruction := by
  unfold Obligations.DecodeOfEncodeIsTheInstruction
  exact fun i h => decode_encode h

/-- A carrier that is the encoding of a well-formed instruction decodes to it. -/
theorem decode_of_encode {e : Encoded} {i : Instr} (he : encode i = e) (h : i.wf = true) : decode e = .ok i := he ▸ decode_encode h

/-- Settles O3: each of the words is the encoding of its instruction, which is well-formed. -/
theorem specEncodingsDecode : Obligations.SpecEncodingsDecode := by
  unfold Obligations.SpecEncodingsDecode
  refine ⟨?_, ?_, ?_, ?_, ?_, ?_, ?_, ?_, ?_, ?_, ?_, ?_⟩ <;> exact decode_of_encode rfl rfl

/-! ## The host port: what is read has the bytes that the encoder writes -/

/-- The operation's bytes stand in front of a byte string, and the rest follows them. -/
def StandsInFront (i : Instr) (bytes rest : List Byte) : Prop := ∃ front, encode i = .host front ∧ bytes = front ++ rest

theorem standsInFront_nil {i : Instr} {bytes : List Byte} (h : StandsInFront i bytes []) : encode i = .host bytes := by
  obtain ⟨front, henc, rfl⟩ := h
  rwa [List.append_nil]

/-- An operation stands in front of a string that begins with its code and its operands. -/
theorem standsInFront_of_code {i : Instr} {code : Byte} {n : Nat} {ops front rest : List Byte} (hc : code.toNat = n)
    (henc : encode i = .host (BitVec.ofNat 8 n :: front)) (hops : ops = front ++ rest) : StandsInFront i (code :: ops) rest := by
  have hcode : code = BitVec.ofNat 8 n := by rw [← hc, BitVec.ofNat_toNat, BitVec.setWidth_eq]
  exact ⟨_, henc, by rw [hcode, hops, List.cons_append]⟩

/-- A number that is read from n bytes into a word of their width is written as those bytes (R101). -/
theorem leBytes_ofNat_leNat {n w : Nat} {bytes : List Byte} (hn : bytes.length = n) (hw : 256 ^ n = 2 ^ w) :
    leBytes n (BitVec.ofNat w (leNat bytes)).toNat = bytes := by
  have hlt := leNat_lt bytes
  rw [hn, hw] at hlt
  rw [BitVec.toNat_ofNat, Nat.mod_eq_of_lt hlt, ← hn, leBytes_leNat]

/-- SET's operands are an identity and the two bytes that its value is read from (R101). -/
theorem set_operands_inv {ops rest : List Byte} {id : VarId} {lo hi : Byte} (h : decodeId ops = .ok (id, lo :: hi :: rest)) :
    ops = encodeId id ++ leBytes 2 (BitVec.ofNat 16 (leNat [lo, hi])).toNat ++ rest := by
  rw [decodeId_inv h, leBytes_ofNat_leNat (by rfl) (by rfl), List.append_assoc]
  rfl

/-- COMPAT_SET_BITSET's operand is the 15 bytes that its bitset is read from (R101). -/
theorem compatSetBitset_operand_inv {ops bytes rest : List Byte} (h : takeBytes 15 ops = some (bytes, rest)) :
    ops = leBytes 15 (BitVec.ofNat 120 (leNat bytes)).toNat ++ rest := by
  obtain ⟨hops, hlen⟩ := takeBytes_inv h
  rw [leBytes_ofNat_leNat hlen (by rfl), hops]

/-- DET_CALL_OR's results are as many bytes as its length operand says (R101). -/
theorem detCallOr_results_inv {ops bytes rest : List Byte} {results : List Bool} (h : takeString8 ops = some (bytes, rest))
    (hr : sensorResults bytes = .ok results) : ops = leBytes 1 results.length ++ results.map sensorByte ++ rest := by
  rw [takeString8_inv h, sensorResults_inv hr, List.length_map]

/-- What is read in front of a host string has the encoder's bytes there: the operations of R94, in the order of their codes, each by
the layout of its operands (R101). -/
theorem decodeHostFront_standsInFront {bytes rest : List Byte} {i : Instr} (h : decodeHostFront bytes = .ok (i, rest)) :
    StandsInFront i bytes rest := by
  unfold decodeHostFront at h
  repeat' split at h
  all_goals cases h
  · exact standsInFront_of_code (i := .get _) ‹_› rfl (decodeId_inv ‹_›)
  · exact standsInFront_of_code (i := .set _ _) ‹_› rfl (set_operands_inv ‹_›)
  · exact standsInFront_of_code (i := .frameDecode _ _) ‹_› rfl (congrArg _ (takeString16_inv ‹_›))
  · exact standsInFront_of_code (i := .frameEncode _) ‹_› rfl rfl
  · exact standsInFront_of_code (i := .dispatch _) ‹_› rfl (takeString16_inv ‹_›)
  · exact standsInFront_of_code (i := .compatSetBitset _) ‹_› rfl (compatSetBitset_operand_inv ‹_›)
  · exact standsInFront_of_code (i := .compatGetBitset) ‹_› rfl rfl
  · exact standsInFront_of_code (i := .compatSetHex _) ‹_› rfl (takeString8_inv ‹_›)
  · exact standsInFront_of_code (i := .compatZero) ‹_› rfl rfl
  · exact standsInFront_of_code (i := .compatDefault) ‹_› rfl rfl
  · exact standsInFront_of_code (i := .lsIndication _) ‹_› rfl rfl
  · exact standsInFront_of_code (i := .detCallOr _ _) ‹_› rfl (congrArg _ (detCallOr_results_inv ‹_› ‹_›))
  · exact standsInFront_of_code (i := .csrWrite _ _) ‹_› rfl rfl
  · exact standsInFront_of_code (i := .csrRead _) ‹_› rfl rfl

theorem encode_of_decodeDescriptor {src : DecBuf} {k : Nat} {id : VarId} {pos : Nat} {i : Instr}
    (h : decodeDescriptor src k id pos = .ok i) : encode i = .decElem src k id pos := by
  unfold decodeDescriptor at h
  split at h <;> cases h <;> rfl

theorem encode_of_encodeDescriptor {dst : EncBuf} {k : Nat} {id : VarId} {pos : Nat} {i : Instr}
    (h : encodeDescriptor dst k id pos = .ok i) : encode i = .encElem dst k id pos := by
  unfold encodeDescriptor at h
  split at h <;> cases h <;> rfl

/-- Settles O2, carrier by carrier. -/
theorem encodeOfDecodeIsTheEncoding : Obligations.EncodeOfDecodeIsTheEncoding := by
  unfold Obligations.EncodeOfDecodeIsTheEncoding
  intro e i h
  cases e with
  | line bytes => exact decode_line_iff.mp h ▸ encode_decodeLine bytes
  | host bytes => exact standsInFront_nil (decodeHostFront_standsInFront (decode_host_iff.mp h))
  | decElem src k id pos => exact encode_of_decodeDescriptor h
  | encElem dst k id pos => exact encode_of_encodeDescriptor h

end Sys2Proof.Proofs
end

section
/-! PROOFS. FRAME_ENCODE (R131, R137, R237) where its reads stand at the end of their cells' orders: what the elements leave at each bit of the
frame, by the last element that assigns the bit, if one does. -/

namespace Sys2Proof.Proofs

open Sys2Proof.Machine Sys2Proof.Laws

/-! ## The bits of an encoded frame -/

theorem encodeElements_append (m : Memory) (es fs : List Element) (buf : List Byte) :
    encodeElements m (es ++ fs) buf = encodeElements m fs (encodeElements m es buf) := List.foldl_append

/-- A bit that an element assigns, and that only bit elements cover after it, is the element's, ORed with theirs (R123, R125, R131, R237). -/
theorem bitAt_encodeElements_assigned (m : Memory) {pre post : List Element} {e : Element} (buf : List Byte) {p : Nat}
    (hp : p < 8 * buf.length) (hc : elementCovers e p = true) (hk : e.kind ≠ .bit)
    (hpost : ∀ e' ∈ post, elementCovers e' p = true → e'.kind = .bit) :
    bitAt (encodeElements m (pre ++ [e] ++ post) buf) p
      = ((m.get e.id).getLsbD (p - 8 * e.pos) || post.any fun e' => elementCovers e' p && (m.get e'.id).getLsbD 0) := by
  have hone : ∀ buf', encodeElements m [e] buf' = elementPut buf' e (m.get e.id) := fun _ => rfl
  rw [encodeElements_append, encodeElements_append, hone, bitAt_encodeElements _ _ _ _ (by simpa using hp) hpost,
    bitAt_elementPut_assign _ _ hk hc (by simpa using hp)]

/-- The payload of a filled frame is zero before its elements are encoded (R131). -/
theorem bitAt_fillFrame_payload (buf : List Byte) (addr type : Byte) {len p : Nat} (hl : len ≤ buf.length) (h24 : 24 ≤ p)
    (hp : p < 8 * len) : bitAt (fillFrame buf addr type len) p = false := by
  rw [bitAt, byteAt_fillFrame _ _ _ (by omega) hl, if_neg (by omega), if_neg (by omega), if_neg (by omega), if_pos (by omega)]
  exact BitVec.getLsbD_zero

/-- A payload bit that only bit elements cover is the OR of their cells (R121, R137). -/
theorem bitAt_encodeFrame_or (m : Memory) {d : FrameDef} {buf : List Byte} {p : Nat} (hl : d.len ≤ buf.length) (h24 : 24 ≤ p)
    (hp : p < 8 * d.len) (h : ∀ e ∈ d.elems, elementCovers e p = true → e.kind = .bit) :
    bitAt (encodeFrame m d buf) p = d.elems.any fun e => elementCovers e p && (m.get e.id).getLsbD 0 := by
  rw [encodeFrame, bitAt_encodeElements _ _ _ _ (by rw [fillFrame_length]; omega) h, bitAt_fillFrame_payload _ _ _ hl h24 hp,
    Bool.false_or]

/-! ## The operation -/

/-- FRAME_ENCODE with plain reads leaves the frame in its caller's buffer, and answers it (R131). -/
theorem exec_frameEncode {s : State} {t : Byte} {d : FrameDef} (hplain : s.plain) (hd : frameOf s.params t = some d)
    (hdir : isGenerated d.dir = true) (hl : s.b.length = d.len) :
    ∃ past, exec (.frameEncode t) s
      = .next { s with b := encodeFrame s.mem d s.b, past := past,
                       replies := (s.who, .frame (encodeFrame s.mem d s.b)) :: s.replies } := by
  have hexec := exec_of_start (i := .frameEncode t) (congrArg some (startFrameEncode_going hd hdir hl))
  obtain ⟨past, hrun⟩ := runMicros_encodeMicros .b d hplain
  rw [runStarted_going, hrun] at hexec
  exact ⟨_, hexec⟩

/-- Settles O21. -/
theorem frameEncodeBuildsTheFrame : Obligations.FrameEncodeBuildsTheFrame := by
  unfold Obligations.FrameEncodeBuildsTheFrame
  intro s t d hp hplain hd hdir hl
  obtain ⟨past, hexec⟩ := exec_frameEncode hplain hd hdir hl
  obtain ⟨h3, -, hb, -⟩ := frameOf_wf hp hd
  have header := fun a (ha : a < 3) => encodeFrame_outside s.mem h3 hb hl.ge (a := a) (.inl ha)
  refine ⟨_, hexec, rfl, (encodeFrame_length _ _ _).trans hl, header 0 (by omega), header 1 (by omega),
    (header 2 (by omega)).trans (frameOf_mem hd).2, fun p h24 hlt hbits => ?_, fun p pre post e helems h24 hlt hc hk hpost => ?_⟩
  · exact bitAt_encodeFrame_or s.mem hl.ge h24 hlt hbits
  · show bitAt (encodeFrame s.mem d s.b) p = _
    rw [encodeFrame, helems]
    exact bitAt_encodeElements_assigned s.mem _ (by rw [fillFrame_length]; omega) hc hk hpost

end Sys2Proof.Proofs
end

section
/-! PROOFS. Frames that the line agent answers with NOMATCH (R95, R96, R162, R167): a type that selects no pair, whether no row pairs it or it
is a response type. -/

namespace Sys2Proof.Proofs

open Sys2Proof.Machine Sys2Proof.Laws

/-- A served frame whose type selects no pair is recorded, and the agent goes to its next iteration (R162, R167). -/
theorem startLine_unmatched {s : State} {frame : List Byte} (hs : s.serves = true) (h3 : 3 ≤ frame.length)
    (hpair : pairOf s.params (byteAt frame 2) = none) :
    startLine frame s
      = .ended (.next { s with loop := .dispatching, events := .noMatch :: s.events, atHead := true, checkAtA := false }) := by
  obtain ⟨hlisten, hcheck, hopen⟩ := serves_iff.mp hs
  rw [startLine_serving frame hlisten hcheck hopen, if_neg (Nat.not_lt.mpr h3), hpair]
  rfl

theorem exec_unmatched {s : State} {i : Instr} {a ctl ty : Byte} {p : List Byte} (henc : encode i = .line (a :: ctl :: ty :: p))
    (hs : s.serves = true) (hpair : pairOf s.params ty = none) :
    exec i s = .next { s with loop := .dispatching, events := .noMatch :: s.events, atHead := true, checkAtA := false } := by
  rw [exec_of_line henc, startLine_unmatched (frame := a :: ctl :: ty :: p) hs (by simp) hpair, runStarted_ended]

/-- Settles O29. -/
theorem lineFrameWithoutAPairIsNoMatch : Obligations.LineFrameWithoutAPairIsNoMatch := by
  unfold Obligations.LineFrameWithoutAPairIsNoMatch
  intro s a ctl ty p f hf hs hpair
  rcases hf with hf | rfl
  · exact exec_unmatched (encode_commandForms hf) hs hpair
  · exact exec_unmatched rfl hs hpair

/-- The frames of the response types are carried by the line port, with a type byte of 128 or more at byte 2 (R80, R84, R85). -/
theorem encode_responseForms {a ctl : Byte} {p : List Byte} {f : Instr × Byte} (h : f ∈ responseForms a ctl p) :
    encode f.1 = .line (a :: ctl :: f.2 :: p) ∧ 128 ≤ f.2.toNat := by
  have hall : ∀ f ∈ responseForms a ctl p, encode f.1 = .line (a :: ctl :: f.2 :: p) ∧ 128 ≤ f.2.toNat := by
    simp only [responseForms, List.forall_mem_cons]
    refine ⟨?_, ?_, ?_, ?_, ?_, ?_, ?_, ?_, ?_, ?_, ?_, ?_, ?_, ?_, List.forall_mem_nil _⟩ <;> exact ⟨rfl, by decide⟩
  exact hall f h

/-- Settles O30: well-formed pairs have command types below 128, so that no response type selects one. -/
theorem lineResponseTypeIsNoMatch : Obligations.LineResponseTypeIsNoMatch := by
  unfold Obligations.LineResponseTypeIsNoMatch
  intro s a ctl p f hf hp hs
  obtain ⟨henc, h128⟩ := encode_responseForms hf
  exact exec_unmatched henc hs (pairOf_response hp h128)

end Sys2Proof.Proofs
end

section
/-! PROOFS. Several elements of one cell (R126, R127, R237): a pair of bits in FRAME_DECODE and FRAME_ENCODE that run at once, and an encode in
progress, which reads a cell once for all its elements. -/

namespace Sys2Proof.Proofs

open Sys2Proof.Machine Sys2Proof.Laws

/-! ## Two bits of one cell -/

/-- An element after which no other names its cell is the last that names it (R126). -/
theorem lastNaming_of_last {pre post : List Element} {e : Element} (h : ∀ e' ∈ post, e'.id ≠ e.id) :
    lastNaming (pre ++ [e] ++ post) e.id = some e := by
  have hnone : post.reverse.find? (fun e' => decide (e'.id = e.id)) = none := by
    simpa only [List.find?_eq_none, List.mem_reverse, decide_eq_true_eq] using h
  simp [lastNaming, hnone]

/-- A payload bit that bit elements of one cell cover, and no other element, is that cell's bit (R121, R127). -/
theorem bitAt_encodeFrame_of_one_cell (m : Memory) {d : FrameDef} {buf : List Byte} {id : VarId} {p : Nat} (hl : d.len ≤ buf.length)
    (hb : ∀ e ∈ d.elems, elementInBounds d.len e = true) (hmem : ⟨.bit, id, p⟩ ∈ d.elems)
    (honly : ∀ e ∈ d.elems, elementCovers e p = true → e.kind = .bit ∧ e.id = id) :
    bitAt (encodeFrame m d buf) p = (m.get id).getLsbD 0 := by
  obtain ⟨h24, hlt⟩ := (bit_inBounds d.len id p).mp (hb _ hmem)
  rw [bitAt_encodeFrame_or m hl h24 hlt fun e he hc => (honly e he hc).1, Bool.eq_iff_iff, List.any_eq_true]
  constructor
  · rintro ⟨e, he, hbit⟩
    obtain ⟨hc, hval⟩ := Bool.and_eq_true_iff.mp hbit
    exact (honly e he hc).2 ▸ hval
  · exact fun hval => ⟨_, hmem, Bool.and_eq_true_iff.mpr ⟨decide_eq_true rfl, hval⟩⟩

/-- Settles O23: the bit declared last is the last element that names the cell, and at both positions the bits of the cell stand alone. -/
theorem dimmingPairTakesTheLastBit : Obligations.DimmingPairTakesTheLastBit := by
  unfold Obligations.DimmingPairTakesTheLastBit
  intro s t d pre mid post id p q hp hm hplain hd helems hids
  refine ⟨fun bytes hdir h3 hl => ?_, fun hdir hl hfree => ?_⟩
  · obtain ⟨u, hexec, -, -, hcells⟩ := frameDecodeLeavesTheLastElements s t bytes d hm hplain hd hdir h3 hl
    have hlast : lastNaming d.elems id = some ⟨.bit, id, q⟩ :=
      helems ▸ lastNaming_of_last fun e he => hids e (List.mem_append_right _ he)
    refine ⟨u, hexec, ?_⟩
    rw [hcells, hlast]
    exact halfOfBit_eq_ite _
  · obtain ⟨past, hexec⟩ := exec_frameEncode hplain hd hdir hl
    obtain ⟨-, -, hb, -⟩ := frameOf_wf hp hd
    have hpair : ∀ e ∈ d.elems, e ∈ pre ++ mid ++ post ∨ e.kind = .bit ∧ e.id = id := by
      simp only [helems, List.mem_append, List.mem_singleton]
      rintro e ((((hpre | rfl) | hmid) | rfl) | hpost)
      exacts [.inl (.inl (.inl hpre)), .inr ⟨rfl, rfl⟩, .inl (.inl (.inr hmid)), .inr ⟨rfl, rfl⟩, .inl (.inr hpost)]
    have hbit : ∀ x, ⟨.bit, id, x⟩ ∈ d.elems → (∀ e ∈ pre ++ mid ++ post, elementCovers e x = false) →
        bitAt (encodeFrame s.mem d s.b) x = s.getBit id := fun x hx hother =>
      bitAt_encodeFrame_of_one_cell s.mem hl.ge hb hx fun e he hc =>
        (hpair e he).resolve_left fun ho => Bool.false_ne_true ((hother e ho).symm.trans hc)
    exact ⟨_, hexec, hbit p (by simp [helems]) fun e he => (hfree e he).1, hbit q (by simp [helems]) fun e he => (hfree e he).2⟩

/-! ## An encode in progress -/

/-- Where a step answers a next state, the rest of its operation is left in progress there. -/
theorem holdRest_eq_next {a : Agent} {todo : List Micro} {fin : Finish} {r : Result} {t : State} (h : holdRest a todo fin r = .next t) :
    ∃ u, r = .next u ∧ t = u.hold a todo fin := by
  cases r with
  | next u => cases h; exact ⟨u, rfl, rfl⟩
  | fault f => cases h
  | refused f => cases h

/-- An operation left in progress by an agent that had no other is the one it advances (R8, R38). -/
theorem find_hold_of_ne {s : State} {a : Agent} (h : ∀ o ∈ s.opens, o.agent ≠ a) (todo : List Micro) (fin : Finish) :
    (s.hold a todo fin).opens.find? (fun x => decide (x.agent = a)) = some ⟨a, todo, fin, s.b, s.acc⟩ := by
  have hnone : s.opens.find? (fun x => decide (x.agent = a)) = none := by
    simpa only [List.find?_eq_none, decide_eq_true_eq] using h
  simp [hnone]

theorem stepping_opens_ne (s : State) (o : OpenOp) (a : Agent) (picks : Picks) : ∀ x ∈ (s.stepping o a picks).opens, x.agent ≠ a := by
  intro x hx
  simpa using (List.mem_filter.mp hx).2

/-- An agent takes its operation up with the buffers that it left. -/
theorem encBuf_stepping_hold (s : State) (a : Agent) (todo : List Micro) (fin : Finish) (picks : Picks) (dst : EncBuf) :
    ((s.hold a todo fin).stepping ⟨a, todo, fin, s.b, s.acc⟩ a picks).encBuf dst = s.encBuf dst := by cases dst <;> rfl

/-- An element encode with none but encode steps in front of it is read ahead of its turn (R64, R67). -/
theorem aheadCell_enc {k : Nat} {todo : List Micro} {dst : EncBuf} {e : Element} (hk : k ≠ 0) (h : todo[k]? = some (.enc dst e))
    (hfront : ∀ m ∈ todo.take k, isEncodeStep m = true) : aheadCell k todo = some e.id := by
  have hall : (todo.take k).all isEncodeStep = true := List.all_eq_true.mpr hfront
  simp only [aheadCell, h, hall, Nat.pos_of_ne_zero hk, decide_true, Bool.and_self, if_true]

/-- An advance at an element encode with none but encode steps in front of it: the cell that it reads is shared by all the steps left, and in its
turn the encode is done (R126, R237). -/
theorem advanceOp_enc {s t : State} {a : Agent} {k : Nat} {picks : Picks} {o : OpenOp} {dst : EncBuf} {e : Element}
    (ho : s.opens.find? (fun x => decide (x.agent = a)) = some o) (hk : o.todo[k]? = some (.enc dst e))
    (hfront : ∀ m ∈ o.todo.take k, isEncodeStep m = true) (h : advanceOp a k picks s = .next t) :
    ∃ u : State,
      t = u.hold a ((if k = 0 then o.todo.tail else o.todo).map (shareRead e.id ((s.stepping o a picks).readVar e.id))) o.fin
      ∧ u.opens = (s.stepping o a picks).opens ∧ (k = 0 → u = (s.stepping o a picks).encodeElem dst e) := by
  by_cases h0 : k = 0
  · subst h0
    obtain ⟨ms, hms⟩ : ∃ ms, o.todo = .enc dst e :: ms := by
      cases htodo : o.todo with
      | nil => simp [htodo] at hk
      | cons m ms => exact ⟨ms, by simpa [htodo] using hk⟩
    rw [advanceOp_first ho hms] at h
    obtain ⟨u, hu, rfl⟩ := holdRest_eq_next h
    obtain rfl := execMicro_next hu
    refine ⟨_, by rw [if_pos rfl, hms]; rfl, ?_, fun _ => rfl⟩
    cases dst <;> rfl
  · rw [if_neg h0]
    simp only [advanceOp, ho, aheadCell_enc h0 hk hfront] at h
    cases h
    exact ⟨_, rfl, rfl, fun hk0 => absurd hk0 h0⟩

/-- Settles O55, by what the advance leaves in progress. -/
theorem encodeReadsEachCellOnce : Obligations.EncodeReadsEachCellOnce := by
  unfold Obligations.EncodeReadsEachCellOnce
  intro s t a k picks o dst e ho hk hfront h
  obtain ⟨u, rfl, hopens, hturn⟩ := advanceOp_enc ho hk hfront h
  refine ⟨_, _, find_hold_of_ne (hopens ▸ stepping_opens_ne s o a picks) _ o.fin, rfl, ?_, fun h0 => ?_⟩
  · refine List.map_congr_left fun m _ => ?_
    cases m <;> rfl
  · rw [encBuf_stepping_hold, hturn h0, State.encodeElem, encBuf_setEncBuf]

end Sys2Proof.Proofs
end

section
/-! PROOFS. What FRAME_DECODE and FRAME_ENCODE answer where they do not run (R130-R132, R163, R191, R192), and what the one gives back of the
other where no two elements of a definition name one cell or cover one bit (R138). -/

namespace Sys2Proof.Proofs

open Sys2Proof.Machine Sys2Proof.Laws

/-! ## Short frames -/

/-- Settles O19. -/
theorem frameDecodeOfShortFramesFaults : Obligations.FrameDecodeOfShortFramesFaults := by
  unfold Obligations.FrameDecodeOfShortFramesFaults
  intro s t bytes d hd hdir hf
  refine ⟨fun h3 => ?_, fun h3 hl => ?_⟩
  · rw [exec_of_start (i := .frameDecode t bytes) (congrArg some (startFrameDecode_runt hd hdir h3)), runStarted_ended,
      raiseFault_first _ hf]
  · rw [exec_of_start (i := .frameDecode t bytes) (congrArg some (startFrameDecode_short hd hdir h3 hl)), runStarted_ended,
      raiseFault_first _ hf]

/-! ## Directions -/

theorem isReceived_eq_false_iff (d : Direction) : isReceived d = false ↔ d = .rspGenBySecondary ∨ d = .cmdGenByPrimary := by
  cases d <;> simp [isReceived]

theorem isGenerated_eq_false_iff (d : Direction) : isGenerated d = false ↔ d = .cmdRcvdBySecondary ∨ d = .rspRcvdByPrimary := by
  cases d <;> simp [isGenerated, isReceived]

/-- A generated definition is not decoded (R132, R192). -/
theorem exec_frameDecode_generated {s : State} {t : Byte} (bytes : List Byte) {d : FrameDef} (hd : frameOf s.params t = some d)
    (hdir : d.dir = .rspGenBySecondary ∨ d.dir = .cmdGenByPrimary) : exec (.frameDecode t bytes) s = .refused .badDirection :=
  exec_of_start (i := .frameDecode t bytes)
    (congrArg some (startFrameDecode_direction bytes hd ((isReceived_eq_false_iff d.dir).mpr hdir)))

/-- A received definition is not encoded (R132, R192). -/
theorem exec_frameEncode_received {s : State} {t : Byte} {d : FrameDef} (hd : frameOf s.params t = some d)
    (hdir : d.dir = .cmdRcvdBySecondary ∨ d.dir = .rspRcvdByPrimary) : exec (.frameEncode t) s = .refused .badDirection :=
  exec_of_start (i := .frameEncode t) (congrArg some (startFrameEncode_direction hd ((isGenerated_eq_false_iff d.dir).mpr hdir)))

/-- Settles O20: a well-formed pair is a received command and a generated response. -/
theorem directionsAreRestricted : Obligations.DirectionsAreRestricted := by
  unfold Obligations.DirectionsAreRestricted
  refine ⟨fun s t bytes d hd hdir => exec_frameDecode_generated bytes hd hdir, fun s t d hd hdir => exec_frameEncode_received hd hdir,
    fun s t bytes c r hp hpair => ?_⟩
  obtain ⟨hc, hr, hcdir, hrdir, rfl, hrtype, -⟩ := pairOf_some hp hpair
  rw [← hrtype] at hr
  exact ⟨exec_frameEncode_received hc (.inl hcdir), exec_frameDecode_generated bytes hr (.inl hrdir)⟩

/-! ## The caller's buffer -/

theorem startFrameEncode_buffer {s : State} {t : Byte} {d : FrameDef} (hd : frameOf s.params t = some d)
    (hdir : isGenerated d.dir = true) (hl : s.b.length ≠ d.len) : startFrameEncode t s = .ended (.refused .badBuffer) := by
  simp [startFrameEncode, hd, hdir, hl]

/-- Settles O22. -/
theorem frameEncodeNeedsItsLength : Obligations.FrameEncodeNeedsItsLength := by
  unfold Obligations.FrameEncodeNeedsItsLength
  intro s t d hd hdir hl
  exact exec_of_start (i := .frameEncode t) (congrArg some (startFrameEncode_buffer hd hdir hl))

/-! ## Elements that stand apart -/

/-- Two elements name different cells, and cover no bit in common (R138). -/
def Apart (e e' : Element) : Prop := e.id ≠ e'.id ∧ ∀ p, ¬ (elementCovers e p = true ∧ elementCovers e' p = true)

theorem Apart.symm {e e' : Element} (h : Apart e e') : Apart e' e := ⟨h.1.symm, fun p hp => h.2 p hp.symm⟩

/-- A bit that an element covers is covered by none that stands apart from it. -/
theorem Apart.not_covers {e e' : Element} (h : Apart e e') {p : Nat} (hc : elementCovers e p = true) : elementCovers e' p = false :=
  Bool.eq_false_iff.mpr fun hc' => h.2 p ⟨hc, hc'⟩

/-- Where all elements stand apart, each splits the list into elements that stand apart from it. -/
theorem exists_split_of_apart {es : List Element} (h : es.Pairwise Apart) {e : Element} (he : e ∈ es) :
    ∃ pre post, es = pre ++ [e] ++ post ∧ (∀ e' ∈ pre, Apart e e') ∧ ∀ e' ∈ post, Apart e e' := by
  obtain ⟨pre, post, rfl⟩ := List.append_of_mem he
  obtain ⟨hrest, -⟩ := List.pairwise_cons.mp ((List.pairwise_middle Apart.symm).mp h)
  exact ⟨pre, post, List.append_cons .., fun _ hx => hrest _ (List.mem_append_left _ hx), fun _ hx => hrest _ (List.mem_append_right _ hx)⟩

/-! ## One element there and back -/

/-- A bit position of byte `a` is one of the byte's eight (R52). -/
theorem exists_bit_of_div {p a : Nat} (h : p / 8 = a) : ∃ i, i < 8 ∧ p = 8 * a + i := ⟨p % 8, by omega, by omega⟩

/-- A byte or a word element decodes each bit it covers into its place in the value (R52, R53, R54, R122, R124). -/
theorem getLsbD_elementValue (buf : List Byte) {e : Element} {p : Nat} (hk : e.kind ≠ .bit) (hc : elementCovers e p = true) :
    (elementValue buf e).getLsbD (p - 8 * e.pos) = bitAt buf p := by
  obtain ⟨kind, id, pos⟩ := e
  cases kind with
  | bit => exact absurd rfl hk
  | byte =>
    simp only [elementCovers, decide_eq_true_eq] at hc
    obtain ⟨i, hi, rfl⟩ := exists_bit_of_div hc
    have hi16 : i < 16 := by omega
    rw [bitAt_byte buf pos hi, Nat.add_sub_cancel_left]
    simp [elementValue, hi16]
  | word =>
    simp only [elementCovers, Bool.or_eq_true, decide_eq_true_eq] at hc
    rcases hc with hlow | hhigh
    · obtain ⟨i, hi, rfl⟩ := exists_bit_of_div hlow
      rw [bitAt_byte buf pos hi, Nat.add_sub_cancel_left]
      exact getLsbD_wordAt_low buf pos hi
    · obtain ⟨i, hi, rfl⟩ := exists_bit_of_div hhigh
      have hoff : 8 * (pos + 1) + i - 8 * pos = 8 + i := by omega
      rw [bitAt_byte buf (pos + 1) hi, hoff]
      exact getLsbD_wordAt_high buf pos hi

/-- An element encode of a decoded value gives back each bit that the element covers, where the bit was 0 before: a bit element ORs (R121), so that
a 1 would stay. -/
theorem bitAt_elementPut_elementValue {buf : List Byte} (bytes : List Byte) {e : Element} {p : Nat} (hp : p < 8 * buf.length)
    (hc : elementCovers e p = true) (h0 : bitAt buf p = false) : bitAt (elementPut buf e (elementValue bytes e)) p = bitAt bytes p := by
  by_cases hk : e.kind = .bit
  · have hpos : p = e.pos := by simpa [elementCovers, hk] using hc
    subst hpos
    simp only [elementPut, elementValue, hk]
    rw [bitAt_orBit _ _ _ _ hp, h0, halfOfBit_bit]
    simp
  · rw [bitAt_elementPut_assign buf _ hk hc hp, getLsbD_elementValue bytes hk hc]

/-! ## The round trip -/

theorem encodeElements_singleton (m : Memory) (e : Element) (buf : List Byte) : encodeElements m [e] buf = elementPut buf e (m.get e.id) := rfl

/-- A payload bit that one element covers alone is the string's, where that element's cell holds what the element decoded from it (R138). -/
theorem bitAt_encodeFrame_of_decoded (m : Memory) {d : FrameDef} (bytes : List Byte) {buf : List Byte} {pre post : List Element} {e : Element}
    {p : Nat} (helems : d.elems = pre ++ [e] ++ post) (hpre : ∀ e' ∈ pre, Apart e e') (hpost : ∀ e' ∈ post, Apart e e')
    (hcell : m.get e.id = elementValue bytes e) (hc : elementCovers e p = true) (hl : d.len ≤ buf.length) (h24 : 24 ≤ p)
    (hp : p < 8 * d.len) : bitAt (encodeFrame m d buf) p = bitAt bytes p := by
  rw [encodeFrame, helems, encodeElements_append, encodeElements_append, encodeElements_singleton, hcell,
    bitAt_encodeElements_other _ _ _ _ fun e' he' => (hpost e' he').not_covers hc]
  refine bitAt_elementPut_elementValue bytes (by rw [encodeElements_length, fillFrame_length]; omega) hc ?_
  rw [bitAt_encodeElements_other _ _ _ _ fun e' he' => (hpre e' he').not_covers hc, bitAt_fillFrame_payload _ _ _ hl h24 hp]

/-- The round-trip law of tables and buffers: a frame encoded from the table that decoded a byte string has the string's bit where an element
covers it, and 0 elsewhere (R138). -/
theorem bitAt_encodeFrame_decodeElements {m : Memory} (hm : m.wf = true) {d : FrameDef} (bytes : List Byte) {buf : List Byte} {p : Nat}
    (hapart : d.elems.Pairwise Apart) (hl : d.len ≤ buf.length) (h24 : 24 ≤ p) (hp : p < 8 * d.len) :
    bitAt (encodeFrame (decodeElements bytes d.elems m) d buf) p
      = if d.elems.any (fun e => elementCovers e p) then bitAt bytes p else false := by
  split
  · next hany =>
    obtain ⟨e, he, hc⟩ := List.any_eq_true.mp hany
    obtain ⟨pre, post, helems, hpre, hpost⟩ := exists_split_of_apart hapart he
    have hlast : lastNaming d.elems e.id = some e := helems ▸ lastNaming_of_last fun e' he' => (hpost e' he').1.symm
    have hcell : (decodeElements bytes d.elems m).get e.id = elementValue bytes e := by
      rw [get_decodeElements bytes d.elems hm, ← lastNaming, hlast]
    exact bitAt_encodeFrame_of_decoded _ bytes helems hpre hpost hcell hc hl h24 hp
  · next hnone =>
    have hfree : ∀ e ∈ d.elems, elementCovers e p = false := by simpa using hnone
    rw [encodeFrame, bitAt_encodeElements_other _ _ _ _ hfree, bitAt_fillFrame_payload _ _ _ hl h24 hp]

/-- FRAME_DECODE with plain writes leaves the definition's elements in the table, and the accesses of its agent plain (R130). -/
theorem exec_frameDecode {s : State} {t : Byte} {bytes : List Byte} {d : FrameDef} (hplain : s.plain) (hd : frameOf s.params t = some d)
    (hdir : isReceived d.dir = true) (h3 : 3 ≤ bytes.length) (hl : d.len ≤ bytes.length) :
    ∃ u, exec (.frameDecode t bytes) s = .next u ∧ u.plain ∧ u.params = s.params ∧ u.mem = decodeElements bytes d.elems s.mem := by
  have hexec := exec_of_start (i := .frameDecode t bytes) (congrArg some (startFrameDecode_going hd hdir h3 hl))
  have hafter := finishOp_plain (fin := .replyOk) (runMicros_plain (s := { s with b := bytes }) (decodeMicros .b d) hplain)
  obtain ⟨past, hrun⟩ := runMicros_decode .b d.elems (s := { s with b := bytes }) hplain
  rw [runStarted_going, decodeMicros, hrun] at hexec
  rw [decodeMicros, hrun] at hafter
  exact ⟨_, hexec, hafter, rfl, rfl⟩

/-- Settles O24: the law of tables and buffers, at the two operations. -/
theorem frameRoundTrip : Obligations.FrameRoundTrip := by
  unfold Obligations.FrameRoundTrip
  intro s tc tr c r bytes buf hp hm hplain hc hcdir hr hrdir hlen helems hapart hbytes hbuf
  obtain ⟨h3, -, hb, -⟩ := frameOf_wf hp hr
  obtain ⟨t, hdec, htplain, htparams, htmem⟩ := exec_frameDecode hplain hc hcdir (by omega) hbytes.ge
  obtain ⟨past, henc⟩ := exec_frameEncode (s := { t with b := buf }) htplain (htparams ▸ hr) hrdir hbuf
  have header := fun a (ha : a < 3) => encodeFrame_outside t.mem h3 hb hbuf.ge (a := a) (.inl ha)
  refine ⟨t, _, hdec, henc, (encodeFrame_length _ _ _).trans hbuf, header 0 (by omega), header 1 (by omega), header 2 (by omega),
    fun p h24 hlt => ?_⟩
  rw [helems] at hapart htmem
  show bitAt (encodeFrame t.mem r buf) p = _
  rw [htmem]
  exact bitAt_encodeFrame_decodeElements hm bytes hapart hbuf.ge h24 hlt

end Sys2Proof.Proofs
end

section
/-! PROOFS. The linear offset of a pair (R150): the first offsets of the left channels and the steps between them, from which the sum, the order and
the inverse follow. -/

namespace Sys2Proof.Proofs

open Sys2Proof.Machine Sys2Proof.Laws

/-- A pair's offset is its left channel's first offset and the place of its right channel (R150). -/
theorem compatOff_eq_base_add (l r : Nat) : compatOff l r = compatOff l (l + 1) + (r - l - 1) := by
  simp [compatOff]

/-- Left channel `l` has `16 - l` pairs, and the next one's follow them (R150). -/
theorem compatOff_base_succ {l : Nat} (h1 : 1 ≤ l) (h16 : l ≤ 16) : compatOff (l + 1) (l + 1 + 1) = compatOff l (l + 1) + (16 - l) := by
  obtain ⟨k, rfl⟩ := Nat.exists_eq_add_of_le' h1
  have hprod : (k + 1) * (k + 1 + 1) = k * (k + 1) + 2 * (k + 1) := by ring
  have hle : k * (k + 1) ≤ k * 16 := Nat.mul_le_mul_left k h16
  simp only [compatOff, Nat.add_sub_cancel, hprod]
  omega

/-- The first offset of a left channel counts the pairs of the channels before it (R150). -/
theorem compatOff_base_eq_sum {i : Nat} (h : i ≤ 15) : compatOff (i + 1) (i + 1 + 1) = ((List.range i).map fun k => 16 - (k + 1)).sum := by
  induction i with
  | zero => rfl
  | succ i ih =>
    rw [compatOff_base_succ (by omega) (by omega), ih (by omega), List.range_succ, List.map_append, List.sum_append]
    simp

/-- The pairs of a left channel come before those of every later one (R150). -/
theorem compatOff_base_add_le {l l' : Nat} (h1 : 1 ≤ l) (hlt : l < l') (h16 : l' ≤ 16) :
    compatOff l (l + 1) + (16 - l) ≤ compatOff l' (l' + 1) := by
  induction l', hlt using Nat.le_induction with
  | base => exact (compatOff_base_succ h1 (by omega)).ge
  | succ m hm ih =>
    have hnext := compatOff_base_succ (l := m) (by omega) (by omega)
    have hprev := ih (by omega)
    omega

/-- A pair comes before the first pair of every later left channel (R150). -/
theorem compatOff_lt_base {l r l' : Nat} (h1 : 1 ≤ l) (hlr : l < r) (hr : r ≤ 16) (hlt : l < l') (h16 : l' ≤ 16) :
    compatOff l r < compatOff l' (l' + 1) := by
  have hbase := compatOff_base_add_le h1 hlt h16
  have hoff := compatOff_eq_base_add l r
  omega

/-- The offsets are ordered channel-major (R150). -/
theorem compatOff_lt_iff {l r l' r' : Nat} (h1 : 1 ≤ l) (hlr : l < r) (hr : r ≤ 16) (h1' : 1 ≤ l') (hlr' : l' < r') (hr' : r' ≤ 16) :
    compatOff l r < compatOff l' r' ↔ l < l' ∨ (l = l' ∧ r < r') := by
  have hoff := compatOff_eq_base_add l r
  have hoff' := compatOff_eq_base_add l' r'
  rcases Nat.lt_trichotomy l l' with hlt | rfl | hgt
  · have hbefore := compatOff_lt_base h1 hlr hr hlt (by omega)
    omega
  · omega
  · have hbefore := compatOff_lt_base h1' hlr' hr' hgt (by omega)
    omega

/-- Settles O36. -/
theorem compatOffsetsAreABijection : Obligations.CompatOffsetsAreABijection := by
  unfold Obligations.CompatOffsetsAreABijection
  refine ⟨fun l r h1 hlr hr => ⟨?_, rfl, compatOff_lt (q := (l, r)) (mem_compatPairs.mpr ⟨h1, hlr, hr⟩), compatOff_eq_base_add l r⟩,
    fun k hk => ?_, fun l r l' r' => compatOff_lt_iff, fun k l r h1 hlr hr hk => ?_, by decide⟩
  · obtain ⟨i, rfl⟩ := Nat.exists_eq_add_of_le' h1
    rw [compatOff_eq_base_add, compatOff_base_eq_sum (by omega), Nat.add_sub_cancel]
  · obtain ⟨⟨l, r⟩, hq, hoff⟩ := exists_compatOff hk
    obtain ⟨h1, hlr, hr⟩ := mem_compatPairs.mp hq
    exact ⟨l, r, h1, hlr, hr, hoff⟩
  · have hoff := compatOff_eq_base_add l r
    refine ⟨by omega, fun l' _ h15 hle => ?_, by omega⟩
    by_contra hgt
    have hbefore := compatOff_lt_base h1 hlr hr (Nat.lt_of_not_le hgt) (by omega)
    omega

end Sys2Proof.Proofs
end

section
/-! PROOFS. The packer's other operations and its round trips (R153-R156), and the matrix that initialisation loads (R157, R222): each writes as
COMPAT_SET_BITSET does, and COMPAT_GET_BITSET reads every bit back. -/

namespace Sys2Proof.Proofs

open Sys2Proof.Machine Sys2Proof.Laws

/-! ## COMPAT_ZERO and COMPAT_DEFAULT -/

theorem exec_compatZero (s : State) : exec .compatZero s = exec (.compatSetBitset 0) s := rfl

theorem exec_compatDefault (s : State) : exec .compatDefault s = exec (.compatSetBitset s.params.defaultCompat) s := rfl

/-- Settles O38: both are COMPAT_SET_BITSET of their bitset. -/
theorem compatZeroAndDefaultWriteTheMatrix : Obligations.CompatZeroAndDefaultWriteTheMatrix := by
  unfold Obligations.CompatZeroAndDefaultWriteTheMatrix
  intro s i bits hm hplain hi
  have hexec : exec i s = exec (.compatSetBitset bits) s := by
    rcases hi with ⟨rfl, rfl⟩ | ⟨rfl, rfl⟩
    · exact exec_compatZero s
    · exact exec_compatDefault s
  obtain ⟨t, ht, -, hframe, hpair, hother⟩ := compatSetBitsetWritesTheMatrix s bits hm hplain
  exact ⟨t, hexec.trans ht, hframe, hpair, hother⟩

/-! ## Rejected strings -/

/-- A string with a character that is no hex character has no nibbles (R92). -/
theorem hexNibbles_of_bad {str : List Byte} {c : Byte} (hc : c ∈ str) (hbad : hexDigit c = none) : hexNibbles str = none := by
  induction str with
  | nil => cases hc
  | cons x xs ih =>
    rcases List.mem_cons.mp hc with rfl | hc
    · simp only [hexNibbles, hbad]
    · cases hx : hexDigit x <;> simp only [hexNibbles, hx, ih hc]

/-- A string of another length, or with a character that is no hex character, has no bitset (R153). -/
theorem hexBitset_of_rejected {str : List Byte} (h : str.length ≠ 30 ∨ ∃ c ∈ str, hexDigit c = none) : hexBitset str = none := by
  unfold hexBitset
  rcases h with hlen | ⟨c, hc, hbad⟩
  · exact if_neg hlen
  · rw [hexNibbles_of_bad hc hbad, Option.map_none, ite_self]

theorem startCompatHex_rejected {str : List Byte} (h : hexBitset str = none) (s : State) :
    startCompatHex str s = .ended (.next (s.reply .hexReject)) := by
  simp only [startCompatHex, h]

/-- Settles O40. -/
theorem compatSetHexRejectsWithoutWriting : Obligations.CompatSetHexRejectsWithoutWriting := by
  unfold Obligations.CompatSetHexRejectsWithoutWriting
  intro s str h
  exact exec_of_start (i := .compatSetHex str) (congrArg some (startCompatHex_rejected (hexBitset_of_rejected h) s))

/-! ## Round trips -/

/-- COMPAT_SET_BITSET leaves the accesses of its turn at the ends of their cells' orders. -/
theorem exec_compatSetBitset_plain {s t : State} {bits : Bitset} (hplain : s.plain) (h : exec (.compatSetBitset bits) s = .next t) :
    t.plain := by
  rw [exec_of_start (i := .compatSetBitset bits) (congrArg some (startCompatSet_going bits s)), runStarted_going] at h
  cases h
  exact finishOp_plain (runMicros_plain (compatStores bits) hplain)

/-- Two bitsets that agree at the offset of every pair are equal (R150). -/
theorem bitset_ext_pairs {x y : Bitset} (h : ∀ l r, 1 ≤ l → l < r → r ≤ 16 → x.getLsbD (compatOff l r) = y.getLsbD (compatOff l r)) :
    x = y := by
  refine BitVec.eq_of_getLsbD_eq fun k hk => ?_
  obtain ⟨⟨l, r⟩, hq, rfl⟩ := exists_compatOff hk
  obtain ⟨h1, hlr, hr⟩ := mem_compatPairs.mp hq
  exact h l r h1 hlr hr

/-- COMPAT_GET_BITSET after COMPAT_SET_BITSET returns the bitset that was set (R156). -/
theorem getBitset_after_setBitset {s t : State} {bits : Bitset} (hm : s.mem.wf = true) (hplain : s.plain)
    (h : exec (.compatSetBitset bits) s = .next t) :
    ∃ u, exec .compatGetBitset t = .next u ∧ u.replies.head? = some (s.who, .bitset bits) := by
  obtain ⟨t', ht', -, hframe, hpair, -⟩ := compatSetBitsetWritesTheMatrix s bits hm hplain
  obtain rfl : t' = t := by simpa [ht'] using h
  obtain ⟨read, past, hget, hread⟩ := compatGetBitsetReadsTheMatrix t' (exec_compatSetBitset_plain hplain h)
  have hwho : t'.who = s.who := by rw [hframe]
  have heq : read = bits := bitset_ext_pairs fun l r h1 hlr hr => by
    rw [hread l r h1 hlr hr, State.getBit, hpair l r h1 hlr hr, ← halfOfBit_eq_ite, halfOfBit_bit]
  exact ⟨_, hget, by rw [hwho, heq]; rfl⟩

/-- A letter 'A'..'F' and its lower case have the same value (R92). -/
theorem hexDigit_add_32 {c : Byte} (h65 : 65 ≤ c.toNat) (h70 : c.toNat ≤ 70) : hexDigit (c + 32) = hexDigit c := by
  have hlower : (c + 32).toNat = c.toNat + 32 := by
    rw [BitVec.toNat_add]
    exact Nat.mod_eq_of_lt (show c.toNat + 32 < 256 by omega)
  have hval : hexDigit c = some (c.toNat - 55) := (hexDigit_eq_some_iff _ _).mpr (by omega)
  rw [hval, hexDigit_eq_some_iff]
  omega

/-- The characters of a string that is accepted have values (R92, R153). -/
theorem exists_hexDigits {str : List Byte} (h : ∀ c ∈ str, (hexDigit c).isSome = true) : ∃ ds : List Nat, str.map hexDigit = ds.map some := by
  refine ⟨str.map fun c => (hexDigit c).getD 0, ?_⟩
  rw [List.map_map]
  refine List.map_congr_left fun c hc => ?_
  obtain ⟨d, hd⟩ := Option.isSome_iff_exists.mp (h c hc)
  simp [hd]

/-- Strings whose characters agree in value, place by place, have the same values. -/
theorem map_hexDigit_congr {str str' : List Byte} (hl : str'.length = str.length)
    (h : ∀ k, hexDigit (byteAt str' k) = hexDigit (byteAt str k)) : str'.map hexDigit = str.map hexDigit := by
  refine List.ext_getElem (by simp [hl]) fun k hk' hk => ?_
  rw [List.length_map] at hk' hk
  simpa [byteAt, hk, hk'] using h k

/-- Settles O42: an accepted string is set as its bitset, and letters of either case have one value. -/
theorem compatRoundTrip : Obligations.CompatRoundTrip := by
  unfold Obligations.CompatRoundTrip
  refine ⟨fun s t bits => getBitset_after_setBitset, fun s t str ds hm hplain hl hds h => ?_, fun s str str' hl hacc hl' hcase => ?_⟩
  · have hnumber : nibblesNumber ds = ds.foldl (fun n d => 16 * n + d) 0 := by simp only [nibblesNumber, Nat.mul_comm]
    rw [exec_compatSetHex (hexBitset_of_map hl hds)] at h
    rw [← hnumber]
    exact getBitset_after_setBitset hm hplain h
  · obtain ⟨ds, hds⟩ := exists_hexDigits hacc
    have hds' : str'.map hexDigit = ds.map some := by
      refine (map_hexDigit_congr (hl'.trans hl.symm) fun k => ?_).trans hds
      rcases hcase k with heq | ⟨heq, h65, h70⟩ | ⟨heq, h65, h70⟩
      · rw [heq]
      · rw [heq, hexDigit_add_32 h65 h70]
      · rw [heq, hexDigit_add_32 h65 h70]
    rw [exec_compatSetHex (hexBitset_of_map hl' hds'), exec_compatSetHex (hexBitset_of_map hl hds)]

/-! ## Initialisation -/

/-- Initialisation with definitions, bindings and wiring in order loads the matrix; READY and the end of INIT follow the transport (R157, R222). -/
theorem execInit_loads {s : State} (hp : paramsWf s.params = true) (hb : bindingsHeld s.params = true) (hw : s.cfg.wiringOk = true) :
    execInit s = .next { s with mem := compatTable (initCompat s) s.mem, ready := s.ready || s.cfg.transportOpens,
                                boot := if s.cfg.transportOpens then .done else .aborted } := by
  simp only [execInit, failedCheck_none hp, hb, hw, Bool.not_true, Bool.false_eq_true, if_false]
  generalize compatTable (initCompat s) s.mem = mem
  cases htrans : s.cfg.transportOpens <;> simp

theorem initCompat_absent {s : State} (h : s.cfg.compat = none) : initCompat s = s.params.defaultCompat := by
  simp only [initCompat, h]

theorem initCompat_rejected {s : State} {str : List Byte} (h : s.cfg.compat = some str) (hstr : hexBitset str = none) :
    initCompat s = s.params.defaultCompat := by
  simp only [initCompat, h, hstr]

theorem initCompat_accepted {s : State} {str : List Byte} {bits : Bitset} (h : s.cfg.compat = some str) (hstr : hexBitset str = some bits) :
    initCompat s = bits := by
  simp only [initCompat, h, hstr]

/-- Settles O9. -/
theorem initAppliesTheConfiguration : Obligations.InitAppliesTheConfiguration := by
  unfold Obligations.InitAppliesTheConfiguration
  intro s hf hboot hp hbind hm hw
  have hstep := (step_of_pending hf hboot).trans (execInit_loads hp hbind hw)
  have hpair := fun l r hl hlr hr =>
    get_compatTable_pair (initCompat s) hm (mem_compatPairs.mpr ⟨hl, hlr, hr⟩ : (l, r) ∈ compatPairs)
  have hother := fun id h => get_compatTable_other (initCompat s) s.mem (id := id) h
  generalize compatTable (initCompat s) s.mem = mem at hstep hpair hother
  refine ⟨_, hstep, rfl, fun l r hl hlr hr => ⟨fun habs => ?_, fun str hsome hrej => ?_, fun str bits hsome hacc => ?_⟩, fun id hid => ?_⟩
  · exact initCompat_absent habs ▸ hpair l r hl hlr hr
  · exact initCompat_rejected hsome hrej ▸ hpair l r hl hlr hr
  · exact initCompat_accepted hsome hacc ▸ hpair l r hl hlr hr
  · refine hother id fun l r hlr => ?_
    obtain ⟨h1, h2, h3⟩ := mem_compatPairs.mp hlr
    exact hid l r h1 h2 h3

end Sys2Proof.Proofs
end

section
/-! PROOFS. Dispatches that end where they begin (R162, R163, R169, R170, R195, R196), from the host port and on the line: what is unmatched,
faults, is dropped or stops the line agent. -/

namespace Sys2Proof.Proofs

open Sys2Proof.Machine Sys2Proof.Laws

/-! ## The selected command -/

/-- The command definition that a type byte selects has that type, whatever the parameters: ShortFrame(t, n) names the frame's own type
(R160, R163). -/
theorem pairOf_command_type {p : Params} {t : Byte} {c r : FrameDef} (h : pairOf p t = some (c, r)) : c.type = t := by
  unfold pairOf at h
  split at h
  · cases h
  · next q hq =>
    have hqt : q.1 = t := by simpa using List.find?_some hq
    split at h
    · next c' r' hc _ =>
      cases h
      exact (frameOf_mem hc).2.trans hqt
    · cases h

/-! ## Host DISPATCH -/

/-- A host DISPATCH whose beginning is known is run from it (R170). -/
theorem exec_dispatch {s : State} {bytes : List Byte} {st : Started} (h : startDispatch bytes s = st) :
    exec (.dispatch bytes) s = runStarted st :=
  exec_of_start (i := .dispatch bytes) (congrArg some h)

theorem startDispatch_unmatched {s : State} {bytes : List Byte} (he : s.en = false) (hl : s.loop = .stopped) (ho : s.dispatchOpen = false)
    (h3 : 3 ≤ bytes.length) (hpair : pairOf s.params (byteAt bytes 2) = none) :
    startDispatch bytes s = .ended (.next (s.reply (.dispatched false 0))) := by
  rw [startDispatch_free bytes he hl ho, if_neg (Nat.not_lt.mpr h3), hpair]

theorem startDispatch_runt {s : State} {bytes : List Byte} (he : s.en = false) (hl : s.loop = .stopped) (ho : s.dispatchOpen = false)
    (h3 : bytes.length < 3) : startDispatch bytes s = .ended (.next (raiseFault (.runtFrame bytes.length) s)) := by
  rw [startDispatch_free bytes he hl ho, if_pos h3]

theorem startDispatch_short {s : State} {bytes : List Byte} {c r : FrameDef} (he : s.en = false) (hl : s.loop = .stopped)
    (ho : s.dispatchOpen = false) (h3 : 3 ≤ bytes.length) (hpair : pairOf s.params (byteAt bytes 2) = some (c, r))
    (hlen : bytes.length < c.len) :
    startDispatch bytes s = .ended (.next (raiseFault (.shortFrame (byteAt bytes 2) bytes.length) s)) := by
  rw [startDispatch_free bytes he hl ho, if_neg (Nat.not_lt.mpr h3), hpair, ← pairOf_command_type hpair]
  exact if_pos hlen

/-- Settles O26. -/
theorem hostDispatchReportsNoMatch : Obligations.HostDispatchReportsNoMatch := by
  unfold Obligations.HostDispatchReportsNoMatch
  intro s bytes he hl ho h3 hpair
  exact exec_dispatch (startDispatch_unmatched he hl ho h3 hpair)

/-- Settles O27, fault by fault in the order of R196. -/
theorem hostDispatchFaultsInOrder : Obligations.HostDispatchFaultsInOrder := by
  unfold Obligations.HostDispatchFaultsInOrder
  intro s bytes hf
  refine ⟨fun hrun => ?_, fun he hl ho h3 => ?_, fun c r he hl ho h3 hpair hlen => ?_⟩ <;> rw [← raiseFault_first _ hf]
  · exact exec_dispatch (startDispatch_concurrent bytes (hrun.imp_right .inl))
  · exact exec_dispatch (startDispatch_runt he hl ho h3)
  · exact exec_dispatch (startDispatch_short he hl ho h3 hpair hlen)

/-! ## Frames on the line -/

/-- A served runt reaches the dispatch, and faults there (R163, R167). -/
theorem startLine_runt {s : State} {frame : List Byte} (hs : s.serves = true) (h3 : frame.length < 3) :
    startLine frame s = .ended (.next (raiseFault (.runtFrame frame.length) { s with loop := .dispatching })) := by
  obtain ⟨hlisten, hcheck, hopen⟩ := serves_iff.mp hs
  rw [startLine_serving frame hlisten hcheck hopen, if_pos h3]

/-- A served frame shorter than the command that its type selects (R163, R167). -/
theorem startLine_short {s : State} {frame : List Byte} {c r : FrameDef} (hs : s.serves = true) (h3 : 3 ≤ frame.length)
    (hpair : pairOf s.params (byteAt frame 2) = some (c, r)) (hlen : frame.length < c.len) :
    startLine frame s
      = .ended (.next (raiseFault (.shortFrame (byteAt frame 2) frame.length) { s with loop := .dispatching })) := by
  obtain ⟨hlisten, hcheck, hopen⟩ := serves_iff.mp hs
  rw [startLine_serving frame hlisten hcheck hopen, if_neg (Nat.not_lt.mpr h3), hpair, ← pairOf_command_type hpair]
  exact if_pos hlen

/-- A frame that finds the agent serving and faults: LoopState and the latch change (R163, R167, R194). -/
theorem exec_line_faults {s : State} {i : Instr} {frame : List Byte} {f : Fault} (henc : encode i = .line frame) (hf : s.fault = none)
    (hstart : startLine frame s = .ended (.next (raiseFault f { s with loop := .dispatching }))) :
    exec i s = .next { s with loop := .dispatching, fault := some f } := by
  rw [exec_of_line henc, hstart, runStarted_ended, raiseFault_first f (s := { s with loop := .dispatching }) hf]

/-- Settles O31: one dispatch of a frame's bytes faults for every form. -/
theorem lineShortFramesFault : Obligations.LineShortFramesFault := by
  unfold Obligations.LineShortFramesFault
  intro s hs hf
  refine ⟨fun bytes h3 => exec_line_faults rfl hf (startLine_runt hs h3), fun a ctl ty p f c r hform hpair hlen => ?_⟩
  have henc : encode f.1 = .line (a :: ctl :: f.2 :: p) := by
    rcases hform with hcmd | rfl
    · exact encode_commandForms hcmd
    · rfl
  exact exec_line_faults henc hf (startLine_short (frame := a :: ctl :: f.2 :: p) hs (by simp) hpair hlen)

/-- Settles O32: every form is carried by the line port, and neither outcome looks at the frame's bytes. -/
theorem unservedFramesChangeNoCell : Obligations.UnservedFramesChangeNoCell := by
  unfold Obligations.UnservedFramesChangeNoCell
  intro s a ctl ty p bytes f hform
  obtain ⟨frame, henc⟩ : ∃ frame, encode f.1 = .line frame := by
    rcases hform with hcmd | hrsp | rfl | rfl
    · exact ⟨_, encode_commandForms hcmd⟩
    · exact ⟨_, (encode_responseForms hrsp).1⟩
    · exact ⟨_, rfl⟩
    · exact ⟨_, rfl⟩
  rw [exec_of_line henc]
  refine ⟨fun hidle => ?_, fun hlisten hcheck hen => ?_⟩
  · rw [startLine_idle frame hidle, runStarted_ended]
  · rw [startLine_stops frame hlisten hcheck hen, runStarted_ended]
    rfl

end Sys2Proof.Proofs
end

section
/-! PROOFS. The line agent between its frames: check point H and the return of TxWrite (R164, R167, R169); and CSR_READ (R34, R35, R172). -/

namespace Sys2Proof.Proofs

open Sys2Proof.Machine Sys2Proof.Laws

/-! ## Check point H -/

/-- An iteration that checks at H and finds EN = 0 is the agent's last (R167, R169). -/
theorem passHead_stops {s : State} (hl : s.loop ≠ .stopped) (hh : s.atHead = true) (he : s.en = false) : passHead true s = s.stopLine := by
  simp [passHead, hl, hh, he]

/-- An iteration that does not end at H goes on to RxRead (R167, R169). -/
theorem passHead_reads {s : State} {checksHere : Bool} (hl : s.loop ≠ .stopped) (hh : s.atHead = true)
    (h : checksHere = false ∨ s.en = true) :
    passHead checksHere s = { s with loop := .reading, atHead := false, checkAtA := !checksHere } := by
  have hgoes : (checksHere && !s.en) = false := by rcases h with h | h <;> simp [h]
  simp [passHead, hl, hh, hgoes]

/-- Settles O33. -/
theorem headOfIterationTestsEnableOnce : Obligations.HeadOfIterationTestsEnableOnce := by
  unfold Obligations.HeadOfIterationTestsEnableOnce
  intro s checksHere rest hf hboot ht hl hh
  rw [step_of_turn hf hboot ht]
  refine ⟨?_, fun h => ?_⟩
  · rintro rfl he
    exact congrArg _ (passHead_stops (s := { s with turns := rest }) hl hh he)
  · exact congrArg _ (passHead_reads (s := { s with turns := rest }) hl hh h)

/-! ## The return of TxWrite -/

/-- An agent in TxWrite has sent the response, and goes to its next iteration (R164, R167). -/
theorem completeWrite_of_writing {s : State} (hl : s.loop = .writing) (hh : s.atHead = false) :
    completeWrite s = ({ s with sent := s.tx.take s.respLen :: s.sent }.record .served).toHead := by
  simp [completeWrite, State.transmitting, hl, hh]

/-- Settles O34. -/
theorem txWriteSendsTheResponse : Obligations.TxWriteSendsTheResponse := by
  unfold Obligations.TxWriteSendsTheResponse
  intro s rest hf hboot ht hl hh
  rw [step_of_turn hf hboot ht]
  exact congrArg _ (completeWrite_of_writing (s := { s with turns := rest }) hl hh)

/-! ## CSR_READ -/

theorem execCsrRead_ctrl (s : State) : execCsrRead 0 s = .next (s.reply (.register s.ctrlReg)) := if_pos rfl

theorem execCsrRead_status (s : State) : execCsrRead 1 s = .next (s.reply (.register s.statusReg)) := rfl

theorem execCsrRead_register {s : State} {reg : Byte} (h0 : reg ≠ 0) (h1 : reg ≠ 1) : execCsrRead reg s = .refused .badRegister :=
  (if_neg h0).trans (if_neg h1)

/-- EN is bit 0 of CTRL (R34). -/
theorem ctrlReg_en (s : State) : s.ctrlReg.getLsbD 0 = s.en := by simp [State.ctrlReg]

/-- CTRL's reserved bits read 0 (R34, R172). -/
theorem ctrlReg_reserved (s : State) {k : Nat} (h : 1 ≤ k) : s.ctrlReg.getLsbD k = false := by
  have hk : k ≠ 0 := by omega
  simp [State.ctrlReg, BitVec.getLsbD_setWidth, hk]

/-- READY is bit 0 of STATUS, and no field of it reaches bits 2 and 3 (R35). -/
theorem statusByte_ready_reserved : ∀ (ready faulted : Bool) (code : Fin 16),
    (statusByte ready faulted code).getLsbD 0 = ready ∧ (statusByte ready faulted code).getLsbD 2 = false
      ∧ (statusByte ready faulted code).getLsbD 3 = false := by decide

theorem statusReg_ready_reserved (s : State) :
    s.statusReg.getLsbD 0 = s.ready ∧ s.statusReg.getLsbD 2 = false ∧ s.statusReg.getLsbD 3 = false := by
  rw [statusReg_eq]
  exact statusByte_ready_reserved s.ready s.faulted ⟨s.fcode, fcode_lt s⟩

/-- Settles O46. -/
theorem csrReadReturnsTheRegister : Obligations.CsrReadReturnsTheRegister := by
  unfold Obligations.CsrReadReturnsTheRegister
  intro s
  obtain ⟨hready, hbit2, hbit3⟩ := statusReg_ready_reserved s
  exact ⟨⟨s.ctrlReg, execCsrRead_ctrl s, ctrlReg_en s, fun k hk => ctrlReg_reserved s hk⟩,
    ⟨s.statusReg, execCsrRead_status s, hready, statusReg_faulted s, hbit2, hbit3, statusReg_fcode s⟩,
    fun reg h0 h1 => execCsrRead_register h0 h1⟩

end Sys2Proof.Proofs
end

section
/-! PROOFS. The values reset leaves (R40, R220): what an empty table and a clear fault latch read as, and the first step (R222). -/

namespace Sys2Proof.Proofs

open Sys2Proof.Machine Sys2Proof.Laws

/-- A cell the table does not list reads 0 (R40). -/
theorem getVar_of_empty_table {s : State} (h : s.mem = []) (id : VarId) : s.getVar id = 0 := by
  rw [State.getVar, h, get_nil]
  rfl

/-- With the latch clear FAULTED is 0 (R35). -/
theorem faulted_of_clear {s : State} (h : s.fault = none) : s.faulted = false := by
  rw [State.faulted, h, Option.isSome_none]

/-- With the latch clear FCODE is 0 (R35). -/
theorem fcode_of_clear {s : State} (h : s.fault = none) : s.fcode = 0 := by
  simp only [State.fcode, h]

/-- Settles O8: the stored fields are those `State.resetWith` writes; the cells, FAULTED, FCODE and the first step follow from the empty table,
the clear latch and the pending initialisation. -/
theorem resetLeavesTheSpecValues : Obligations.ResetLeavesTheSpecValues := by
  unfold Obligations.ResetLeavesTheSpecValues
  intro p c
  have hmem : (State.resetWith p c).mem = [] := rfl
  have hfault : (State.resetWith p c).fault = none := rfl
  have hboot : (State.resetWith p c).boot = .pending := rfl
  exact ⟨getVar_of_empty_table hmem, rfl, rfl, rfl, faulted_of_clear hfault, fcode_of_clear hfault, hfault, rfl, rfl, rfl,
    step_of_pending hfault hboot⟩

end Sys2Proof.Proofs
end
